-- ==== Sys2Proof/Word.lean ====
section
/-! DEFINITION. The word types of the CCP command-queue engine (spec/00_scope.md R11): bytes, 32-bit
register and descriptor words, 48-bit operand addresses. Vectors of bits hold only what the spec treats as bits. -/

namespace Sys2Proof

/-- One byte of memory, of the SB store or of a byte string. -/
abbrev Byte := BitVec 8

/-- A 32-bit register value or descriptor word (`REG_BITS`, `PTR_BITS`: spec/00_scope.md R9). -/
abbrev Word := BitVec 32

/-- A 48-bit operand address (`ADDR_BITS`: spec/00_scope.md R9). -/
abbrev Addr := BitVec 48

end Sys2Proof
end

