-- ==== Sys2Proof/Config.lean ====
section
/-! DEFINITION. The implementation parameters of spec/00_scope.md R9. A parameter the spec fixes is a
constant here; a parameter that is OPEN, or for which the spec describes more than one behaviour, is a field of `Params`.
The machine's state carries one `Params`, which no step changes, so every statement about all
states holds for every value of them. -/

namespace Sys2Proof

/-- What a descriptor-level protocol violation does (spec/60_exceptions.md R283). -/
inductive ViolationPolicy where
  /-- `violation(c) = raise Fatal(c)`: the reference behaviour, and what this hardware takes. -/
  | fatal
  /-- The descriptor ends with result `fail` and the drain pass goes on. -/
  | errorInterrupt
  deriving DecidableEq, Repr

/-- Whether a non-zero AES `size` sub-field is rejected (spec/42_aes.md R211). -/
inductive AesSizeCheck where
  | mustBeZero
  | ignored
  deriving DecidableEq, Repr

/-- The parameters a model takes as arguments (spec/00_scope.md R9). -/
structure Params where
  /-- `VIOLATION_POLICY`. -/
  violationPolicy : ViolationPolicy
  /-- `AES_SIZE_CHECK`. -/
  aesSizeCheck : AesSizeCheck
  /-- `ERR_STATUS_CODE`: what `status` holds after a failed operation. -/
  errStatusCode : Word
  /-- `LSB_MASK_CONST`: what the four LSB mask registers read as. -/
  lsbMaskConst : Word
  /-- `REG_WINDOW_SIZE` less 0x6000: the size in bytes of the misc region (spec/10_state.md R39 puts 0x0000 to
  0x5FFF inside every register window). -/
  miscBytes : Nat
  /-- `SCRATCH_REG_OFFSET`. -/
  scratchRegOffset : Nat
  deriving DecidableEq, Repr

/-- `SCRATCH_REG_OFFSET` of this hardware: OPEN with no default (spec/00_scope.md R9), so a constant with no value. -/
opaque Config.scratchRegOffset : Nat

/-- The parameters of this hardware: the values of spec/00_scope.md R9, its defaults where it says OPEN (DESIGN CHOICE,
notes/assumptions/3.md), and no value at all for the scratch register's offset. -/
def Params.hardware : Params where
  violationPolicy := .fatal
  aesSizeCheck := .mustBeZero
  errStatusCode := 1
  lsbMaskConst := 0xFFFFFFFF
  miscBytes := 0x1000
  scratchRegOffset := Config.scratchRegOffset

/-- `DESC_BYTES`: the size of one descriptor. -/
abbrev Config.descBytes : Nat := 32

/-- `SB_BYTES`: the size of the SB store. -/
abbrev Config.sbBytes : Nat := 4096

/-- `SLOT_BYTES`: the size of one SB context slot. -/
abbrev Config.slotBytes : Nat := 32

end Sys2Proof
end

