-- ==== Sys2Proof/Syntax.lean ====
section
/-! DEFINITION. The syntax: descriptors as decoded values (spec/30_encoding.md R124), one constructor of `Instr` per
row of spec/opcode_table.json, the eight raw words of a descriptor (R100), and the names of the fault causes
(spec/60_exceptions.md R282). -/

namespace Sys2Proof

/-- A memory space of a descriptor operand (spec/20_memory.md R60, spec/30_encoding.md R109). -/
inductive MemSpace where
  | system
  | scratchBuffer
  /-- Treated identically to `system` (spec/20_memory.md R63). -/
  | localMem
  deriving DecidableEq, Repr

/-- A memory operand: a space and a 48-bit byte address (spec/20_memory.md R67). Its `fixed` flag is not kept: a
descriptor with the flag set decodes to no instruction (spec/30_encoding.md R114). -/
structure Operand where
  space   : MemSpace
  address : Addr
  deriving DecidableEq, Repr

/-- The four descriptor flags (spec/30_encoding.md R101, R130). -/
structure Flags where
  /-- `stop_on_completion` -/
  soc  : Bool
  /-- `interrupt_on_completion` -/
  ioc  : Bool
  init : Bool
  /-- `end_of_message` -/
  eom  : Bool
  deriving DecidableEq, Repr

/-- The operands of a descriptor of the general variant (every engine but SHA: spec/30_encoding.md R105, R124).
Fields that an engine does not use (R131) are kept, so that encoding gives back every bit. -/
structure GenDesc where
  flags     : Flags
  length    : Word
  source    : Operand
  contextId : BitVec 8
  dest      : Operand
  key       : Operand
  deriving DecidableEq, Repr

/-- The operands of a descriptor of the SHA variant (spec/30_encoding.md R106, R124): no destination, a 64-bit
`sha_len`. -/
structure ShaDesc where
  flags     : Flags
  length    : Word
  source    : Operand
  contextId : BitVec 8
  shaLen    : BitVec 64
  key       : Operand
  deriving DecidableEq, Repr

/-- `aes.type`: the AES key size (spec/30_encoding.md R118). -/
inductive AesKey where
  | k128
  | k192
  | k256
  deriving DecidableEq, Repr

/-- The 13 operations (spec/30_encoding.md R125), one constructor per row of spec/opcode_table.json.
An AES operation keeps its `encrypt` bit, its key size and its `size` sub-field (R117); RSA keeps `rsa.size` (R120). -/
inductive Instr where
  | aesEcb (encrypt : Bool) (keyType : AesKey) (size : BitVec 7) (d : GenDesc)
  | aesCbc (encrypt : Bool) (keyType : AesKey) (size : BitVec 7) (d : GenDesc)
  | aesCfb (encrypt : Bool) (keyType : AesKey) (size : BitVec 7) (d : GenDesc)
  | aesOfb (encrypt : Bool) (keyType : AesKey) (size : BitVec 7) (d : GenDesc)
  | sha1 (d : ShaDesc)
  | sha224 (d : ShaDesc)
  | sha256 (d : ShaDesc)
  | sha384 (d : ShaDesc)
  | sha512 (d : ShaDesc)
  | rsa (size : BitVec 12) (d : GenDesc)
  | ptCopy (d : GenDesc)
  | ptSwap256 (d : GenDesc)
  | zlib (d : GenDesc)
  deriving DecidableEq, Repr

/-- The flags of a descriptor, whichever its variant. -/
def Instr.flags : Instr → Flags
  | .aesEcb _ _ _ d => d.flags
  | .aesCbc _ _ _ d => d.flags
  | .aesCfb _ _ _ d => d.flags
  | .aesOfb _ _ _ d => d.flags
  | .sha1 d => d.flags
  | .sha224 d => d.flags
  | .sha256 d => d.flags
  | .sha384 d => d.flags
  | .sha512 d => d.flags
  | .rsa _ d => d.flags
  | .ptCopy d => d.flags
  | .ptSwap256 d => d.flags
  | .zlib d => d.flags

/-- The eight 32-bit words of a descriptor, `dw0` at the lowest address (spec/30_encoding.md R100). -/
structure DescWords where
  dw0 : Word
  dw1 : Word
  dw2 : Word
  dw3 : Word
  dw4 : Word
  dw5 : Word
  dw6 : Word
  dw7 : Word
  deriving DecidableEq, Repr

/-- The fault causes of spec/60_exceptions.md R282, in the order of its table. -/
inductive Cause where
  | badEngine
  | protectedBit
  | reservedBits
  | fixedAddress
  | badMemSpace
  | sbOperandRange
  | contextRange
  | aesBadMode
  | aesBadKeySize
  | aesBadLength
  | shaBadType
  | shaBadLength
  | shaUnaligned
  | rsaBadLength
  | rsaZeroModulus
  | ptBadBitwise
  | ptBadReflect
  | ptBadByteswap
  | ptNoEom
  | ptBadLength
  | zlibBadFlags
  | ringMisaligned
  | ringIndexRange
  | reqIdNonZero
  | zlibDataError
  | sbOutOfRange
  deriving DecidableEq, Repr

/-- The code of a cause in the table of spec/60_exceptions.md R282. -/
def Cause.code : Cause → Nat
  | .badEngine => 1
  | .protectedBit => 2
  | .reservedBits => 3
  | .fixedAddress => 4
  | .badMemSpace => 5
  | .sbOperandRange => 6
  | .contextRange => 7
  | .aesBadMode => 8
  | .aesBadKeySize => 9
  | .aesBadLength => 10
  | .shaBadType => 11
  | .shaBadLength => 12
  | .shaUnaligned => 13
  | .rsaBadLength => 14
  | .rsaZeroModulus => 15
  | .ptBadBitwise => 16
  | .ptBadReflect => 17
  | .ptBadByteswap => 18
  | .ptNoEom => 19
  | .ptBadLength => 20
  | .zlibBadFlags => 21
  | .ringMisaligned => 22
  | .ringIndexRange => 23
  | .reqIdNonZero => 24
  | .zlibDataError => 25
  | .sbOutOfRange => 26

/-- Class `V` of spec/60_exceptions.md R282: a descriptor-level protocol violation. The other causes are class `F`,
always `Fatal`. -/
def Cause.isViolation (c : Cause) : Bool := c.code ≤ 21

end Sys2Proof
end

