-- ==== Sys2Proof/Machine/Bytes.lean ====
section
/-! DEFINITION. Byte strings (spec/00_scope.md R11): little- and big-endian integers, blocks, byte-wise xor. A byte
string is a list, its first element the byte at the lowest address. `rev` of the spec is `List.reverse`. -/

namespace Sys2Proof.Machine

/-- `le(b)`: the little-endian unsigned integer of a byte string (R11). -/
def leNat : List Byte → Nat
  | [] => 0
  | b :: bs => b.toNat + 256 * leNat bs

/-- `to_le(v, n)`: the `n`-byte little-endian byte string of `v` (R11), of `v mod 256^n` when `v` is larger. -/
def toLe : Nat → Nat → List Byte
  | _, 0 => []
  | v, n + 1 => BitVec.ofNat 8 v :: toLe (v / 256) n

/-- `to_be(v, n)`: the big-endian counterpart (R11). -/
def toBe (v n : Nat) : List Byte := (toLe v n).reverse

/-- `be(b)`: the big-endian unsigned integer of a byte string (R11). -/
def beNat (bs : List Byte) : Nat := leNat bs.reverse

/-- Byte-wise xor of two byte strings (R11). -/
def xorBytes (a b : List Byte) : List Byte := List.zipWith (· ^^^ ·) a b

/-- The first `n` blocks of `size` bytes of a byte string, in order. -/
def blocksOf (size : Nat) : Nat → List Byte → List (List Byte)
  | 0, _ => []
  | n + 1, bs => bs.take size :: blocksOf size n (bs.drop size)

/-- A byte string cut into whole blocks of `size` bytes (spec/42_aes.md R224, spec/43_sha.md R237). -/
def blocks (size : Nat) (bs : List Byte) : List (List Byte) := blocksOf size (bs.length / size) bs

end Sys2Proof.Machine
end

