-- ==== Sys2Proof/Machine/AesCipher.lean ====
section
/-! DEFINITION. The AES block cipher `AES_E` and `AES_D` of spec/00_scope.md R11: the external functions that the
spec names as those of FIPS 197 with 128-, 192- and 256-bit keys (spec/93_implementation_defined.md G9) and does not restate.
Their content is PRESUMED, from that public standard (notes/assumptions/10.md). A block is 16 bytes in the
standard's order, byte `r + 4c` in row `r` and column `c`. -/

namespace Sys2Proof.Machine

/-! ## Bytes as elements of GF(2^8) -/

/-- Multiplication by x modulo x^8 + x^4 + x^3 + x + 1. -/
def xtime (b : Byte) : Byte := if b.getLsbD 7 then (b <<< 1) ^^^ 0x1B else b <<< 1

/-- Multiplication by a constant below 16, as a sum of powers of x. -/
def gfMul (c : BitVec 4) (b : Byte) : Byte :=
  (if c.getLsbD 0 then b else 0) ^^^ (if c.getLsbD 1 then xtime b else 0) ^^^
    (if c.getLsbD 2 then xtime (xtime b) else 0) ^^^ (if c.getLsbD 3 then xtime (xtime (xtime b)) else 0)

/-- The substitution table, one row of 16 bytes per high nibble. -/
def sboxRows : List (BitVec 128) := [
  0x637c777bf26b6fc53001672bfed7ab76,
  0xca82c97dfa5947f0add4a2af9ca472c0,
  0xb7fd9326363ff7cc34a5e5f171d83115,
  0x04c723c31896059a071280e2eb27b275,
  0x09832c1a1b6e5aa0523bd6b329e32f84,
  0x53d100ed20fcb15b6acbbe394a4c58cf,
  0xd0efaafb434d338545f9027f503c9fa8,
  0x51a3408f929d38f5bcb6da2110fff3d2,
  0xcd0c13ec5f974417c4a77e3d645d1973,
  0x60814fdc222a908846eeb814de5e0bdb,
  0xe0323a0a4906245cc2d3ac629195e479,
  0xe7c8376d8dd54ea96c56f4ea657aae08,
  0xba78252e1ca6b4c6e8dd741f4bbd8b8a,
  0x703eb5664803f60e613557b986c11d9e,
  0xe1f8981169d98e949b1e87e9ce5528df,
  0x8ca1890dbfe6426841992d0fb054bb16]

/-- The inverse substitution table. -/
def invSboxRows : List (BitVec 128) := [
  0x52096ad53036a538bf40a39e81f3d7fb,
  0x7ce339829b2fff87348e4344c4dee9cb,
  0x547b9432a6c2233dee4c950b42fac34e,
  0x082ea16628d924b2765ba2496d8bd125,
  0x72f8f66486689816d4a45ccc5d65b692,
  0x6c704850fdedb9da5e154657a78d9d84,
  0x90d8ab008cbcd30af7e45805b8b34506,
  0xd02c1e8fca3f0f02c1afbd0301138a6b,
  0x3a9111414f67dcea97f2cfcef0b4e673,
  0x96ac7422e7ad3585e2f937e81c75df6e,
  0x47f11a711d29c5896fb7620eaa18be1b,
  0xfc563e4bc6d279209adbc0fe78cd5af4,
  0x1fdda8338807c731b11210592780ec5f,
  0x60517fa919b54a0d2de57a9f93c99cef,
  0xa0e03b4dae2af5b0c8ebbb3c83539961,
  0x172b047eba77d626e169146355210c7d]

/-- The entry of a table at a byte: its high nibble names the row, its low nibble the column. -/
def tableByte (rows : List (BitVec 128)) (b : Byte) : Byte :=
  ((rows.getD (b.toNat / 16) 0) >>> (8 * (15 - b.toNat % 16))).setWidth 8

def subByte (b : Byte) : Byte := tableByte sboxRows b

def invSubByte (b : Byte) : Byte := tableByte invSboxRows b

/-! ## The four transformations and their inverses -/

def subBytes (st : List Byte) : List Byte := st.map subByte

def invSubBytes (st : List Byte) : List Byte := st.map invSubByte

/-- Row `r` rotates left by `r` columns. -/
def shiftRows (st : List Byte) : List Byte := (List.range 16).map fun i => st.getD ((i + 4 * (i % 4)) % 16) 0

/-- Row `r` rotates right by `r` columns. -/
def invShiftRows (st : List Byte) : List Byte := (List.range 16).map fun i => st.getD ((i + 12 * (i % 4)) % 16) 0

/-- One column times the matrix whose first row is the four coefficients, each next row rotated right. -/
def mixColumn (c0 c1 c2 c3 : BitVec 4) : List Byte → List Byte
  | [a, b, c, d] => [
      gfMul c0 a ^^^ gfMul c1 b ^^^ gfMul c2 c ^^^ gfMul c3 d,
      gfMul c3 a ^^^ gfMul c0 b ^^^ gfMul c1 c ^^^ gfMul c2 d,
      gfMul c2 a ^^^ gfMul c3 b ^^^ gfMul c0 c ^^^ gfMul c1 d,
      gfMul c1 a ^^^ gfMul c2 b ^^^ gfMul c3 c ^^^ gfMul c0 d]
  | col => col

def mixColumns (st : List Byte) : List Byte := (blocks 4 st).flatMap (mixColumn 2 3 1 1)

def invMixColumns (st : List Byte) : List Byte := (blocks 4 st).flatMap (mixColumn 14 11 13 9)

/-! ## The key schedule -/

/-- The round constant `x^j`. -/
def roundConstant : Nat → Byte
  | 0 => 1
  | j + 1 => xtime (roundConstant j)

/-- The next `n` words of the key schedule after the words `rev` (latest first), the next one having index `i`; `nk` is the
number of words of the key. -/
def expandWords (nk : Nat) : Nat → Nat → List (List Byte) → List (List Byte)
  | 0, _, rev => rev.reverse
  | n + 1, i, rev =>
    let last := rev.headD []
    let t :=
      if i % nk = 0 then xorBytes (subBytes (last.drop 1 ++ last.take 1)) [roundConstant (i / nk - 1), 0, 0, 0]
      else if 6 < nk ∧ i % nk = 4 then subBytes last
      else last
    expandWords nk n (i + 1) (xorBytes (rev.getD (nk - 1) []) t :: rev)

/-- The round keys, 16 bytes each: `nk + 7` of them for a key of `nk` words. -/
def roundKeys (key : List Byte) : List (List Byte) :=
  let nk := key.length / 4
  blocks 16 (expandWords nk (4 * (nk + 7) - nk) nk (blocks 4 key).reverse).flatten

/-! ## The cipher and its inverse -/

/-- The rounds after the first key addition; the last one has no column mixing. -/
def encryptRounds : List (List Byte) → List Byte → List Byte
  | [], st => st
  | [k], st => xorBytes (shiftRows (subBytes st)) k
  | k :: ks, st => encryptRounds ks (xorBytes (mixColumns (shiftRows (subBytes st))) k)

/-- `AES_E(K, B)`. -/
def aesEncrypt (key block : List Byte) : List Byte :=
  match roundKeys key with
  | [] => block
  | k :: ks => encryptRounds ks (xorBytes block k)

/-- The inverse rounds, the round keys given last first. -/
def decryptRounds : List (List Byte) → List Byte → List Byte
  | [], st => st
  | [k], st => xorBytes (invSubBytes (invShiftRows st)) k
  | k :: ks, st => decryptRounds ks (invMixColumns (xorBytes (invSubBytes (invShiftRows st)) k))

/-- `AES_D(K, B)`. -/
def aesDecrypt (key block : List Byte) : List Byte :=
  match (roundKeys key).reverse with
  | [] => block
  | k :: ks => decryptRounds ks (xorBytes block k)

end Sys2Proof.Machine
end

