-- ==== Sys2Proof/WellFormed.lean ====
section
/-! DEFINITION. Well-formed instructions: the constraints a descriptor must meet, stated as one condition per
engine (spec/42_aes.md R211 to R213, spec/43_sha.md R233 and R234, spec/44_rsa.md R252, spec/45_passthrough.md R261 and
R262, spec/46_zlib.md R271 and R272, spec/30_encoding.md R116). The decoder's `validate` makes the same checks one by one, in
the spec's order, and names the first that fails. -/

namespace Sys2Proof

/-- The number of bytes of an AES key (spec/42_aes.md R211: `klen = 16 + 8 * type`). -/
def AesKey.bytes : AesKey → Nat
  | .k128 => 16
  | .k192 => 24
  | .k256 => 32

/-- An operand of `n` bytes lies inside its space (spec/30_encoding.md R116): only an SB-tagged operand with `n > 0` is
bounded. -/
def Operand.fits (o : Operand) (n : Nat) : Bool :=
  o.space != .scratchBuffer || n == 0 || o.address.toNat + n ≤ Config.sbBytes

/-- A context area of `n` bytes lies inside the SB (spec/10_state.md R25). -/
def contextFits (contextId : BitVec 8) (n : Nat) : Bool :=
  contextId.toNat * Config.slotBytes + n ≤ Config.sbBytes

/-- Constraints of every AES operation (spec/42_aes.md R211 to R213); `iv` says whether the mode has an IV. -/
def wfAes (p : Params) (iv : Bool) (keyType : AesKey) (size : BitVec 7) (d : GenDesc) : Bool :=
  (p.aesSizeCheck == .ignored || size == 0) && d.length.toNat % 16 == 0 && (!iv || contextFits d.contextId 16) &&
    d.source.fits d.length.toNat && d.dest.fits d.length.toNat && d.key.fits keyType.bytes

/-- Constraints of a SHA operation with a context area of `area` bytes and blocks of `block` bytes (spec/43_sha.md R233,
R234). -/
def wfSha (area block : Nat) (d : ShaDesc) : Bool :=
  d.shaLen.toNat % 8 == 0 && d.length.toNat ≤ d.shaLen.toNat / 8 &&
    (d.shaLen.toNat / 8 - d.length.toNat) % block == 0 && (d.flags.eom || d.length.toNat % block == 0) &&
    contextFits d.contextId area && d.source.fits d.length.toNat

/-- Constraints of RSA that can be read off the descriptor (spec/44_rsa.md R252). -/
def wfRsa (size : BitVec 12) (d : GenDesc) : Bool :=
  d.length.toNat == 2 * size.toNat && d.source.fits (2 * size.toNat) && d.key.fits size.toNat && d.dest.fits size.toNat

/-- Constraints of a Passthrough operation (spec/45_passthrough.md R261, R262); `swap` says whether the 256-bit byteswap
is selected. -/
def wfPt (swap : Bool) (d : GenDesc) : Bool :=
  d.flags.eom && (!swap || d.length.toNat % 32 == 0) && d.source.fits d.length.toNat && d.dest.fits d.length.toNat

/-- Constraints of ZLIB that can be read off the descriptor (spec/46_zlib.md R271, R272). -/
def wfZlib (d : GenDesc) : Bool :=
  d.flags.soc && d.flags.init && d.flags.eom && !d.flags.ioc && d.source.fits d.length.toNat

/-- A well-formed instruction: a descriptor that passes every check of spec/30_encoding.md R123. -/
def Instr.wf (p : Params) : Instr → Bool
  | .aesEcb _ k size d => wfAes p false k size d
  | .aesCbc _ k size d => wfAes p true k size d
  | .aesCfb _ k size d => wfAes p true k size d
  | .aesOfb _ k size d => wfAes p true k size d
  | .sha1 d => wfSha 20 64 d
  | .sha224 d => wfSha 32 64 d
  | .sha256 d => wfSha 32 64 d
  | .sha384 d => wfSha 64 128 d
  | .sha512 d => wfSha 64 128 d
  | .rsa size d => wfRsa size d
  | .ptCopy d => wfPt false d
  | .ptSwap256 d => wfPt true d
  | .zlib d => wfZlib d

end Sys2Proof
end

