-- ==== Sys2Proof/Decode.lean ====
section
/-! DEFINITION. The descriptor codec (spec/30_encoding.md): the layout of the fields, the decoder of R123, total on any
eight words and rejecting by the name of a cause, and after it the encoder of R129.

The word and bit position of every field, and every numeric code of a sub-field, is what the spec gives from general
knowledge of the device family (its decisions D1 to D7); the source confirms none. They all stand in this
file: one getter per field, one packer per word. -/

namespace Sys2Proof

open Sys2Proof.Machine

/-! ## The layout (R101 to R108, R117 to R122) -/

def bitAt (w : Word) (i : Nat) : Bool := w.getLsbD i

def fieldSoc (d : DescWords) : Bool := bitAt d.dw0 0
def fieldIoc (d : DescWords) : Bool := bitAt d.dw0 1
def fieldInit (d : DescWords) : Bool := bitAt d.dw0 3
def fieldEom (d : DescWords) : Bool := bitAt d.dw0 4
def fieldFunction (d : DescWords) : BitVec 15 := d.dw0.extractLsb' 5 15
def fieldEngine (d : DescWords) : BitVec 4 := d.dw0.extractLsb' 20 4
def fieldProt (d : DescWords) : Bool := bitAt d.dw0 24
def fieldLength (d : DescWords) : Word := d.dw1
/-- An operand's high word holds address bits 47:32 in 15:0 (R104, R105, R108). -/
def fieldAddr (hi lo : Word) : Addr := (hi.extractLsb' 0 16 ++ lo : BitVec 48)
/-- An operand's high word holds the memory space code in 17:16. -/
def fieldMem (hi : Word) : BitVec 2 := hi.extractLsb' 16 2
def fieldContextId (d : DescWords) : BitVec 8 := d.dw3.extractLsb' 18 8
def fieldSrcFixed (d : DescWords) : Bool := bitAt d.dw3 31
def fieldDstFixed (d : DescWords) : Bool := bitAt d.dw5 31
/-- `sha_len = dw5 :: dw4` (R106). -/
def fieldShaLen (d : DescWords) : BitVec 64 := (d.dw5 ++ d.dw4 : BitVec 64)

/-- The four flags of a descriptor; defined on the raw words, so that the Queue Engine can read `soc` and `ioc` of a
descriptor that fails to decode (spec/40_queue_engine.md R142). -/
def fieldFlags (d : DescWords) : Flags := ⟨fieldSoc d, fieldIoc d, fieldInit d, fieldEom d⟩

/-- Some reserved bit outside `function` is set (R115); `sha` says that words 4 and 5 hold `sha_len`. -/
def reservedSet (sha : Bool) (d : DescWords) : Bool :=
  bitAt d.dw0 2 || d.dw0.extractLsb' 25 7 != 0 || d.dw3.extractLsb' 26 5 != 0 || d.dw7.extractLsb' 18 14 != 0 ||
    (!sha && d.dw5.extractLsb' 18 13 != 0)

/-- A memory space code (R109); code 3 is no space. -/
def memSpaceOf (c : BitVec 2) : Option MemSpace :=
  if c = 0 then some .system
  else if c = 1 then some .scratchBuffer
  else if c = 2 then some .localMem
  else none

/-- The engines of this block (R111). -/
inductive Engine where
  | aes
  | sha
  | rsa
  | passthrough
  | zlib
  deriving DecidableEq, Repr

/-- The engine codes (R111); the other codes select no handler (R112). -/
def engineOf (c : BitVec 4) : Option Engine :=
  if c = 0 then some .aes
  else if c = 3 then some .sha
  else if c = 4 then some .rsa
  else if c = 5 then some .passthrough
  else if c = 6 then some .zlib
  else none

/-! ## Checks on the decoded operands (R123 steps 7 and 8) -/

/-- The cause of the first check that fails, in order; `none` when all pass (R123, spec/60_exceptions.md R291). -/
def firstCause : List (Bool × Cause) → Option Cause
  | [] => none
  | (failed, c) :: rest => if failed then some c else firstCause rest

/-- An operand of `n` bytes runs past the SB store (R116). The 48-bit address does not wrap. -/
def overrunsSb (o : Operand) (n : Nat) : Bool :=
  o.space == .scratchBuffer && decide (0 < n) && decide (Config.sbBytes < o.address.toNat + n)

/-- A context area of `n` bytes runs past the SB store (spec/10_state.md R25). -/
def contextOverruns (contextId : BitVec 8) (n : Nat) : Bool :=
  decide (Config.sbBytes < contextId.toNat * Config.slotBytes + n)

/-- The checks of an AES operation after its mode and key size: R211's `size`, then R212, R213 and R116 of
spec/42_aes.md. -/
def validateAes (p : Params) (iv : Bool) (keyType : AesKey) (size : BitVec 7) (d : GenDesc) : Option Cause :=
  firstCause [
    (p.aesSizeCheck == .mustBeZero && size != 0, .reservedBits),
    (d.length.toNat % 16 != 0, .aesBadLength),
    (iv && contextOverruns d.contextId 16, .contextRange),
    (overrunsSb d.source d.length.toNat, .sbOperandRange),
    (overrunsSb d.dest d.length.toNat, .sbOperandRange),
    (overrunsSb d.key keyType.bytes, .sbOperandRange)]

/-- The checks of a SHA operation after its type (spec/43_sha.md R233, R234), for a context area of `area` bytes and
blocks of `block` bytes. -/
def validateSha (area block : Nat) (d : ShaDesc) : Option Cause :=
  firstCause [
    (d.shaLen.toNat % 8 != 0, .shaBadLength),
    (decide (d.shaLen.toNat / 8 < d.length.toNat), .shaBadLength),
    ((d.shaLen.toNat / 8 - d.length.toNat) % block != 0, .shaUnaligned),
    (!d.flags.eom && d.length.toNat % block != 0, .shaUnaligned),
    (contextOverruns d.contextId area, .contextRange),
    (overrunsSb d.source d.length.toNat, .sbOperandRange)]

/-- The checks of RSA after its mode (spec/44_rsa.md R252). -/
def validateRsa (size : BitVec 12) (d : GenDesc) : Option Cause :=
  firstCause [
    (d.length.toNat != 2 * size.toNat, .rsaBadLength),
    (overrunsSb d.source (2 * size.toNat), .sbOperandRange),
    (overrunsSb d.key size.toNat, .sbOperandRange),
    (overrunsSb d.dest size.toNat, .sbOperandRange)]

/-- The checks of a Passthrough operation after its `function` (spec/45_passthrough.md R261's `eom`, then R262). -/
def validatePt (swap : Bool) (d : GenDesc) : Option Cause :=
  firstCause [
    (!d.flags.eom, .ptNoEom),
    (swap && d.length.toNat % 32 != 0, .ptBadLength),
    (overrunsSb d.source d.length.toNat, .sbOperandRange),
    (overrunsSb d.dest d.length.toNat, .sbOperandRange)]

/-- The checks of ZLIB after its `function` (spec/46_zlib.md R271's flags, then R272). -/
def validateZlib (d : GenDesc) : Option Cause :=
  firstCause [
    (!(d.flags.soc && d.flags.init && d.flags.eom && !d.flags.ioc), .zlibBadFlags),
    (overrunsSb d.source d.length.toNat, .sbOperandRange)]

/-- The checks of R123 steps 7 and 8 that concern the operands of an operation. -/
def validate (p : Params) : Instr → Option Cause
  | .aesEcb _ k size d => validateAes p false k size d
  | .aesCbc _ k size d => validateAes p true k size d
  | .aesCfb _ k size d => validateAes p true k size d
  | .aesOfb _ k size d => validateAes p true k size d
  | .sha1 d => validateSha 20 64 d
  | .sha224 d => validateSha 32 64 d
  | .sha256 d => validateSha 32 64 d
  | .sha384 d => validateSha 64 128 d
  | .sha512 d => validateSha 64 128 d
  | .rsa size d => validateRsa size d
  | .ptCopy d => validatePt false d
  | .ptSwap256 d => validatePt true d
  | .zlib d => validateZlib d

/-! ## The decoder (R123) -/

/-- The AES operation that `function` selects (R117, R118; spec/42_aes.md R211). -/
def decodeAes (fn : BitVec 15) (d : GenDesc) : Except Cause Instr :=
  let size := fn.extractLsb' 0 7
  let encrypt := fn.getLsbD 7
  let mode := fn.extractLsb' 8 5
  let type := fn.extractLsb' 13 2
  if 4 ≤ mode.toNat then .error .aesBadMode
  else if type = 3 then .error .aesBadKeySize
  else
    let k : AesKey := if type = 0 then .k128 else if type = 1 then .k192 else .k256
    if mode = 0 then .ok (.aesEcb encrypt k size d)
    else if mode = 1 then .ok (.aesCbc encrypt k size d)
    else if mode = 2 then .ok (.aesOfb encrypt k size d)
    else .ok (.aesCfb encrypt k size d)

/-- The SHA operation that `function` selects (R119; spec/43_sha.md R231: the type is examined before the reserved
bits). -/
def decodeSha (fn : BitVec 15) (d : ShaDesc) : Except Cause Instr :=
  let type := fn.extractLsb' 10 4
  if type = 0 ∨ 6 ≤ type.toNat then .error .shaBadType
  else if fn.extractLsb' 0 10 ≠ 0 ∨ fn.getLsbD 14 then .error .reservedBits
  else if type = 1 then .ok (.sha1 d)
  else if type = 2 then .ok (.sha224 d)
  else if type = 3 then .ok (.sha256 d)
  else if type = 4 then .ok (.sha384 d)
  else .ok (.sha512 d)

/-- RSA's `function` (R120; spec/44_rsa.md R251). -/
def decodeRsa (fn : BitVec 15) (d : GenDesc) : Except Cause Instr :=
  if fn.extractLsb' 0 3 ≠ 0 then .error .reservedBits
  else .ok (.rsa (fn.extractLsb' 3 12) d)

/-- The Passthrough operation that `function` selects (R121; the order of spec/45_passthrough.md R261). -/
def decodePt (fn : BitVec 15) (d : GenDesc) : Except Cause Instr :=
  let byteswap := fn.extractLsb' 0 2
  if fn.extractLsb' 7 8 ≠ 0 then .error .reservedBits
  else if fn.extractLsb' 2 3 ≠ 0 then .error .ptBadBitwise
  else if fn.extractLsb' 5 2 ≠ 0 then .error .ptBadReflect
  else if byteswap = 0 then .ok (.ptCopy d)
  else if byteswap = 2 then .ok (.ptSwap256 d)
  else .error .ptBadByteswap

/-- Zlib's `function` (R122; spec/46_zlib.md R271). -/
def decodeZlib (fn : BitVec 15) (d : GenDesc) : Except Cause Instr :=
  if fn ≠ 0 then .error .reservedBits else .ok (.zlib d)

/-- The operands of the general variant; `none` when a space code is 3 (R109, R110, R124). -/
def decodeGeneral (d : DescWords) : Option GenDesc :=
  match memSpaceOf (fieldMem d.dw3), memSpaceOf (fieldMem d.dw5), memSpaceOf (fieldMem d.dw7) with
  | some src, some dst, some key => some {
      flags := fieldFlags d
      length := fieldLength d
      source := ⟨src, fieldAddr d.dw3 d.dw2⟩
      contextId := fieldContextId d
      dest := ⟨dst, fieldAddr d.dw5 d.dw4⟩
      key := ⟨key, fieldAddr d.dw7 d.dw6⟩ }
  | _, _, _ => none

/-- The operands of the SHA variant; `none` when a space code is 3 (R106, R109). -/
def decodeShaOperands (d : DescWords) : Option ShaDesc :=
  match memSpaceOf (fieldMem d.dw3), memSpaceOf (fieldMem d.dw7) with
  | some src, some key => some {
      flags := fieldFlags d
      length := fieldLength d
      source := ⟨src, fieldAddr d.dw3 d.dw2⟩
      contextId := fieldContextId d
      shaLen := fieldShaLen d
      key := ⟨key, fieldAddr d.dw7 d.dw6⟩ }
  | _, _ => none

/-- Step 5 and 6 of R123 for the general variant, then the engine's reading of `function`. -/
def withGeneral (d : DescWords) (f : GenDesc → Except Cause Instr) : Except Cause Instr :=
  match decodeGeneral d with
  | none => .error .badMemSpace
  | some o => f o

/-- Step 5 and 6 of R123 for the SHA variant, then the reading of `function`. -/
def withShaOperands (d : DescWords) (f : ShaDesc → Except Cause Instr) : Except Cause Instr :=
  match decodeShaOperands d with
  | none => .error .badMemSpace
  | some o => f o

/-- Steps 1 to 6 of R123 and the checks of `function`: the instruction the words stand for. -/
def decodeFields (d : DescWords) : Except Cause Instr :=
  match engineOf (fieldEngine d) with
  | none => .error .badEngine
  | some e =>
    if fieldProt d then .error .protectedBit
    else if reservedSet (e == .sha) d then .error .reservedBits
    else if fieldSrcFixed d || (e != .sha && fieldDstFixed d) then .error .fixedAddress
    else
      match e with
      | .aes => withGeneral d (decodeAes (fieldFunction d))
      | .sha => withShaOperands d (decodeSha (fieldFunction d))
      | .rsa => withGeneral d (decodeRsa (fieldFunction d))
      | .passthrough => withGeneral d (decodePt (fieldFunction d))
      | .zlib => withGeneral d (decodeZlib (fieldFunction d))

/-- `decode` of R123: the instruction, or the cause of the first check that fails. -/
def decode (p : Params) (d : DescWords) : Except Cause Instr :=
  match decodeFields d with
  | .error c => .error c
  | .ok i =>
    match validate p i with
    | some c => .error c
    | none => .ok i

/-! ## The encoder (R129) -/

/-- Word 0 (R101), every reserved bit and `prot` 0. -/
def packControl (f : Flags) (fn : BitVec 15) (engine : BitVec 4) : Word :=
  BitVec.ofNat 32 (f.soc.toNat + 2 * f.ioc.toNat + 8 * f.init.toNat + 16 * f.eom.toNat + 32 * fn.toNat +
    1048576 * engine.toNat)

/-- The code of a memory space (R109). -/
def codeOfMemSpace : MemSpace → BitVec 2
  | .system => 0
  | .scratchBuffer => 1
  | .localMem => 2

/-- The low word of an address. -/
def packLo (o : Operand) : Word := o.address.extractLsb' 0 32

/-- The high word of an operand (R104, R105, R108); `contextId` is 0 but in word 3. -/
def packHi (o : Operand) (contextId : BitVec 8) : Word :=
  BitVec.ofNat 32 (o.address.toNat / 4294967296 + 65536 * (codeOfMemSpace o.space).toNat + 262144 * contextId.toNat)

/-- The eight words of a descriptor of the general variant. -/
def packGeneral (fn : BitVec 15) (engine : BitVec 4) (d : GenDesc) : DescWords where
  dw0 := packControl d.flags fn engine
  dw1 := d.length
  dw2 := packLo d.source
  dw3 := packHi d.source d.contextId
  dw4 := packLo d.dest
  dw5 := packHi d.dest 0
  dw6 := packLo d.key
  dw7 := packHi d.key 0

/-- The eight words of a descriptor of the SHA variant. -/
def packSha (fn : BitVec 15) (d : ShaDesc) : DescWords where
  dw0 := packControl d.flags fn 3
  dw1 := d.length
  dw2 := packLo d.source
  dw3 := packHi d.source d.contextId
  dw4 := d.shaLen.extractLsb' 0 32
  dw5 := d.shaLen.extractLsb' 32 32
  dw6 := packLo d.key
  dw7 := packHi d.key 0

/-- The code of an AES key size (R118). -/
def codeOfAesKey : AesKey → Nat
  | .k128 => 0
  | .k192 => 1
  | .k256 => 2

/-- AES `function` (R117). -/
def packAes (size : BitVec 7) (encrypt : Bool) (mode : Nat) (k : AesKey) : BitVec 15 :=
  BitVec.ofNat 15 (size.toNat + 128 * encrypt.toNat + 256 * mode + 8192 * codeOfAesKey k)

/-- `encode`: the words of an instruction (R129). -/
def encode : Instr → DescWords
  | .aesEcb enc k size d => packGeneral (packAes size enc 0 k) 0 d
  | .aesCbc enc k size d => packGeneral (packAes size enc 1 k) 0 d
  | .aesOfb enc k size d => packGeneral (packAes size enc 2 k) 0 d
  | .aesCfb enc k size d => packGeneral (packAes size enc 3 k) 0 d
  | .sha1 d => packSha 0x0400 d
  | .sha224 d => packSha 0x0800 d
  | .sha256 d => packSha 0x0C00 d
  | .sha384 d => packSha 0x1000 d
  | .sha512 d => packSha 0x1400 d
  | .rsa size d => packGeneral (BitVec.ofNat 15 (8 * size.toNat)) 4 d
  | .ptCopy d => packGeneral 0 5 d
  | .ptSwap256 d => packGeneral 2 5 d
  | .zlib d => packGeneral 0 6 d

/-! ## Words and bytes (R71, R100) -/

/-- `dwk = le_32(d[4k .. 4k+4))` of the 32 bytes of a descriptor. -/
def wordOfBytes (bs : List Byte) (k : Nat) : Word := BitVec.ofNat 32 (leNat ((bs.drop (4 * k)).take 4))

/-- The eight little-endian words of the 32 bytes of a descriptor (R100). -/
def wordsOfBytes (bs : List Byte) : DescWords where
  dw0 := wordOfBytes bs 0
  dw1 := wordOfBytes bs 1
  dw2 := wordOfBytes bs 2
  dw3 := wordOfBytes bs 3
  dw4 := wordOfBytes bs 4
  dw5 := wordOfBytes bs 5
  dw6 := wordOfBytes bs 6
  dw7 := wordOfBytes bs 7

/-- The 32 bytes of a descriptor: eight little-endian words, `dw0` first (R100). -/
def bytesOfWords (d : DescWords) : List Byte :=
  toLe d.dw0.toNat 4 ++ toLe d.dw1.toNat 4 ++ toLe d.dw2.toNat 4 ++ toLe d.dw3.toNat 4 ++
    toLe d.dw4.toNat 4 ++ toLe d.dw5.toNat 4 ++ toLe d.dw6.toNat 4 ++ toLe d.dw7.toNat 4

/-! ## The opcode table -/

/-- The 32 bytes of a descriptor given as one number of `nbits` bits, bit 0 the least significant bit of `dw0`; every
higher bit is 0. -/
def tableBytes (nbits w : Nat) : List Byte := toLe (w % 2 ^ nbits) Config.descBytes

/-- The instruction the decoder reads from the descriptor whose bits are `w`, with the parameters of this hardware. -/
def decodeTableWord (nbits w : Nat) : Option Instr :=
  match decode Params.hardware (wordsOfBytes (tableBytes nbits w)) with
  | .ok i => some i
  | .error _ => none

end Sys2Proof
end

