-- ==== Sys2Proof/Machine/State.lean ====
section
/-! DEFINITION. The machine's state as plain data (spec/10_state.md R20 and R36), the reasons a step can stop, and the
machine after reset (R41, spec/70_reset_and_hazards.md R320). -/

namespace Sys2Proof.Machine

/-- The five queues (spec/60_exceptions.md R303, spec/90_conflicts.md C5). -/
inductive QueueId where
  | q0
  | q1
  | q2
  | q3
  | q4
  deriving DecidableEq, Repr

/-- The number of a queue, `0 .. 4`. -/
def QueueId.index : QueueId → Nat
  | .q0 => 0
  | .q1 => 1
  | .q2 => 2
  | .q3 => 3
  | .q4 => 4

/-- The record `Q[q]` of one queue (spec/10_state.md R20, R27 to R34). -/
structure Queue where
  /-- `control.run` (R30, R31) -/
  run : Bool
  /-- `control.halt`: a status bit for the Host, read by no rule (R31) -/
  halt : Bool
  /-- `control.size_code` (R30) -/
  sizeCode : BitVec 5
  /-- address of ring index 0; hidden (R29) -/
  base : Word
  /-- address of the next descriptor (R27) -/
  head : Word
  /-- address one past the last available descriptor (R28) -/
  tail : Word
  /-- bit 0 completion, bit 1 error (R32) -/
  interruptEnable : BitVec 2
  /-- bit 0 completion pending, bit 1 error pending (R33) -/
  interruptStatus : BitVec 2
  /-- (R34) -/
  status : Word
  /-- (R34) -/
  intStatus : Word
  deriving DecidableEq, Repr

/-- The five queue records. -/
structure Queues where
  q0 : Queue
  q1 : Queue
  q2 : Queue
  q3 : Queue
  q4 : Queue
  deriving DecidableEq, Repr

/-- One action of the Host (spec/00_scope.md R10): a register access (spec/41_register_interface.md R170) with its offset and its
width in bits, or an access of guest memory (R197). -/
inductive HostOp where
  | regRead (offset width : Nat)
  | regWrite (offset width : Nat) (value : Word)
  | memRead (address n : Nat)
  | memWrite (address : Nat) (bytes : List Byte)
  deriving DecidableEq, Repr

/-- What a read returns to the Host. -/
inductive HostReply where
  /-- the value of a register -/
  | word (v : Word)
  /-- bytes of guest memory, in address order -/
  | bytes (bs : List Byte)
  deriving DecidableEq, Repr

/-- The whole state of one device, with the guest memory it works on and the Host's pending actions. -/
structure State where
  /-- `Q[q]` (R20 b) -/
  queues : Queues
  /-- `G.queue_priority` (R35) -/
  queuePriority : Word
  /-- `G.misc`: 32-bit words by register offset, 0 where unlisted (R35) -/
  misc : List (Nat × Word)
  /-- the scratch register, where its offset lies outside the misc region (R35, spec/41_register_interface.md R194) -/
  scratch : Word
  /-- the SB store (R22): bytes by offset, 0 where unlisted -/
  sb : List Host.Cell
  /-- the level of the shared interrupt line (R36) -/
  irq : Bool
  /-- the fault record (R36) -/
  fatal : Option Cause
  /-- guest memory, System and Local (spec/20_memory.md R62, R63): bytes by address, 0 where unlisted -/
  mem : List Host.Cell
  /-- MODEL: the queue the drain pass in progress (or the last one) drains -/
  active : QueueId
  /-- MODEL: a drain pass is in progress, and the Host has no move (spec/00_scope.md R10) -/
  draining : Bool
  /-- MODEL: the Host's pending actions, oldest first -/
  host : List HostOp
  /-- MODEL: what the Host's last read returned -/
  hostReply : Option HostReply
  /-- MODEL: the parameters of spec/00_scope.md R9; no step changes them -/
  params : Params
  deriving DecidableEq, Repr

/-- Why a step stops with a fault. -/
inductive Fault where
  /-- Raised by every step once `fatal` is set: the block takes no further step (spec/60_exceptions.md R281,
  spec/41_register_interface.md R196). Safe: the model gives a dead block no behaviour at all. -/
  | dead (c : Cause)
  /-- Raised when the Host accesses guest memory past address 2^64, which does not exist (spec/20_memory.md R66). Safe: the spec gives
  such an access no behaviour. -/
  | noSuchAddress
  deriving DecidableEq, Repr

/-- Why a step is refused. -/
inductive Refusal where
  /-- An instruction without a meaning. Raised by no arm: every instruction has its meaning. Safe. -/
  | notModelled (mnemonic : String)
  /-- A register access that is not an aligned 32-bit access inside the register window, to which the spec gives no meaning
  (spec/20_memory.md R76, spec/41_register_interface.md R170). Raised by the Host's register accesses. Safe. -/
  | registerAccessShape
  /-- A control write with `size_code = 31`, whose ring size 2^32 a 32-bit computation turns into 0: a model refuses it
  (spec/40_queue_engine.md R155, entry U7 of spec/93_implementation_defined.md). Raised by the Host's register writes. Safe. -/
  | ringSizeCode
  deriving DecidableEq, Repr

/-- A queue after reset, its `halt` bit drawn (R41: `RESET_HALT_BIT` is unspecified). -/
def Queue.resetWith (halt : Bool) : Queue where
  run := false
  halt := halt
  sizeCode := 0
  base := 0
  head := 0
  tail := 0
  interruptEnable := 0
  interruptStatus := 0
  status := 0
  intStatus := 0

/-- The machine after reset for every value of what R41 leaves unspecified: the parameters, the `halt` bit, the contents of
the SB store; and over any guest memory. -/
def State.resetWith (p : Params) (halt : Bool) (sb mem : List Host.Cell) : State where
  queues := ⟨Queue.resetWith halt, Queue.resetWith halt, Queue.resetWith halt, Queue.resetWith halt, Queue.resetWith halt⟩
  queuePriority := 0
  misc := []
  scratch := 0
  sb := sb
  irq := false
  fatal := none
  mem := mem
  active := .q0
  draining := false
  host := []
  hostReply := none
  params := p

/-- The machine right after reset (R41), with the parameters of this hardware. What the spec leaves unspecified, the `halt` bits and
the SB contents, is drawn as 0 (DESIGN CHOICE, notes/assumptions/5.md). -/
def State.reset : State := State.resetWith Params.hardware false [] []

end Sys2Proof.Machine
end

