-- ==== Sys2Proof/Machine/Cells.lean ====
section
/-! DEFINITION. Sparse stores in one canonical form: lists of (key, value) with strictly rising keys and no entry equal to 0,
which is what an unlisted key reads as. They hold guest memory, the SB store and the misc registers. Why 0:
guest memory notes/assumptions/6.md, the SB notes/assumptions/5.md, the misc registers spec/10_state.md R41. -/

namespace Sys2Proof.Machine

/-- The value at a key. -/
def cellsRead {n : Nat} : List (Nat × BitVec n) → Nat → BitVec n
  | [], _ => 0
  | (k, v) :: m, a => if a = k then v else if a < k then 0 else cellsRead m a

/-- The store with the value at one key replaced, in canonical form again. -/
def cellsWrite {n : Nat} : List (Nat × BitVec n) → Nat → BitVec n → List (Nat × BitVec n)
  | [], a, v => if v = 0 then [] else [(a, v)]
  | (k, w) :: m, a, v =>
    if a < k then (if v = 0 then (k, w) :: m else (a, v) :: (k, w) :: m)
    else if a = k then (if v = 0 then m else (a, v) :: m)
    else (k, w) :: cellsWrite m a v

/-- Every key of the store is at least `lo`, keys rise strictly, no value is 0. -/
def cellsWfFrom {n : Nat} : Nat → List (Nat × BitVec n) → Bool
  | _, [] => true
  | lo, (k, v) :: m => decide (lo ≤ k) && decide (v ≠ 0) && cellsWfFrom (k + 1) m

/-- The canonical form. -/
def cellsWf {n : Nat} (m : List (Nat × BitVec n)) : Bool := cellsWfFrom 0 m

/-- A byte string written from a key on, lowest key first. -/
def cellsWriteBytes : List Host.Cell → Nat → List Byte → List Host.Cell
  | m, _, [] => m
  | m, a, b :: bs => cellsWriteBytes (cellsWrite m a b) (a + 1) bs

/-- The `n` bytes from a key on. -/
def cellsReadBytes (m : List Host.Cell) (a : Nat) : Nat → List Byte
  | 0 => []
  | n + 1 => cellsRead m a :: cellsReadBytes m (a + 1) n

/-- Guest memory is in canonical form. -/
abbrev Memory.wf (m : List Host.Cell) : Bool := cellsWf m

end Sys2Proof.Machine
end

