-- ==== Sys2Proof/Machine/Flags.lean ====
section
/-! DEFINITION. The flags of the block: `run`, `halt` and the two interrupt bits of each queue are all it has (spec/10_state.md R33). The
status mirrors (R34), the interrupt event `signal` (spec/60_exceptions.md R288) and its acknowledge (R289). -/

namespace Sys2Proof.Machine

/-- The one-bit result of a handler (spec/40_queue_engine.md R150). -/
inductive Result where
  | ok
  | fail
  deriving DecidableEq, Repr

/-- The record of queue `q`. -/
def Queues.get (qs : Queues) : QueueId → Queue
  | .q0 => qs.q0
  | .q1 => qs.q1
  | .q2 => qs.q2
  | .q3 => qs.q3
  | .q4 => qs.q4

/-- The record of queue `q` replaced. -/
def Queues.set (qs : Queues) (q : QueueId) (v : Queue) : Queues :=
  match q with
  | .q0 => { qs with q0 := v }
  | .q1 => { qs with q1 := v }
  | .q2 => { qs with q2 := v }
  | .q3 => { qs with q3 := v }
  | .q4 => { qs with q4 := v }

/-- `Q[q]`. -/
def State.queue (s : State) (q : QueueId) : Queue := s.queues.get q

/-- `Q[q] <- v`. -/
def State.setQueue (s : State) (q : QueueId) (v : Queue) : State := { s with queues := s.queues.set q v }

/-- The interrupt bit of an event: bit 0 completion, bit 1 error (spec/60_exceptions.md R287). -/
def eventBit : Result → BitVec 2
  | .ok => 1
  | .fail => 2

/-- Some queue has a pending interrupt (spec/60_exceptions.md R290). -/
def anyPending (qs : Queues) : Bool :=
  qs.q0.interruptStatus != 0 || qs.q1.interruptStatus != 0 || qs.q2.interruptStatus != 0 ||
    qs.q3.interruptStatus != 0 || qs.q4.interruptStatus != 0

/-- The status mirrors after an executed descriptor, whatever its `ioc` and the enables (spec/10_state.md R34). -/
def State.mirror (s : State) (q : QueueId) (r : Result) : State :=
  s.setQueue q { s.queue q with
    status := match r with
      | .ok => 0
      | .fail => s.params.errStatusCode
    intStatus := match r with
      | .ok => 1
      | .fail => 2 }

/-- `signal(q, r)` (spec/60_exceptions.md R288): taking the completion or error event. With the enable bit clear the event is
dropped. -/
def State.signal (s : State) (q : QueueId) (r : Result) : State :=
  if (s.queue q).interruptEnable &&& eventBit r = 0 then s
  else { s.setQueue q { s.queue q with interruptStatus := (s.queue q).interruptStatus ||| eventBit r } with irq := true }

/-- `ack(q, v)` (spec/60_exceptions.md R289): write-one-to-clear, then the line is deasserted when no queue has a
pending bit. The block's only "return" from an event (R293). -/
def State.acknowledge (s : State) (q : QueueId) (v : BitVec 2) : State :=
  let s' := s.setQueue q { s.queue q with interruptStatus := (s.queue q).interruptStatus &&& ~~~v }
  if anyPending s'.queues then s' else { s' with irq := false }

/-- The stop-on-completion halt: `run <- 0`, `halt <- 1`, and the pass ends (spec/40_queue_engine.md R149). -/
def State.stopQueue (s : State) (q : QueueId) : State :=
  { s.setQueue q { s.queue q with run := false, halt := true } with draining := false }

end Sys2Proof.Machine
end

