-- ==== Sys2Proof/Machine/Ops.lean ====
section
/-! DEFINITION. The named operations: the memory-space router (spec/20_memory.md R61 to R66), the ring arithmetic
(spec/40_queue_engine.md R143, R144, R147), `raise Fatal` and `violation` (spec/60_exceptions.md R281, R283), and what follows a
descriptor (R142). -/

namespace Sys2Proof.Machine

/-! ## The router -/

/-- Why a handler ends without a result: a protocol violation or a `Fatal` (spec/40_queue_engine.md R150). -/
inductive Stop where
  | violation (c : Cause)
  | fatal (c : Cause)
  deriving DecidableEq, Repr

/-- One byte of a memory space; `Local` is `System` (R63). -/
def readByte (s : State) (space : MemSpace) (a : Nat) : Byte :=
  match space with
  | .scratchBuffer => cellsRead s.sb a
  | .system => cellsRead s.mem a
  | .localMem => cellsRead s.mem a

/-- The `n` bytes from an address on, index 0 the byte at the address (R62, R64). -/
def readBytes (s : State) (space : MemSpace) (a n : Nat) : List Byte :=
  match space with
  | .scratchBuffer => cellsReadBytes s.sb a n
  | .system => cellsReadBytes s.mem a n
  | .localMem => cellsReadBytes s.mem a n

/-- A byte string stored from an address on (R62, R64); nothing else changes (R65). -/
def writeBytes (s : State) (space : MemSpace) (a : Nat) (bs : List Byte) : State :=
  match space with
  | .scratchBuffer => { s with sb := cellsWriteBytes s.sb a bs }
  | .system => { s with mem := cellsWriteBytes s.mem a bs }
  | .localMem => { s with mem := cellsWriteBytes s.mem a bs }

/-- The router's own last check (R64): SB bytes past 4095 are asked for. -/
def outsideSb (space : MemSpace) (a n : Nat) : Bool :=
  space == .scratchBuffer && decide (0 < n) && decide (Config.sbBytes < a + n)

/-- `MemRead(space, a, n)` (R61 to R64). -/
def memRead (s : State) (space : MemSpace) (a n : Nat) : Except Stop (List Byte) :=
  if outsideSb space a n then .error (.fatal .sbOutOfRange) else .ok (readBytes s space a n)

/-- `MemWrite(space, a, len v, v)` (R61 to R64). -/
def memWrite (s : State) (space : MemSpace) (a : Nat) (v : List Byte) : Except Stop State :=
  if outsideSb space a v.length then .error (.fatal .sbOutOfRange) else .ok (writeBytes s space a v)

/-! ## The ring -/

/-- `ring_size`, a mathematical integer (spec/10_state.md R30, spec/40_queue_engine.md R155). -/
def ringSize (q : Queue) : Nat := 2 * 2 ^ q.sizeCode.toNat

/-- The computed ring index of a pointer before the wrap (R143, R144): the subtraction is modulo 2^32. -/
def rawIndex (q : Queue) (p : Word) : Nat := (p - q.base).toNat / 32

/-- `index(q, p)` (R143). -/
def ringIndex (q : Queue) (p : Word) : Nat := rawIndex q p % ringSize q

/-- `check_sanity(q)` (R144): `head` before `tail`, alignment before range; the comparison with the ring size is `<=`. -/
def checkSanity (q : Queue) : Option Cause :=
  firstCause [
    (q.head.toNat % 32 != 0, .ringMisaligned),
    (decide (ringSize q < rawIndex q q.head), .ringIndexRange),
    (q.tail.toNat % 32 != 0, .ringMisaligned),
    (decide (ringSize q < rawIndex q q.tail), .ringIndexRange)]

/-- The number of descriptors pending: `(ti - hi) mod ring_size` (R148). -/
def pendingCount (q : Queue) : Nat := (ringIndex q q.tail + ringSize q - ringIndex q q.head) % ringSize q

/-- The address of the ring entry after the one at `head` (R147). -/
def nextHead (q : Queue) : Word :=
  BitVec.ofNat 32 (q.base.toNat + (ringIndex q q.head + 1) % ringSize q * 32)

/-- The head advance (R147). -/
def State.advanceHead (s : State) (q : QueueId) : State :=
  s.setQueue q { s.queue q with head := nextHead (s.queue q) }

/-- The descriptor at `head`: 32 bytes of System memory, read whole (R145, spec/20_memory.md R70). -/
def fetchWords (s : State) (q : Queue) : DescWords :=
  wordsOfBytes (readBytes s .system q.head.toNat Config.descBytes)

/-! ## Ends of a pass -/

/-- The drain pass returns (R142). -/
def State.endPass (s : State) : State := { s with draining := false }

/-- `raise Fatal(cause)` (spec/60_exceptions.md R281): the one "exception" the block takes by itself. The cause is recorded, the pass ends, and
nothing else changes. -/
def State.raiseFatal (s : State) (c : Cause) : State := { s with fatal := some c, draining := false }

/-- What follows a descriptor whose handler gave the result `r`, in the order of R142: head advance, status mirrors,
interrupt if `ioc`, halt if `soc`. -/
def State.retire (s : State) (f : Flags) (r : Result) : State :=
  let s₁ := (s.advanceHead s.active).mirror s.active r
  let s₂ := if f.ioc then s₁.signal s.active r else s₁
  if f.soc then s₂.stopQueue s.active else s₂

/-- `violation(cause)` (spec/60_exceptions.md R283): `Fatal`, or the result `fail` with no write made, by
`VIOLATION_POLICY`. -/
def State.violate (s : State) (f : Flags) (c : Cause) : State :=
  match s.params.violationPolicy with
  | .fatal => s.raiseFatal c
  | .errorInterrupt => s.retire f .fail

/-- Executing a descriptor (spec/40_queue_engine.md R142, R146): its checks, then its handler, then what follows it. A handler that stops has
made no write (spec/60_exceptions.md R292): the state before it is kept. -/
def runDescriptor (f : Flags) (check : Option Cause) (handler : State → Except Stop State) (s : State) :
    Host.Outcome State Fault Refusal :=
  match check with
  | some c => .next (s.violate f c)
  | none =>
    match handler s with
    | .ok s' => .next (s'.retire f .ok)
    | .error (.violation c) => .next (s.violate f c)
    | .error (.fatal c) => .next (s.raiseFatal c)

end Sys2Proof.Machine
end

