-- ==== Sys2Proof/Machine/ShaHash.lean ====
section
/-! DEFINITION. The hash functions of spec/43_sha.md R232: the parameters of the five algorithms, their compression functions and
the padding of R238. `SHA1_Compress`, `SHA256_Compress` and `SHA512_Compress` are external functions of spec/00_scope.md R11 that the spec
names as those of FIPS 180-4 (spec/93_implementation_defined.md G9) and does not restate. Their content is PRESUMED, from that public
standard (notes/assumptions/11.md). -/

namespace Sys2Proof.Machine

/-! ## Parameters (R232) -/

inductive ShaAlg where
  | sha1
  | sha224
  | sha256
  | sha384
  | sha512
  deriving DecidableEq, Repr

/-- `W`: the bytes of a state word. -/
def shaWordBytes : ShaAlg → Nat
  | .sha1 => 4
  | .sha224 => 4
  | .sha256 => 4
  | .sha384 => 8
  | .sha512 => 8

/-- The bits of a state word. -/
abbrev shaWordBits (alg : ShaAlg) : Nat := 8 * shaWordBytes alg

/-- `N`: the state words. -/
def shaWords : ShaAlg → Nat
  | .sha1 => 5
  | .sha224 => 8
  | .sha256 => 8
  | .sha384 => 8
  | .sha512 => 8

/-- `S = N * W`: the bytes of the context area. -/
def shaAreaBytes (alg : ShaAlg) : Nat := shaWords alg * shaWordBytes alg

/-- `B`: the bytes of a message block. -/
def shaBlockBytes : ShaAlg → Nat
  | .sha1 => 64
  | .sha224 => 64
  | .sha256 => 64
  | .sha384 => 128
  | .sha512 => 128

/-- `Dw`: the state words that make the digest. -/
def shaDigestWords : ShaAlg → Nat
  | .sha1 => 5
  | .sha224 => 7
  | .sha256 => 8
  | .sha384 => 6
  | .sha512 => 8

/-- `L`: the bytes of the length field of the padding. -/
def shaLengthBytes : ShaAlg → Nat
  | .sha1 => 8
  | .sha224 => 8
  | .sha256 => 8
  | .sha384 => 16
  | .sha512 => 16

/-! ## The functions of the standard -/

def chooseBits {w : Nat} (x y z : BitVec w) : BitVec w := (x &&& y) ^^^ (~~~x &&& z)

def majorityBits {w : Nat} (x y z : BitVec w) : BitVec w := (x &&& y) ^^^ (x &&& z) ^^^ (y &&& z)

def parityBits {w : Nat} (x y z : BitVec w) : BitVec w := x ^^^ y ^^^ z

def sumRot {w : Nat} (a b c : Nat) (x : BitVec w) : BitVec w := x.rotateRight a ^^^ x.rotateRight b ^^^ x.rotateRight c

def sumShift {w : Nat} (a b c : Nat) (x : BitVec w) : BitVec w := x.rotateRight a ^^^ x.rotateRight b ^^^ (x >>> c)

/-- The big-endian words of a message block. -/
def messageWords (w bytes : Nat) (block : List Byte) : List (BitVec w) :=
  (blocks bytes block).map fun b => BitVec.ofNat w (beNat b)

/-! ## SHA-1 -/

/-- The next `n` words of the message schedule after the words `rev` (latest first). -/
def sha1Schedule : Nat → List Word → List Word
  | 0, rev => rev.reverse
  | n + 1, rev =>
    sha1Schedule n ((rev.getD 2 0 ^^^ rev.getD 7 0 ^^^ rev.getD 13 0 ^^^ rev.getD 15 0).rotateLeft 1 :: rev)

/-- The function and the constant of round `t`. -/
def sha1Mix (t : Nat) (b c d : Word) : Word :=
  if t < 20 then chooseBits b c d + 0x5A827999
  else if t < 40 then parityBits b c d + 0x6ED9EBA1
  else if t < 60 then majorityBits b c d + 0x8F1BBCDC
  else parityBits b c d + 0xCA62C1D6

/-- The rounds from round `t` on, over the words of the schedule that are left. -/
def sha1Rounds : Nat → List Word → Word × Word × Word × Word × Word → Word × Word × Word × Word × Word
  | _, [], v => v
  | t, x :: xs, (a, b, c, d, e) =>
    sha1Rounds (t + 1) xs (a.rotateLeft 5 + sha1Mix t b c d + e + x, a, b.rotateLeft 30, c, d)

/-- `SHA1_Compress(H, M)`. -/
def sha1Compress (h : List Word) (block : List Byte) : List Word :=
  match h with
  | [a, b, c, d, e] =>
    let (a', b', c', d', e') := sha1Rounds 0 (sha1Schedule 64 (messageWords 32 4 block).reverse) (a, b, c, d, e)
    [a + a', b + b', c + c', d + d', e + e']
  | _ => h

/-! ## The SHA-2 family -/

/-- The eight working words. -/
structure Sha2Vars (w : Nat) where
  a : BitVec w
  b : BitVec w
  c : BitVec w
  d : BitVec w
  e : BitVec w
  f : BitVec w
  g : BitVec w
  h : BitVec w
  deriving DecidableEq, Repr

/-- The next `n` words of the message schedule after the words `rev` (latest first). -/
def sha2Schedule {w : Nat} (s0 s1 : BitVec w → BitVec w) : Nat → List (BitVec w) → List (BitVec w)
  | 0, rev => rev.reverse
  | n + 1, rev => sha2Schedule s0 s1 n ((s1 (rev.getD 1 0) + rev.getD 6 0 + s0 (rev.getD 14 0) + rev.getD 15 0) :: rev)

/-- The rounds, over the round constants and the schedule words that are left. -/
def sha2Rounds {w : Nat} (b0 b1 : BitVec w → BitVec w) : List (BitVec w) → List (BitVec w) → Sha2Vars w → Sha2Vars w
  | k :: ks, x :: xs, v =>
    let t1 := v.h + b1 v.e + chooseBits v.e v.f v.g + k + x
    let t2 := b0 v.a + majorityBits v.a v.b v.c
    sha2Rounds b0 b1 ks xs ⟨t1 + t2, v.a, v.b, v.c, v.d + t1, v.e, v.f, v.g⟩
  | _, _, v => v

/-- One application of a SHA-2 compression function, given its round constants, its four rotation functions, and the
words of the block. -/
def sha2Compress {w : Nat} (ks : List (BitVec w)) (b0 b1 s0 s1 : BitVec w → BitVec w) (h ms : List (BitVec w)) :
    List (BitVec w) :=
  match h with
  | [a, b, c, d, e, f, g, k] =>
    let v := sha2Rounds b0 b1 ks (sha2Schedule s0 s1 (ks.length - 16) ms.reverse) ⟨a, b, c, d, e, f, g, k⟩
    [a + v.a, b + v.b, c + v.c, d + v.d, e + v.e, f + v.f, g + v.g, k + v.h]
  | _ => h

/-- The first 64 bits of the fractional parts of the cube roots of the first 80 primes, four primes to a row, the first in the
highest bits. -/
def cubeRootRows : List (BitVec 256) := [
  0x428a2f98d728ae227137449123ef65cdb5c0fbcfec4d3b2fe9b5dba58189dbbc,
  0x3956c25bf348b53859f111f1b605d019923f82a4af194f9bab1c5ed5da6d8118,
  0xd807aa98a303024212835b0145706fbe243185be4ee4b28c550c7dc3d5ffb4e2,
  0x72be5d74f27b896f80deb1fe3b1696b19bdc06a725c71235c19bf174cf692694,
  0xe49b69c19ef14ad2efbe4786384f25e30fc19dc68b8cd5b5240ca1cc77ac9c65,
  0x2de92c6f592b02754a7484aa6ea6e4835cb0a9dcbd41fbd476f988da831153b5,
  0x983e5152ee66dfaba831c66d2db43210b00327c898fb213fbf597fc7beef0ee4,
  0xc6e00bf33da88fc2d5a79147930aa72506ca6351e003826f142929670a0e6e70,
  0x27b70a8546d22ffc2e1b21385c26c9264d2c6dfc5ac42aed53380d139d95b3df,
  0x650a73548baf63de766a0abb3c77b2a881c2c92e47edaee692722c851482353b,
  0xa2bfe8a14cf10364a81a664bbc423001c24b8b70d0f89791c76c51a30654be30,
  0xd192e819d6ef5218d69906245565a910f40e35855771202a106aa07032bbd1b8,
  0x19a4c116b8d2d0c81e376c085141ab532748774cdf8eeb9934b0bcb5e19b48a8,
  0x391c0cb3c5c95a634ed8aa4ae3418acb5b9cca4f7763e373682e6ff3d6b2b8a3,
  0x748f82ee5defb2fc78a5636f43172f6084c87814a1f0ab728cc702081a6439ec,
  0x90befffa23631e28a4506cebde82bde9bef9a3f7b2c67915c67178f2e372532b,
  0xca273eceea26619cd186b8c721c0c207eada7dd6cde0eb1ef57d4f7fee6ed178,
  0x06f067aa72176fba0a637dc5a2c898a6113f9804bef90dae1b710b35131c471b,
  0x28db77f523047d8432caab7b40c724933c9ebe0a15c9bebc431d67c49c100d4c,
  0x4cc5d4becb3e42b6597f299cfc657e2a5fcb6fab3ad6faec6c44198c4a475817]

/-- The four words of a row, the highest first. -/
def rowWords (r : BitVec 256) : List (BitVec 64) := [192, 128, 64, 0].map fun i => r.extractLsb' i 64

/-- The 80 round constants of SHA-512. -/
def sha512Constants : List (BitVec 64) := cubeRootRows.flatMap rowWords

/-- The 64 round constants of SHA-256: the first 32 bits for the first 64 primes. -/
def sha256Constants : List (BitVec 32) := (sha512Constants.take 64).map fun k => k.extractLsb' 32 32

/-- `SHA256_Compress(H, M)`. -/
def sha256Compress (h : List (BitVec 32)) (block : List Byte) : List (BitVec 32) :=
  sha2Compress sha256Constants (sumRot 2 13 22) (sumRot 6 11 25) (sumShift 7 18 3) (sumShift 17 19 10) h
    (messageWords 32 4 block)

/-- `SHA512_Compress(H, M)`. -/
def sha512Compress (h : List (BitVec 64)) (block : List Byte) : List (BitVec 64) :=
  sha2Compress sha512Constants (sumRot 28 34 39) (sumRot 14 18 41) (sumShift 1 8 7) (sumShift 19 61 6) h
    (messageWords 64 8 block)

/-- `Compress` of an algorithm (R232). -/
def shaCompress : (alg : ShaAlg) → List (BitVec (shaWordBits alg)) → List Byte → List (BitVec (shaWordBits alg))
  | .sha1, h, block => sha1Compress h block
  | .sha224, h, block => sha256Compress h block
  | .sha256, h, block => sha256Compress h block
  | .sha384, h, block => sha512Compress h block
  | .sha512, h, block => sha512Compress h block

/-! ## A message (R237, R238) -/

/-- `M ++ 0x80 ++ z ++ to_be(sha_len, L)`, `z` the fewest zero bytes that make whole blocks (R238). -/
def shaPad (alg : ShaAlg) (m : List Byte) (shaLen : Nat) : List Byte :=
  let b := shaBlockBytes alg
  let z := (b - (m.length + 1 + shaLengthBytes alg) % b) % b
  m ++ [0x80] ++ List.replicate z 0 ++ toBe shaLen (shaLengthBytes alg)

/-- The compression function over every whole block of a byte string, in order (R237). -/
def shaAbsorb (alg : ShaAlg) (h : List (BitVec (shaWordBits alg))) (m : List Byte) :
    List (BitVec (shaWordBits alg)) :=
  (blocks (shaBlockBytes alg) m).foldl (shaCompress alg) h

end Sys2Proof.Machine
end

