-- ==== Sys2Proof/Machine/Operands.lean ====
section
/-! DEFINITION. The operand forms: an operation reads a memory operand whole and writes it whole (spec/20_memory.md R67, R77), an
AES key and IV are reversed (spec/42_aes.md R214, R215, R220), a SHA state is a row of little-endian words
(spec/43_sha.md R235, R236, R241). -/

namespace Sys2Proof.Machine

/-- The `n` bytes of a memory operand (spec/20_memory.md R67). -/
def readOperand (s : State) (o : Operand) (n : Nat) : Except Stop (List Byte) :=
  memRead s o.space o.address.toNat n

/-- A byte string stored at a memory operand (spec/20_memory.md R67). -/
def writeOperand (s : State) (o : Operand) (v : List Byte) : Except Stop State :=
  memWrite s o.space o.address.toNat v

/-- The SB offset of a context area, the only scaled quantity (spec/30_encoding.md R110). -/
def contextOffset (contextId : BitVec 8) : Nat := contextId.toNat * Config.slotBytes

/-- The AES key handed to the cipher: the key bytes fully reversed (spec/42_aes.md R214). -/
def readAesKey (s : State) (o : Operand) (k : AesKey) : Except Stop (List Byte) := do
  let raw ← readOperand s o k.bytes
  .ok raw.reverse

/-- The AES IV: the first 16 bytes of the context slot, reversed (spec/42_aes.md R215). -/
def readIv (s : State) (contextId : BitVec 8) : Except Stop (List Byte) := do
  let raw ← memRead s .scratchBuffer (contextOffset contextId) 16
  .ok raw.reverse

/-- The new IV reversed and written back to the first bytes of the slot (spec/42_aes.md R220). -/
def writeIv (s : State) (contextId : BitVec 8) (iv : List Byte) : Except Stop State :=
  memWrite s .scratchBuffer (contextOffset contextId) iv.reverse

/-- `SHA_STATE_LAYOUT`: the offset of state word `i` in the context area (spec/00_scope.md R9, spec/43_sha.md R235). -/
def shaStateLayout (alg : ShaAlg) (i : Nat) : Nat := i * shaWordBytes alg

/-- State word `i` of a context area given as bytes, little-endian (spec/43_sha.md R236). -/
def shaWordOf (alg : ShaAlg) (area : List Byte) (i : Nat) : BitVec (shaWordBits alg) :=
  BitVec.ofNat _ (leNat ((area.drop (shaStateLayout alg i)).take (shaWordBytes alg)))

/-- The running hash state (spec/43_sha.md R236). -/
def readShaState (alg : ShaAlg) (s : State) (contextId : BitVec 8) : Except Stop (List (BitVec (shaWordBits alg))) := do
  let area ← memRead s .scratchBuffer (contextOffset contextId) (shaAreaBytes alg)
  .ok ((List.range (shaWords alg)).map (shaWordOf alg area))

/-- State words written from word `i` on, one after the other (spec/43_sha.md R241). -/
def writeShaWords (alg : ShaAlg) (contextId : BitVec 8) : Nat → List (BitVec (shaWordBits alg)) → State → Except Stop State
  | _, [], s => .ok s
  | i, h :: hs, s => do
    let s' ← memWrite s .scratchBuffer (contextOffset contextId + shaStateLayout alg i) (toLe h.toNat (shaWordBytes alg))
    writeShaWords alg contextId (i + 1) hs s'

end Sys2Proof.Machine
end

