-- ==== Sys2Proof/Machine/Aes.lean ====
section
/-! DEFINITION. The AES operations (spec/42_aes.md R210 to R224): AES.ECB, AES.CBC, AES.CFB, AES.OFB. -/

namespace Sys2Proof.Machine

/-! ## Chaining (R216 to R219, R224) -/

/-- One block of a mode with an IV: from the running IV and an input block, the output block and the new IV. -/
abbrev BlockStep := List Byte → List Byte → List Byte × List Byte

/-- The blocks of a message in order: the output blocks and the last IV. With no block the IV is unchanged. -/
def chainBlocks (f : BlockStep) : List Byte → List (List Byte) → List (List Byte) × List Byte
  | iv, [] => ([], iv)
  | iv, x :: xs => ((f iv x).1 :: (chainBlocks f (f iv x).2 xs).1, (chainBlocks f (f iv x).2 xs).2)

/-- ECB on one block (R216). -/
def ecbBlock (encrypt : Bool) (key block : List Byte) : List Byte :=
  if encrypt then aesEncrypt key block else aesDecrypt key block

/-- CBC on one block (R217): in both directions the new IV is the ciphertext block. -/
def cbcStep (encrypt : Bool) (key : List Byte) : BlockStep := fun iv x =>
  if encrypt then (aesEncrypt key (xorBytes x iv), aesEncrypt key (xorBytes x iv))
  else (xorBytes (aesDecrypt key x) iv, x)

/-- CFB on one block (R218): both directions use the forward cipher; the new IV is the ciphertext block. -/
def cfbStep (encrypt : Bool) (key : List Byte) : BlockStep := fun iv x =>
  if encrypt then (xorBytes x (aesEncrypt key iv), xorBytes x (aesEncrypt key iv))
  else (xorBytes x (aesEncrypt key iv), x)

/-- OFB on one block (R219): the `encrypt` bit has no effect; the new IV is the keystream block. -/
def ofbStep (key : List Byte) : BlockStep := fun iv x =>
  (xorBytes x (aesEncrypt key iv), aesEncrypt key iv)

/-! ## The handlers (R221) -/

/-- The mode without an IV (R216): reads the key and the input, writes the output. -/
def aesEcbHandler (encrypt : Bool) (k : AesKey) (d : GenDesc) (s : State) : Except Stop State := do
  let key ← readAesKey s d.key k
  let x ← readOperand s d.source d.length.toNat
  writeOperand s d.dest ((blocks 16 x).map (ecbBlock encrypt key)).flatten

/-- A mode with an IV (R221): reads the key, the input and the IV, then writes the output and the new IV. -/
def aesIvHandler (step : List Byte → BlockStep) (k : AesKey) (d : GenDesc) (s : State) : Except Stop State := do
  let key ← readAesKey s d.key k
  let x ← readOperand s d.source d.length.toNat
  let iv ← readIv s d.contextId
  let out := chainBlocks (step key) iv (blocks 16 x)
  let s' ← writeOperand s d.dest out.1.flatten
  writeIv s' d.contextId out.2

/-! ## The meanings -/

/-- AES.ECB (R216). -/
def execAesEcb (encrypt : Bool) (k : AesKey) (size : BitVec 7) (d : GenDesc) (s : State) :
    Host.Outcome State Fault Refusal :=
  runDescriptor d.flags (validateAes s.params false k size d) (aesEcbHandler encrypt k d) s

/-- AES.CBC (R217). -/
def execAesCbc (encrypt : Bool) (k : AesKey) (size : BitVec 7) (d : GenDesc) (s : State) :
    Host.Outcome State Fault Refusal :=
  runDescriptor d.flags (validateAes s.params true k size d) (aesIvHandler (cbcStep encrypt) k d) s

/-- AES.CFB (R218). -/
def execAesCfb (encrypt : Bool) (k : AesKey) (size : BitVec 7) (d : GenDesc) (s : State) :
    Host.Outcome State Fault Refusal :=
  runDescriptor d.flags (validateAes s.params true k size d) (aesIvHandler (cfbStep encrypt) k d) s

/-- AES.OFB (R219). -/
def execAesOfb (_encrypt : Bool) (k : AesKey) (size : BitVec 7) (d : GenDesc) (s : State) :
    Host.Outcome State Fault Refusal :=
  runDescriptor d.flags (validateAes s.params true k size d) (aesIvHandler ofbStep k d) s

end Sys2Proof.Machine
end

