-- ==== Sys2Proof/Machine/Passthrough.lean ====
section
/-! DEFINITION. The Passthrough operations (spec/45_passthrough.md R260 to R266): PT.COPY and PT.SWAP256. -/

namespace Sys2Proof.Machine

/-- Each 32-byte chunk with its bytes fully reversed, the chunks in their order (R264). -/
def swapChunks (x : List Byte) : List Byte := ((blocks 32 x).map List.reverse).flatten

/-- The handler (R263 to R265): the whole source is read, then the whole destination is written. -/
def ptHandler (f : List Byte → List Byte) (d : GenDesc) (s : State) : Except Stop State := do
  let x ← readOperand s d.source d.length.toNat
  writeOperand s d.dest (f x)

/-- PT.COPY (R263). -/
def execPtCopy (d : GenDesc) (s : State) : Host.Outcome State Fault Refusal :=
  runDescriptor d.flags (validatePt false d) (ptHandler id d) s

/-- PT.SWAP256 (R264). -/
def execPtSwap256 (d : GenDesc) (s : State) : Host.Outcome State Fault Refusal :=
  runDescriptor d.flags (validatePt true d) (ptHandler swapChunks d) s

end Sys2Proof.Machine
end

