-- ==== Sys2Proof/Machine/Rsa.lean ====
section
/-! DEFINITION. The RSA operation (spec/44_rsa.md R250 to R256). -/

namespace Sys2Proof.Machine

/-- Square and multiply over the bits of the exponent, least significant first; `fuel` bounds their number. -/
def modExpLoop (m : Nat) : Nat → Nat → Nat → Nat → Nat
  | 0, _, _, acc => acc
  | fuel + 1, b, e, acc =>
    if e = 0 then acc else modExpLoop m fuel (b * b % m) (e / 2) (if e % 2 = 1 then acc * b % m else acc)

/-- `ModExp(b, e, m)`: `b^e mod m` for `m > 0`, with `0^0 = 1` (spec/00_scope.md R11, spec/44_rsa.md R254, R255). -/
def modExp (b e m : Nat) : Nat := modExpLoop m (e.log2 + 1) (b % m) e (1 % m)

/-- The handler (R254, in the order of R256): the modulus and the base from `source`, the exponent from `key`; a zero
modulus is found after the reads and before the write (R255). -/
def rsaHandler (size : Nat) (d : GenDesc) (s : State) : Except Stop State := do
  let x ← readOperand s d.source (2 * size)
  let e ← readOperand s d.key size
  let n := leNat (x.take size)
  if n = 0 then .error (.violation .rsaZeroModulus)
  else writeOperand s d.dest (toLe (modExp (leNat (x.drop size)) (leNat e) n) size)

/-- RSA (R254). -/
def execRsa (size : BitVec 12) (d : GenDesc) (s : State) : Host.Outcome State Fault Refusal :=
  runDescriptor d.flags (validateRsa size d) (rsaHandler size.toNat d) s

end Sys2Proof.Machine
end

