-- ==== Sys2Proof/Machine/Sha.lean ====
section
/-! DEFINITION. The SHA operations (spec/43_sha.md R230 to R247): SHA.1, SHA.224, SHA.256, SHA.384, SHA.512. -/

namespace Sys2Proof.Machine

/-- The new state: absorb the input, padded when `eom` is set (R237, R238). -/
def shaResult (alg : ShaAlg) (eom : Bool) (shaLen : Nat) (h : List (BitVec (shaWordBits alg))) (m : List Byte) :
    List (BitVec (shaWordBits alg)) :=
  shaAbsorb alg h (if eom then shaPad alg m shaLen else m)

/-- How many state words are written back: the digest words when the message ends, else all (R241). -/
def shaWordsOut (alg : ShaAlg) (eom : Bool) : Nat := if eom then shaDigestWords alg else shaWords alg

/-- The handler, in the order of R239: read the context area, read the message, compute, write the area. -/
def shaHandler (alg : ShaAlg) (d : ShaDesc) (s : State) : Except Stop State := do
  let h ← readShaState alg s d.contextId
  let m ← readOperand s d.source d.length.toNat
  let h' := shaResult alg d.flags.eom d.shaLen.toNat h m
  writeShaWords alg d.contextId 0 (h'.take (shaWordsOut alg d.flags.eom)) s

/-- One SHA operation (R239): its checks, then its handler. -/
def runSha (alg : ShaAlg) (d : ShaDesc) (s : State) : Host.Outcome State Fault Refusal :=
  runDescriptor d.flags (validateSha (shaAreaBytes alg) (shaBlockBytes alg) d) (shaHandler alg d) s

/-- SHA.1 (R242). -/
def execSha1 (d : ShaDesc) (s : State) : Host.Outcome State Fault Refusal := runSha .sha1 d s

/-- SHA.224 (R243). -/
def execSha224 (d : ShaDesc) (s : State) : Host.Outcome State Fault Refusal := runSha .sha224 d s

/-- SHA.256 (R244). -/
def execSha256 (d : ShaDesc) (s : State) : Host.Outcome State Fault Refusal := runSha .sha256 d s

/-- SHA.384 (R245). -/
def execSha384 (d : ShaDesc) (s : State) : Host.Outcome State Fault Refusal := runSha .sha384 d s

/-- SHA.512 (R246). -/
def execSha512 (d : ShaDesc) (s : State) : Host.Outcome State Fault Refusal := runSha .sha512 d s

end Sys2Proof.Machine
end

