-- ==== Sys2Proof/Machine/Inflate.lean ====
section
/-! DEFINITION. `Inflate(s)` of spec/00_scope.md R11: the external function that the spec names as decoding the DEFLATE
format of RFC 1951 (spec/93_implementation_defined.md G9) and does not restate. Its content is PRESUMED, from that public
standard; which Huffman code sets are invalid is PRESUMED too (notes/assumptions/12.md). The errors are those of
spec/46_zlib.md R275: `none` stands for `error`.

The stream is read as bits, least significant bit of the first byte first. A state of decoding is the bits that are left and the
output so far, LATEST BYTE FIRST. -/

namespace Sys2Proof.Machine

/-! ## Bits -/

/-- The bits of a byte string, least significant bit of each byte first. -/
def bitsOfBytes : List Byte → List Bool
  | [] => []
  | b :: bs =>
    b.getLsbD 0 :: b.getLsbD 1 :: b.getLsbD 2 :: b.getLsbD 3 :: b.getLsbD 4 :: b.getLsbD 5 :: b.getLsbD 6 ::
      b.getLsbD 7 :: bitsOfBytes bs

/-- The next `n` bits as a number, first bit least significant, and the bits after them. -/
def takeBits : Nat → List Bool → Option (Nat × List Bool)
  | 0, bs => some (0, bs)
  | _ + 1, [] => none
  | n + 1, b :: bs =>
    match takeBits n bs with
    | none => none
    | some (v, rest) => some (b.toNat + 2 * v, rest)

/-! ## Huffman codes -/

/-- A canonical Huffman code: for each code length from 1 on, the symbols with that length in rising order. -/
abbrev HuffmanCode := List (List Nat)

/-- The symbols, counted from `i`, whose code length is `len`. -/
def symbolsOfLength (len : Nat) : Nat → List Nat → List Nat
  | _, [] => []
  | i, l :: ls => if l = len then i :: symbolsOfLength len (i + 1) ls else symbolsOfLength len (i + 1) ls

/-- The canonical code of a list of code lengths, one per symbol; length 0 means the symbol has no code. -/
def huffmanCode (lengths : List Nat) : HuffmanCode :=
  (List.range 15).map fun n => symbolsOfLength (n + 1) 0 lengths

/-- How many codes of the last length are left over when the code is laid out from `left` free codes; `none` when some length has more
symbols than free codes. -/
def codesLeft : Nat → HuffmanCode → Option Nat
  | left, [] => some left
  | left, syms :: rest => if 2 * left < syms.length then none else codesLeft (2 * left - syms.length) rest

/-- The code set uses every code exactly once. -/
def completeCode (c : HuffmanCode) : Bool := codesLeft 1 c == some 0

/-- The code set has at most the one code `0`, of one bit. -/
def singleCode (c : HuffmanCode) : Bool := (c.headD []).length ≤ 1 && (c.drop 1).all List.isEmpty

/-- A valid code set for literals and lengths or for distances. -/
def validCode (c : HuffmanCode) : Bool := completeCode c || singleCode c

/-- Reading one symbol: `code` is the code read so far, `first` the first code of its length. -/
def readSymbol : HuffmanCode → Nat → Nat → List Bool → Option (Nat × List Bool)
  | [], _, _, _ => none
  | _ :: _, _, _, [] => none
  | syms :: rest, code, first, b :: bs =>
    let c := 2 * code + b.toNat
    let f := 2 * first
    if c < f + syms.length then some (syms.getD (c - f) 0, bs)
    else readSymbol rest c (f + syms.length) bs

/-- The next symbol of a code. -/
def nextSymbol (c : HuffmanCode) (bs : List Bool) : Option (Nat × List Bool) := readSymbol c 0 0 bs

/-! ## Lengths and distances -/

/-- Base length and number of extra bits of the length symbols 257 .. 285. Symbol 284 with extra bits 31 gives the length 258, which
the standard, with 227 to 257 for that symbol, neither defines nor calls an error (PRESUMED, as the common zlib library decodes it,
notes/assumptions/12.md). -/
def lengthTable : List (Nat × Nat) := [
  (3, 0), (4, 0), (5, 0), (6, 0), (7, 0), (8, 0), (9, 0), (10, 0), (11, 1), (13, 1),
  (15, 1), (17, 1), (19, 2), (23, 2), (27, 2), (31, 2), (35, 3), (43, 3), (51, 3), (59, 3),
  (67, 4), (83, 4), (99, 4), (115, 4), (131, 5), (163, 5), (195, 5), (227, 5), (258, 0)]

/-- Base distance and number of extra bits of the distance symbols 0 .. 29. -/
def distanceTable : List (Nat × Nat) := [
  (1, 0), (2, 0), (3, 0), (4, 0), (5, 1), (7, 1), (9, 2), (13, 2), (17, 3), (25, 3),
  (33, 4), (49, 4), (65, 5), (97, 5), (129, 6), (193, 6), (257, 7), (385, 7), (513, 8), (769, 8),
  (1025, 9), (1537, 9), (2049, 10), (3073, 10), (4097, 11), (6145, 11), (8193, 12), (12289, 12),
  (16385, 13), (24577, 13)]

/-- The value of entry `i` of a table with its extra bits read; `none` past the table's end. -/
def readExtra (table : List (Nat × Nat)) (i : Nat) (bs : List Bool) : Option (Nat × List Bool) :=
  match table[i]? with
  | none => none
  | some (base, extra) =>
    match takeBits extra bs with
    | none => none
    | some (v, rest) => some (base + v, rest)

/-- `n` bytes copied one by one from `dist` bytes back. -/
def copyBack (dist : Nat) : Nat → List Byte → List Byte
  | 0, out => out
  | n + 1, out => copyBack dist n (out.getD (dist - 1) 0 :: out)

/-! ## Blocks -/

/-- The symbols of a compressed block up to its end-of-block symbol; `fuel` bounds the number of symbols. -/
def inflateSymbols (lits dists : HuffmanCode) : Nat → List Bool → List Byte → Option (List Bool × List Byte)
  | 0, _, _ => none
  | fuel + 1, bs, out =>
    match nextSymbol lits bs with
    | none => none
    | some (sym, bs₁) =>
      if sym < 256 then inflateSymbols lits dists fuel bs₁ (BitVec.ofNat 8 sym :: out)
      else if sym = 256 then some (bs₁, out)
      else
        match readExtra lengthTable (sym - 257) bs₁ with
        | none => none
        | some (len, bs₂) =>
          match nextSymbol dists bs₂ with
          | none => none
          | some (dsym, bs₃) =>
            match readExtra distanceTable dsym bs₃ with
            | none => none
            | some (dist, bs₄) =>
              if out.length < dist then none
              else inflateSymbols lits dists fuel bs₄ (copyBack dist len out)

/-- `n` whole bytes read from the bits and added to the output. -/
def readStored : Nat → List Bool → List Byte → Option (List Bool × List Byte)
  | 0, bs, out => some (bs, out)
  | n + 1, bs, out =>
    match takeBits 8 bs with
    | none => none
    | some (v, rest) => readStored n rest (BitVec.ofNat 8 v :: out)

/-- A stored block: the rest of the byte is skipped, then the length, its complement, and the bytes. -/
def inflateStored (bs : List Bool) (out : List Byte) : Option (List Bool × List Byte) :=
  match takeBits 16 (bs.drop (bs.length % 8)) with
  | none => none
  | some (len, bs₁) =>
    match takeBits 16 bs₁ with
    | none => none
    | some (nlen, bs₂) => if len + nlen = 65535 then readStored len bs₂ out else none

/-- The code lengths of the fixed literal and length code. -/
def fixedLitLengths : List Nat :=
  List.replicate 144 8 ++ List.replicate 112 9 ++ List.replicate 24 7 ++ List.replicate 8 8

/-- The code lengths of the fixed distance code. -/
def fixedDistLengths : List Nat := List.replicate 32 5

/-- The order in which a dynamic block gives the lengths of the code length code. -/
def codeLengthOrder : List Nat := [16, 17, 18, 0, 8, 7, 9, 6, 10, 5, 11, 4, 12, 3, 13, 2, 14, 1, 15]

/-- The lengths of the code length code as they stand: three bits each, for the symbols of `order` in turn. -/
def readCodeLengthCode : Nat → List Nat → List Bool → List Nat → Option (List Nat × List Bool)
  | 0, _, bs, acc => some (acc, bs)
  | _ + 1, [], _, _ => none
  | n + 1, sym :: order, bs, acc =>
    match takeBits 3 bs with
    | none => none
    | some (v, rest) => readCodeLengthCode n order rest (acc.set sym v)

/-- The code lengths of a dynamic block, `total` of them, `rev` those read so far (latest first); `fuel` bounds the number of
symbols. -/
def readCodeLengths (code : HuffmanCode) (total : Nat) : Nat → List Bool → List Nat → Option (List Nat × List Bool)
  | 0, bs, rev => if rev.length = total then some (rev.reverse, bs) else none
  | fuel + 1, bs, rev =>
    if rev.length = total then some (rev.reverse, bs)
    else
      match nextSymbol code bs with
      | none => none
      | some (sym, bs₁) =>
        let repeated (value bits base : Nat) : Option (List Nat × List Bool) :=
          match takeBits bits bs₁ with
          | none => none
          | some (v, bs₂) =>
            if rev.length + base + v ≤ total then
              readCodeLengths code total fuel bs₂ (List.replicate (base + v) value ++ rev)
            else none
        if sym < 16 then readCodeLengths code total fuel bs₁ (sym :: rev)
        else if sym = 16 then (match rev with
          | [] => none
          | l :: _ => repeated l 2 3)
        else if sym = 17 then repeated 0 3 3
        else repeated 0 7 11

/-- A block with dynamic codes: the two codes, then its symbols. -/
def inflateDynamic (fuel : Nat) (bs : List Bool) (out : List Byte) : Option (List Bool × List Byte) :=
  match takeBits 5 bs with
  | none => none
  | some (hlit, bs₁) =>
    match takeBits 5 bs₁ with
    | none => none
    | some (hdist, bs₂) =>
      match takeBits 4 bs₂ with
      | none => none
      | some (hclen, bs₃) =>
        let nlit := hlit + 257
        let ndist := hdist + 1
        if 286 < nlit then none
        else
          match readCodeLengthCode (hclen + 4) codeLengthOrder bs₃ (List.replicate 19 0) with
          | none => none
          | some (cl, bs₄) =>
            if !completeCode (huffmanCode cl) then none
            else
              match readCodeLengths (huffmanCode cl) (nlit + ndist) (nlit + ndist) bs₄ [] with
              | none => none
              | some (lengths, bs₅) =>
                let lits := huffmanCode (lengths.take nlit)
                let dists := huffmanCode (lengths.drop nlit)
                if lengths.getD 256 0 = 0 ∨ !validCode lits ∨ !validCode dists then none
                else inflateSymbols lits dists fuel bs₅ out

/-- The blocks of a stream up to the end of the final one; `fuel` bounds the number of blocks. -/
def inflateBlocks : Nat → List Bool → List Byte → Option (List Bool × List Byte)
  | 0, _, _ => none
  | fuel + 1, bs, out =>
    match takeBits 1 bs with
    | none => none
    | some (final, bs₁) =>
      match takeBits 2 bs₁ with
      | none => none
      | some (type, bs₂) =>
        let done :=
          if type = 0 then inflateStored bs₂ out
          else if type = 1 then
            inflateSymbols (huffmanCode fixedLitLengths) (huffmanCode fixedDistLengths) (bs₂.length + 1) bs₂ out
          else if type = 2 then inflateDynamic (bs₂.length + 1) bs₂ out
          else none
        match done with
        | none => none
        | some (bs₃, out') => if final = 1 then some (bs₃, out') else inflateBlocks fuel bs₃ out'

/-- `Inflate(s)`: the decompressed bytes and the number of input bytes used, or `none` when no prefix of `s` is a complete stream
(R11, spec/46_zlib.md R275). A symbol and a block each use at least one bit, which bounds their number. -/
def inflate (s : List Byte) : Option (List Byte × Nat) :=
  let bs := bitsOfBytes s
  match inflateBlocks (bs.length + 1) bs [] with
  | none => none
  | some (rest, out) => some (out.reverse, (bs.length - rest.length + 7) / 8)

end Sys2Proof.Machine
end

