-- ==== Sys2Proof/Machine/Zlib.lean ====
section
/-! DEFINITION. The Zlib-inflate operation (spec/46_zlib.md R270 to R277). -/

namespace Sys2Proof.Machine

/-- The handler (R273, R277): the whole input is read and decoded; a malformed stream is `Fatal` under both policies (R275); the destination's
range is checked with the whole output's length before the output is written, in one write (R274). -/
def zlibHandler (d : GenDesc) (s : State) : Except Stop State := do
  let x ← readOperand s d.source d.length.toNat
  match inflate x with
  | none => .error (.fatal .zlibDataError)
  | some (out, _) =>
    if overrunsSb d.dest out.length then .error (.violation .sbOperandRange)
    else writeOperand s d.dest out

/-- ZLIB (R273). -/
def execZlib (d : GenDesc) (s : State) : Host.Outcome State Fault Refusal :=
  runDescriptor d.flags (validateZlib d) (zlibHandler d) s

end Sys2Proof.Machine
end

