-- ==== Sys2Proof/Machine/Dispatch.lean ====
section
/-! DEFINITION. The dispatch (spec/40_queue_engine.md R146): one arm per operation, each one call of its meaning. -/

namespace Sys2Proof.Machine

def exec (i : Instr) (s : State) : Host.Outcome State Fault Refusal :=
  match i with
  | .aesEcb encrypt keyType size d => Sys2Proof.Machine.execAesEcb encrypt keyType size d s
  | .aesCbc encrypt keyType size d => Sys2Proof.Machine.execAesCbc encrypt keyType size d s
  | .aesCfb encrypt keyType size d => Sys2Proof.Machine.execAesCfb encrypt keyType size d s
  | .aesOfb encrypt keyType size d => Sys2Proof.Machine.execAesOfb encrypt keyType size d s
  | .sha1 d => Sys2Proof.Machine.execSha1 d s
  | .sha224 d => Sys2Proof.Machine.execSha224 d s
  | .sha256 d => Sys2Proof.Machine.execSha256 d s
  | .sha384 d => Sys2Proof.Machine.execSha384 d s
  | .sha512 d => Sys2Proof.Machine.execSha512 d s
  | .rsa size d => Sys2Proof.Machine.execRsa size d s
  | .ptCopy d => Sys2Proof.Machine.execPtCopy d s
  | .ptSwap256 d => Sys2Proof.Machine.execPtSwap256 d s
  | .zlib d => Sys2Proof.Machine.execZlib d s

end Sys2Proof.Machine
end

