-- ==== Sys2Proof/Machine/Drain.lean ====
section
/-! DEFINITION. One iteration of the drain pass (spec/40_queue_engine.md R142), and placing a descriptor where the next
iteration fetches. -/

namespace Sys2Proof.Machine

/-- Executing the descriptor at `head` (R145, R146): fetch, decode, dispatch. `soc` and `ioc` of a descriptor that fails to decode are
read from its word 0 (R142). -/
def executeNext (s : State) : Host.Outcome State Fault Refusal :=
  let d := fetchWords s (s.queue s.active)
  match decode s.params d with
  | .error c => .next (s.violate (fieldFlags d) c)
  | .ok i => exec i s

/-- One iteration of `drain(q)` for the active queue (R142): a Halted queue and an Idle queue end the pass; a broken
ring is `Fatal`; otherwise the next descriptor is executed. -/
def drainStep (s : State) : Host.Outcome State Fault Refusal :=
  let q := s.queue s.active
  if q.run = false then .next s.endPass
  else
    match checkSanity q with
    | some c => .next (s.raiseFatal c)
    | none => if ringIndex q q.head = ringIndex q q.tail then .next s.endPass else executeNext s

/-- The state with a descriptor at the head of the active queue's ring, the queue Running with exactly that one
descriptor pending, and its drain pass in progress. The ring is moved to the head's address rounded down to a multiple of 32. -/
def State.placeDescriptor (s : State) (bytes : List Byte) : State :=
  let q := s.queue s.active
  let at32 := q.head - q.head % 32
  let s₁ := s.setQueue s.active { q with run := true, base := at32, head := at32, tail := at32 + 32 }
  { s₁ with mem := cellsWriteBytes s.mem at32.toNat bytes, fatal := none, draining := true }

end Sys2Proof.Machine
end

