-- ==== Sys2Proof/Machine/Registers.lean ====
section
/-! DEFINITION. The register interface (spec/41_register_interface.md R170 to R197): which register an offset names, what a read
returns, what a write does. A write of `control`, `tail` or `head` makes its own state change and starts a drain pass
(spec/40_queue_engine.md R141). -/

namespace Sys2Proof.Machine

/-- The registers of the window (spec/10_state.md R39). -/
inductive RegName where
  | queueMask
  | queuePriority
  | requestId
  | trng
  | lsbMask
  | control (q : QueueId)
  | tail (q : QueueId)
  | head (q : QueueId)
  | interruptEnable (q : QueueId)
  | interruptStatus (q : QueueId)
  | status (q : QueueId)
  | intStatus (q : QueueId)
  | misc (offset : Nat)
  | scratch
  | unimplemented
  deriving DecidableEq, Repr

/-- `REG_WINDOW_SIZE` (spec/00_scope.md R9). -/
def regWindowSize (p : Params) : Nat := 0x6000 + p.miscBytes

/-- An access the spec gives a meaning: 32 bits wide, at a multiple of 4 inside the window (spec/20_memory.md R76). -/
def accessDefined (p : Params) (offset width : Nat) : Bool :=
  width == 32 && offset % 4 == 0 && (decide (offset < 0x6000) || decide (offset < regWindowSize p))

/-- The scratch register answers at its open offset, when no other rule names that offset (R194); every other such
offset is unimplemented (R195). -/
def unnamedRegister (p : Params) (offset : Nat) : RegName :=
  if offset = p.scratchRegOffset then .scratch else .unimplemented

/-- A global register, at an offset below 0x1000 (R172 to R176). -/
def globalRegister (p : Params) (offset : Nat) : RegName :=
  if offset = 0x0000 then .queueMask
  else if offset = 0x0004 then .queuePriority
  else if offset = 0x0008 then .requestId
  else if offset = 0x000C then .trng
  else if offset = 0x0018 ∨ offset = 0x001C ∨ offset = 0x0020 ∨ offset = 0x0024 then .lsbMask
  else unnamedRegister p offset

/-- A register of queue `q`, at an offset inside its 4 KiB page (R180 to R191); `offset` is the whole offset. -/
def queueRegister (p : Params) (q : QueueId) (offset : Nat) : RegName :=
  if offset % 0x1000 = 0x000 then .control q
  else if offset % 0x1000 = 0x004 then .tail q
  else if offset % 0x1000 = 0x008 then .head q
  else if offset % 0x1000 = 0x00C then .interruptEnable q
  else if offset % 0x1000 = 0x010 then .interruptStatus q
  else if offset % 0x1000 = 0x100 then .status q
  else if offset % 0x1000 = 0x104 then .intStatus q
  else unnamedRegister p offset

/-- The register an offset of the window names (R170, spec/10_state.md R39). -/
def registerAt (p : Params) (offset : Nat) : RegName :=
  if offset < 0x1000 then globalRegister p offset
  else if offset < 0x2000 then queueRegister p .q0 offset
  else if offset < 0x3000 then queueRegister p .q1 offset
  else if offset < 0x4000 then queueRegister p .q2 offset
  else if offset < 0x5000 then queueRegister p .q3 offset
  else if offset < 0x6000 then queueRegister p .q4 offset
  else .misc offset

/-- The control register's fields as one word: `run` in bit 0, `halt` in bit 1, `size_code` in bits 7:3 (R181). -/
def controlWord (q : Queue) : Word :=
  BitVec.ofNat 32 (q.run.toNat + 2 * q.halt.toNat + 8 * q.sizeCode.toNat)

/-- `RegRead(offset)`: the value the Host gets. -/
def readRegister (s : State) : RegName → Word
  | .queueMask => 0x1F
  | .queuePriority => s.queuePriority
  | .requestId => 0
  | .trng => 0
  | .lsbMask => s.params.lsbMaskConst
  | .control q => controlWord (s.queue q)
  | .tail q => (s.queue q).tail
  | .head q => (s.queue q).head
  | .interruptEnable q => (s.queue q).interruptEnable.setWidth 32
  | .interruptStatus q => (s.queue q).interruptStatus.setWidth 32
  | .status q => (s.queue q).status
  | .intStatus q => (s.queue q).intStatus
  | .misc offset => cellsRead s.misc offset
  | .scratch => s.scratch
  | .unimplemented => 0

/-- A drain pass of queue `q` starts (spec/40_queue_engine.md R141). -/
def State.startPass (s : State) (q : QueueId) : State := { s with active := q, draining := true }

/-- `RegWrite(offset, v)`: the register's own state change, up to the start of the drain pass where it starts one. -/
def writeRegister (s : State) (v : Word) : RegName → State
  | .queueMask => s
  | .queuePriority => { s with queuePriority := v }
  | .requestId => if v = 0 then s else s.raiseFatal .reqIdNonZero
  | .trng => s
  | .lsbMask => s
  | .control q =>
    (s.setQueue q { s.queue q with run := v.getLsbD 0, halt := v.getLsbD 1, sizeCode := v.extractLsb' 3 5 }).startPass q
  | .tail q => (s.setQueue q { s.queue q with tail := v }).startPass q
  | .head q => (s.setQueue q { s.queue q with head := v, base := v }).startPass q
  | .interruptEnable q => s.setQueue q { s.queue q with interruptEnable := v.extractLsb' 0 2 }
  | .interruptStatus q => s.acknowledge q (v.extractLsb' 0 2)
  | .status _ => s
  | .intStatus _ => s
  | .misc offset => { s with misc := cellsWrite s.misc offset v }
  | .scratch => { s with scratch := v }
  | .unimplemented => s

/-- A write that a model refuses: of the control register, with `size_code = 31` (spec/40_queue_engine.md R155, entry U7 of
spec/93_implementation_defined.md). -/
def refusedWrite (v : Word) : RegName → Bool
  | .control _ => v.extractLsb' 3 5 == 31
  | _ => false

/-- One action of the Host, `s` being the state with the action taken off the list. -/
def hostAction (op : HostOp) (s : State) : Host.Outcome State Fault Refusal :=
  match op with
  | .regRead offset width =>
    if accessDefined s.params offset width then
      .next { s with hostReply := some (.word (readRegister s (registerAt s.params offset))) }
    else .refused .registerAccessShape
  | .regWrite offset width v =>
    if accessDefined s.params offset width then
      if refusedWrite v (registerAt s.params offset) then .refused .ringSizeCode
      else .next (writeRegister s v (registerAt s.params offset))
    else .refused .registerAccessShape
  | .memRead address n =>
    if address + n ≤ 2 ^ 64 then .next { s with hostReply := some (.bytes (readBytes s .system address n)) }
    else .fault .noSuchAddress
  | .memWrite address bytes =>
    if address + bytes.length ≤ 2 ^ 64 then .next (writeBytes s .system address bytes)
    else .fault .noSuchAddress

/-- The Host's next action; with none pending nothing happens (spec/60_exceptions.md R305). -/
def hostStep (s : State) : Host.Outcome State Fault Refusal :=
  match s.host with
  | [] => .next s
  | op :: rest => hostAction op { s with host := rest }

end Sys2Proof.Machine
end

