-- ==== Sys2Proof/Machine/Step.lean ====
section
/-! DEFINITION. One step (spec/00_scope.md R10): a dead block takes none (spec/60_exceptions.md R281); while a drain pass
is in progress, one iteration of it; otherwise one action of the Host. -/

namespace Sys2Proof.Machine

def step (s : State) : Host.Outcome State Fault Refusal :=
  match s.fatal with
  | some c => .fault (.dead c)
  | none => if s.draining then drainStep s else hostStep s

/-- `s` with the descriptor whose bits are `w` (the bits from `nbits` on 0) where the next step fetches, and everything set that
makes the next step run it. -/
def State.withFetchWord (s : State) (nbits w : Nat) : State := s.placeDescriptor (tableBytes nbits w)

end Sys2Proof.Machine
end

