-- ==== Sys2Proof/Safety.lean ====
section
/-! DEFINITION. The terms in which statements about the machine are made: the invariant of the machine, a safe state, what a
descriptor leaves behind, and the bytes of the two stores after a write. -/

namespace Sys2Proof.Machine

/-- A state of a block that is not dead (spec/60_exceptions.md R281). -/
def safe (s : State) : Prop := s.fatal = none

/-- Guest memory and the SB store are in canonical form. -/
structure StoresWf (s : State) : Prop where
  mem : Memory.wf s.mem = true
  sb : cellsWf s.sb = true

/-- What holds at every step boundary. -/
structure Inv (s : State) : Prop where
  memWf : Memory.wf s.mem = true
  sbWf : cellsWf s.sb = true
  miscWf : cellsWf s.misc = true
  /-- the SB has 4096 bytes (spec/10_state.md R22) -/
  sbKeys : ∀ c ∈ s.sb, c.1 < Config.sbBytes
  /-- the misc words lie at the aligned offsets of the misc region (spec/10_state.md R35) -/
  miscKeys : ∀ c ∈ s.misc, 0x6000 ≤ c.1 ∧ c.1 < regWindowSize s.params ∧ c.1 % 4 = 0
  /-- the line is up exactly when some queue has a pending interrupt (spec/60_exceptions.md R290) -/
  irqLevel : s.irq = anyPending s.queues
  /-- no queue has the ring size that a model refuses (spec/40_queue_engine.md R155) -/
  ringSizes : ∀ q, (s.queue q).sizeCode ≠ 31
  /-- a dead block is in no drain pass (spec/60_exceptions.md R281) -/
  deadIdle : s.fatal ≠ none → s.draining = false
  /-- the head lies a whole number of descriptors past the base (spec/10_state.md R37) -/
  ringAligned : ∀ q, ((s.queue q).head - (s.queue q).base).toNat % 32 = 0

/-- Two space tags name the same store: System and Local are one memory (spec/20_memory.md R63). -/
def sameStore (a b : MemSpace) : Bool := (a == .scratchBuffer) == (b == .scratchBuffer)

/-- The bytes of all spaces after a byte string is stored from address `a` of space `sp` on, given the bytes before
(spec/20_memory.md R62 to R65). -/
def afterStore (sp : MemSpace) (a : Nat) (bs : List Byte) (old : MemSpace → Nat → Byte) : MemSpace → Nat → Byte :=
  fun sp' x => if sameStore sp sp' = true ∧ a ≤ x ∧ x < a + bs.length then bs.getD (x - a) 0 else old sp' x

/-- What a state holds after a descriptor with flags `f` ended with result `r`, apart from the bytes of the stores: every field of the
queue being drained, and everything else unchanged (spec/40_queue_engine.md R142, R147, R149; spec/60_exceptions.md R288;
spec/10_state.md R34). -/
structure Retired (s t : State) (f : Flags) (r : Result) : Prop where
  head : (t.queue s.active).head = nextHead (s.queue s.active)
  base : (t.queue s.active).base = (s.queue s.active).base
  tail : (t.queue s.active).tail = (s.queue s.active).tail
  sizeCode : (t.queue s.active).sizeCode = (s.queue s.active).sizeCode
  interruptEnable : (t.queue s.active).interruptEnable = (s.queue s.active).interruptEnable
  status : (t.queue s.active).status = if r = .ok then 0 else s.params.errStatusCode
  intStatus : (t.queue s.active).intStatus = if r = .ok then 1 else 2
  interruptStatus : (t.queue s.active).interruptStatus =
    if f.ioc then (s.queue s.active).interruptStatus ||| ((s.queue s.active).interruptEnable &&& eventBit r)
    else (s.queue s.active).interruptStatus
  run : (t.queue s.active).run = if f.soc then false else (s.queue s.active).run
  halt : (t.queue s.active).halt = if f.soc then true else (s.queue s.active).halt
  draining : t.draining = if f.soc then false else s.draining
  irq : t.irq = (s.irq || (f.ioc && decide ((s.queue s.active).interruptEnable &&& eventBit r ≠ 0)))
  others : ∀ q, q ≠ s.active → t.queue q = s.queue q
  queuePriority : t.queuePriority = s.queuePriority
  misc : t.misc = s.misc
  scratch : t.scratch = s.scratch
  fatal : t.fatal = s.fatal
  active : t.active = s.active
  host : t.host = s.host
  hostReply : t.hostReply = s.hostReply
  params : t.params = s.params

/-- The blocks of 16 bytes of an operand, counted from 0 (spec/42_aes.md R224: `X_(i+1)`). -/
def inputBlock (s : State) (o : Operand) (i : Nat) : List Byte := readBytes s o.space (o.address.toNat + 16 * i) 16

/-- `K`: the bytes of the key, reversed (spec/42_aes.md R214). -/
def standardKey (s : State) (o : Operand) (k : AesKey) : List Byte :=
  (readBytes s o.space o.address.toNat k.bytes).reverse

/-- `IV`: the first 16 bytes of a context slot, reversed (spec/42_aes.md R215). -/
def standardIv (s : State) (contextId : BitVec 8) : List Byte :=
  (readBytes s .scratchBuffer (contextOffset contextId) 16).reverse

/-- The `n` output blocks `Y_1 .. Y_n` one after the other (spec/42_aes.md R224). -/
def outputBlocks (n : Nat) (y : Nat → List Byte) : List Byte := ((List.range n).map fun i => y (i + 1)).flatten

/-- The state words of a context area (spec/43_sha.md R235, R236). -/
def contextWords (alg : ShaAlg) (s : State) (contextId : BitVec 8) : List (BitVec (shaWordBits alg)) :=
  (List.range (shaWords alg)).map fun i =>
    BitVec.ofNat _ (leNat (readBytes s .scratchBuffer (contextOffset contextId + i * shaWordBytes alg) (shaWordBytes alg)))

/-- State words as the bytes of a context area, each word little-endian, the first lowest (spec/43_sha.md R241). -/
def areaBytes (alg : ShaAlg) (hs : List (BitVec (shaWordBits alg))) : List Byte :=
  (hs.map fun h => toLe h.toNat (shaWordBytes alg)).flatten

/-- The next step executes the descriptor at the head of the active queue's ring: the queue is Running, its ring is sound and
not Idle (spec/40_queue_engine.md R142, R144). -/
structure Executing (s : State) : Prop where
  alive : s.fatal = none
  draining : s.draining = true
  running : (s.queue s.active).run = true
  sane : checkSanity (s.queue s.active) = none
  pending : ringIndex (s.queue s.active) (s.queue s.active).head ≠ ringIndex (s.queue s.active) (s.queue s.active).tail

/-- The outcome `violation(c)` of a descriptor with flags `f` (spec/60_exceptions.md R283): under `fatal` the cause is recorded and
nothing else changes; under `errorInterrupt` the descriptor ends with result `fail` and has written nothing. -/
def ViolationOutcome (s t : State) (f : Flags) (c : Cause) : Prop :=
  (s.params.violationPolicy = .fatal → t = { s with fatal := some c, draining := false }) ∧
  (s.params.violationPolicy = .errorInterrupt → Retired s t f .fail ∧ t.mem = s.mem ∧ t.sb = s.sb)

/-- `qb(q)`: the first offset of a queue's registers (spec/10_state.md R39). -/
def queueBase (q : QueueId) : Nat := 0x1000 + q.index * 0x1000

/-- Two byte ranges of memory spaces have no byte in common (spec/20_memory.md R63: System and Local are one memory). -/
def Apart (sp : MemSpace) (a n : Nat) (sp' : MemSpace) (a' n' : Nat) : Prop :=
  sameStore sp sp' = false ∨ a + n ≤ a' ∨ a' + n' ≤ a

/-- The Host's next action is a 32-bit register write of a block that is alive (spec/41_register_interface.md R170). -/
structure HostWrites (s : State) (offset : Nat) (v : Word) (rest : List HostOp) : Prop where
  alive : s.fatal = none
  idle : s.draining = false
  host : s.host = .regWrite offset 32 v :: rest

/-- The Host's next action is a 32-bit register read of a block that is alive (spec/41_register_interface.md R170). -/
structure HostReads (s : State) (offset : Nat) (rest : List HostOp) : Prop where
  alive : s.fatal = none
  idle : s.draining = false
  host : s.host = .regRead offset 32 :: rest

/-- An SB-tagged operand of `n` bytes reaches past the SB (spec/30_encoding.md R116). -/
abbrev pastSb (o : Operand) (n : Nat) : Prop := o.space = .scratchBuffer ∧ 0 < n ∧ 4096 < o.address.toNat + n

/-- An offset below the misc region that no register but the scratch register can have (spec/41_register_interface.md R194, R195). -/
abbrev unnamedOffset (o : Nat) : Prop :=
  (o = 0x0010 ∨ o = 0x0014 ∨ (0x0028 ≤ o ∧ o < 0x1000)) ∨
    (0x1000 ≤ o ∧ o < 0x6000 ∧ o % 0x1000 ∉ [0x000, 0x004, 0x008, 0x00C, 0x010, 0x100, 0x104])

/-- A program that never kills the block: no state it reaches is dead (spec/60_exceptions.md R281). -/
def SafeRun (s : State) : Prop := ∀ n t, Host.Core.run Sys2Proof.core n s = .next t → safe t

end Sys2Proof.Machine
end

