-- ==== Sys2Proof/Certificates/Slice0/Obligations.lean ====
section
/-! DEFINITION. The statements for the provers, in the order of OBLIGATIONS.json. -/

open Sys2Proof Sys2Proof.Machine

/-! ## Encoding -/

/-- Decoding gives back what was encoded, field by field and, for a well-formed instruction, through every check; and encoding
gives back the 32 bytes that were decoded.
An inference the spec marks as its own: spec/30_encoding.md R129. -/
def Obligations.EncodeDecodeRoundTrip : Prop :=
  (∀ i : Instr, decodeFields (wordsOfBytes (bytesOfWords (encode i))) = .ok i) ∧
  (∀ (p : Params) (i : Instr), i.wf p = true → decode p (wordsOfBytes (bytesOfWords (encode i))) = .ok i) ∧
  (∀ (bs : List Byte) (i : Instr), bs.length = 32 → decodeFields (wordsOfBytes bs) = .ok i → bytesOfWords (encode i) = bs)

/-- What the decoder accepts is well-formed, and what it rejects it rejects by the name of a descriptor-level violation. -/
def Obligations.DecodeIsSound : Prop :=
  ∀ (p : Params) (d : DescWords),
    (∀ i, decode p d = .ok i → i.wf p = true) ∧ (∀ c, decode p d = .error c → c.isViolation = true)

/-- The checks on the raw words, in their order; each branch is reached only when the ones before it are not. -/
def Obligations.DecodeNamesTheFirstFailedCheck : Prop :=
  ∀ (p : Params) (d : DescWords),
    let engine := d.dw0.extractLsb' 20 4
    if engine ≠ 0 ∧ engine ≠ 3 ∧ engine ≠ 4 ∧ engine ≠ 5 ∧ engine ≠ 6 then decode p d = .error .badEngine
    else if d.dw0.getLsbD 24 = true then decode p d = .error .protectedBit
    else if d.dw0.getLsbD 2 = true ∨ d.dw0.extractLsb' 25 7 ≠ 0 ∨ d.dw3.extractLsb' 26 5 ≠ 0 ∨ d.dw7.extractLsb' 18 14 ≠ 0 ∨
        (engine ≠ 3 ∧ d.dw5.extractLsb' 18 13 ≠ 0) then decode p d = .error .reservedBits
    else if d.dw3.getLsbD 31 = true ∨ (engine ≠ 3 ∧ d.dw5.getLsbD 31 = true) then decode p d = .error .fixedAddress
    else if d.dw3.extractLsb' 16 2 = 3 ∨ d.dw7.extractLsb' 16 2 = 3 ∨ (engine ≠ 3 ∧ d.dw5.extractLsb' 16 2 = 3) then
      decode p d = .error .badMemSpace
    else True

/-- Words written out from the spec's worked examples decode to the instructions they stand for. -/
def Obligations.WrittenOutWordsDecode : Prop :=
  let copy : GenDesc := ⟨⟨true, true, false, true⟩, 32, ⟨.system, 0x2000⟩, 0, ⟨.system, 0x3000⟩, ⟨.system, 0⟩⟩
  let swap : GenDesc := ⟨⟨false, false, false, true⟩, 32, ⟨.system, 0x2000⟩, 0, ⟨.scratchBuffer, 0x40⟩, ⟨.system, 0⟩⟩
  let rsa : GenDesc := ⟨⟨false, false, false, false⟩, 4, ⟨.system, 0x2000⟩, 0, ⟨.system, 0x3000⟩, ⟨.localMem, 0x4000⟩⟩
  let zlib : GenDesc := ⟨⟨true, false, true, true⟩, 10, ⟨.system, 0x2000⟩, 0, ⟨.system, 0x3000⟩, ⟨.system, 0⟩⟩
  ∀ p : Params,
    decode p ⟨0x00500013, 0x20, 0x2000, 0, 0x3000, 0, 0, 0⟩ = .ok (.ptCopy copy) ∧
    decode p ⟨0x00500050, 0x20, 0x2000, 0, 0x40, 0x00010000, 0, 0⟩ = .ok (.ptSwap256 swap) ∧
    decode p ⟨0x00400200, 4, 0x2000, 0, 0x3000, 0, 0x4000, 0x00020000⟩ = .ok (.rsa 2 rsa) ∧
    decode p ⟨0x00600019, 10, 0x2000, 0, 0x3000, 0, 0, 0⟩ = .ok (.zlib zlib)

/-- The checks of the AES and SHA operations on their `function` and their operands, in their order. -/
def Obligations.AesAndShaChecksInOrder : Prop :=
  (∀ (fn : BitVec 15) (d : GenDesc),
    let mode := (fn.extractLsb' 8 5).toNat
    let type := (fn.extractLsb' 13 2).toNat
    let size := fn.extractLsb' 0 7
    let encrypt := fn.getLsbD 7
    decodeAes fn d =
      if 4 ≤ mode then .error .aesBadMode
      else if type = 3 then .error .aesBadKeySize
      else
        let k : AesKey := if type = 0 then .k128 else if type = 1 then .k192 else .k256
        .ok (if mode = 0 then .aesEcb encrypt k size d else if mode = 1 then .aesCbc encrypt k size d
          else if mode = 2 then .aesOfb encrypt k size d else .aesCfb encrypt k size d)) ∧
  (∀ (fn : BitVec 15) (d : ShaDesc),
    let type := (fn.extractLsb' 10 4).toNat
    decodeSha fn d =
      if type = 0 ∨ 6 ≤ type then .error .shaBadType
      else if fn.extractLsb' 0 10 ≠ 0 ∨ fn.getLsbD 14 = true then .error .reservedBits
      else .ok (if type = 1 then .sha1 d else if type = 2 then .sha224 d else if type = 3 then .sha256 d
        else if type = 4 then .sha384 d else .sha512 d)) ∧
  (∀ (p : Params) (encrypt : Bool) (k : AesKey) (size : BitVec 7) (d : GenDesc),
    let n := d.length.toNat
    let sizeBad := p.aesSizeCheck = .mustBeZero ∧ size ≠ 0
    let operandBad := pastSb d.source n ∨ pastSb d.dest n ∨ pastSb d.key k.bytes
    validate p (.aesEcb encrypt k size d) =
      (if sizeBad then some .reservedBits else if n % 16 ≠ 0 then some .aesBadLength
       else if operandBad then some .sbOperandRange else none) ∧
    ∀ i ∈ [Instr.aesCbc encrypt k size d, .aesCfb encrypt k size d, .aesOfb encrypt k size d],
      validate p i =
        (if sizeBad then some .reservedBits else if n % 16 ≠ 0 then some .aesBadLength
         else if 4096 < d.contextId.toNat * 32 + 16 then some .contextRange
         else if operandBad then some .sbOperandRange else none)) ∧
  (∀ (p : Params) (d : ShaDesc),
    ∀ x ∈ [(Instr.sha1 d, 20, 64), (.sha224 d, 32, 64), (.sha256 d, 32, 64), (.sha384 d, 64, 128), (.sha512 d, 64, 128)],
      let n := d.length.toNat
      let total := d.shaLen.toNat / 8
      validate p x.1 =
        (if d.shaLen.toNat % 8 ≠ 0 then some .shaBadLength else if total < n then some .shaBadLength
         else if (total - n) % x.2.2 ≠ 0 then some .shaUnaligned
         else if d.flags.eom = false ∧ n % x.2.2 ≠ 0 then some .shaUnaligned
         else if 4096 < d.contextId.toNat * 32 + x.2.1 then some .contextRange
         else if pastSb d.source n then some .sbOperandRange else none))

/-- The checks of RSA, Passthrough and ZLIB on their `function`, flags and operands, in their order. -/
def Obligations.OtherChecksInOrder : Prop :=
  (∀ (p : Params) (size : BitVec 12) (d : GenDesc),
    validate p (.rsa size d) =
      if d.length.toNat ≠ 2 * size.toNat then some .rsaBadLength
      else if pastSb d.source (2 * size.toNat) ∨ pastSb d.key size.toNat ∨ pastSb d.dest size.toNat then
        some .sbOperandRange
      else none) ∧
  (∀ (fn : BitVec 15) (d : GenDesc),
    decodeRsa fn d = (if fn.extractLsb' 0 3 ≠ 0 then .error .reservedBits else .ok (.rsa (fn.extractLsb' 3 12) d)) ∧
    decodePt fn d =
      (if fn.extractLsb' 7 8 ≠ 0 then .error .reservedBits
       else if fn.extractLsb' 2 3 ≠ 0 then .error .ptBadBitwise
       else if fn.extractLsb' 5 2 ≠ 0 then .error .ptBadReflect
       else if fn.extractLsb' 0 2 = 0 then .ok (.ptCopy d)
       else if fn.extractLsb' 0 2 = 2 then .ok (.ptSwap256 d)
       else .error .ptBadByteswap) ∧
    decodeZlib fn d = (if fn ≠ 0 then .error .reservedBits else .ok (.zlib d))) ∧
  (∀ (p : Params) (d : GenDesc),
    let operandBad := pastSb d.source d.length.toNat ∨ pastSb d.dest d.length.toNat
    validate p (.ptCopy d) =
      (if d.flags.eom = false then some .ptNoEom else if operandBad then some .sbOperandRange else none) ∧
    validate p (.ptSwap256 d) =
      (if d.flags.eom = false then some .ptNoEom else if d.length.toNat % 32 ≠ 0 then some .ptBadLength
       else if operandBad then some .sbOperandRange else none) ∧
    validate p (.zlib d) =
      (if ¬ (d.flags.soc = true ∧ d.flags.init = true ∧ d.flags.eom = true ∧ d.flags.ioc = false) then some .zlibBadFlags
       else if pastSb d.source d.length.toNat then some .sbOperandRange else none))

/-! ## Memory -/

/-- The descriptor fetched from a ring: eight little-endian words of System memory at the head. -/
def Obligations.FetchReadsLittleEndianWords : Prop :=
  ∀ (s : State) (q : Queue),
    let b : Nat → Nat := fun i => (readByte s .system (q.head.toNat + i)).toNat
    let w : Nat → Nat := fun k => b (4 * k) + 256 * b (4 * k + 1) + 65536 * b (4 * k + 2) + 16777216 * b (4 * k + 3)
    (fetchWords s q).dw0.toNat = w 0 ∧ (fetchWords s q).dw1.toNat = w 1 ∧ (fetchWords s q).dw2.toNat = w 2 ∧
      (fetchWords s q).dw3.toNat = w 3 ∧ (fetchWords s q).dw4.toNat = w 4 ∧ (fetchWords s q).dw5.toNat = w 5 ∧
      (fetchWords s q).dw6.toNat = w 6 ∧ (fetchWords s q).dw7.toNat = w 7

/-- A read of the router gives the bytes of the range in address order, or is an internal error past the SB; Local reads as
System does. -/
def Obligations.RouterReadGivesTheBytes : Prop :=
  ∀ (s : State) (space : MemSpace) (a n : Nat),
    (space = .scratchBuffer ∧ 0 < n ∧ 4096 < a + n → memRead s space a n = .error (.fatal .sbOutOfRange)) ∧
    (¬ (space = .scratchBuffer ∧ 0 < n ∧ 4096 < a + n) →
      ∃ bs, memRead s space a n = .ok bs ∧ bs.length = n ∧ ∀ i, i < n → bs[i]? = some (readByte s space (a + i))) ∧
    memRead s .localMem a n = memRead s .system a n

/-- A write of the router changes exactly the bytes of the range and no other state, or is an internal error past the SB. -/
def Obligations.RouterWriteChangesExactlyTheRange : Prop :=
  ∀ (s : State) (space : MemSpace) (a : Nat) (v : List Byte), StoresWf s →
    (space = .scratchBuffer ∧ 0 < v.length ∧ 4096 < a + v.length →
      memWrite s space a v = .error (.fatal .sbOutOfRange)) ∧
    (¬ (space = .scratchBuffer ∧ 0 < v.length ∧ 4096 < a + v.length) →
      ∃ t, memWrite s space a v = .ok t ∧ t = { s with mem := t.mem, sb := t.sb } ∧ StoresWf t ∧
        ∀ sp x, readByte t sp x = afterStore space a v (readByte s) sp x)

/-! ## The Queue Engine -/

/-- The tests at the top of an iteration of a drain pass, in their order, and where none of them ends it the execution of the descriptor
at the head. A queue with `size_code = 31`, which no control write gives it, has the ring of spec/40_queue_engine.md R155
(notes/assumptions/7.md). -/
def Obligations.DrainPassTests : Prop :=
  ∀ s : State, s.fatal = none → s.draining = true →
    let q := s.queue s.active
    let size := 2 * 2 ^ q.sizeCode.toNat
    let raw : Word → Nat := fun p => (p - q.base).toNat / 32
    if q.run = false then step s = .next { s with draining := false }
    else if q.head.toNat % 32 ≠ 0 then step s = .next { s with fatal := some .ringMisaligned, draining := false }
    else if size < raw q.head then step s = .next { s with fatal := some .ringIndexRange, draining := false }
    else if q.tail.toNat % 32 ≠ 0 then step s = .next { s with fatal := some .ringMisaligned, draining := false }
    else if size < raw q.tail then step s = .next { s with fatal := some .ringIndexRange, draining := false }
    else if raw q.head % size = raw q.tail % size then step s = .next { s with draining := false }
    else Executing s ∧ step s = executeNext s

/-- A step runs the instruction that the bytes at the head decode to, and adds nothing to its meaning.
One iteration of a pass as one step is the model's
(DESIGN CHOICE, notes/assumptions/2.md). -/
def Obligations.StepRunsTheDecodedInstruction : Prop :=
  ∀ (s : State) (i : Instr), Executing s → decode s.params (fetchWords s (s.queue s.active)) = .ok i → step s = exec i s

/-- The head advance: to the next ring entry, wrapping at the ring size. A queue with `size_code = 31`, which no control write gives
it, has the ring of spec/40_queue_engine.md R155 (notes/assumptions/7.md). -/
def Obligations.HeadAdvanceWrapsAtTheRingSize : Prop :=
  ∀ q : Queue,
    let size := 2 * 2 ^ q.sizeCode.toNat
    let index : Word → Nat := fun p => (p - q.base).toNat / 32 % size
    (nextHead q).toNat = (q.base.toNat + (index q.head + 1) % size * 32) % 2 ^ 32 ∧
    (q.sizeCode.toNat ≤ 26 → index (nextHead q) = (index q.head + 1) % size)

/-- An executed descriptor that does not kill the block makes the number of pending descriptors one smaller.
An inference the spec marks as its own: spec/40_queue_engine.md R148. -/
def Obligations.EachDescriptorMovesTheHeadByOne : Prop :=
  ∀ s t : State, Executing s → (s.queue s.active).sizeCode.toNat ≤ 26 → step s = .next t → t.fatal = none →
    pendingCount (t.queue s.active) + 1 = pendingCount (s.queue s.active)

/-- A drain pass ends after at most as many descriptors as are pending, and the Host has not moved meanwhile.
An inference the spec marks as its own: spec/40_queue_engine.md R148. The sub-steps of a pass are the model's
(DESIGN CHOICE, notes/assumptions/2.md). A queue with `size_code = 31`, which no control write gives it, is covered too
(notes/assumptions/7.md). -/
def Obligations.DrainPassEnds : Prop :=
  ∀ s : State, s.fatal = none → s.draining = true →
    ∃ (n : Nat) (t : State), n ≤ pendingCount (s.queue s.active) + 1 ∧ Host.Core.run Sys2Proof.core n s = .next t ∧
      t.draining = false ∧ t.host = s.host

/-- What no step of a drain pass changes: the pointers and enables the Host owns, every other queue, every other register. -/
def Obligations.DrainPassFrame : Prop :=
  ∀ s t : State, s.draining = true → step s = .next t →
    (t.queue s.active).base = (s.queue s.active).base ∧ (t.queue s.active).tail = (s.queue s.active).tail ∧
    (t.queue s.active).sizeCode = (s.queue s.active).sizeCode ∧
    (t.queue s.active).interruptEnable = (s.queue s.active).interruptEnable ∧
    (∀ q, q ≠ s.active → t.queue q = s.queue q) ∧ t.queuePriority = s.queuePriority ∧ t.misc = s.misc ∧
    t.scratch = s.scratch ∧ t.active = s.active ∧ t.host = s.host ∧ t.hostReply = s.hostReply ∧ t.params = s.params

/-- Neither the queue that runs a descriptor nor any register decides what the descriptor does: its bytes in memory and in the SB, whether it
kills the block and with which cause, and otherwise its result as the status mirrors show it.
An inference the spec marks as its own: spec/40_queue_engine.md R150. -/
def Obligations.HandlerCannotSeeTheQueue : Prop :=
  ∀ (i : Instr) (s₁ s₂ t₁ t₂ : State), s₁.mem = s₂.mem → s₁.sb = s₂.sb → s₁.params = s₂.params → s₁.fatal = s₂.fatal →
    exec i s₁ = .next t₁ → exec i s₂ = .next t₂ →
    t₁.mem = t₂.mem ∧ t₁.sb = t₂.sb ∧ t₁.fatal = t₂.fatal ∧
      (t₁.fatal = none → (t₁.queue s₁.active).status = (t₂.queue s₂.active).status ∧
        (t₁.queue s₁.active).intStatus = (t₂.queue s₂.active).intStatus)

/-- A stopping descriptor halts its queue and ends the pass, whatever its result; another leaves both bits. -/
def Obligations.StopOnCompletionHalts : Prop :=
  ∀ (i : Instr) (s t : State), s.fatal = none → exec i s = .next t → t.fatal = none →
    if i.flags.soc = true then
      (t.queue s.active).run = false ∧ (t.queue s.active).halt = true ∧ t.draining = false
    else
      (t.queue s.active).run = (s.queue s.active).run ∧ (t.queue s.active).halt = (s.queue s.active).halt ∧
        t.draining = s.draining

/-! ## Exceptions -/

/-- A descriptor at the head that decodes to no instruction: `violation` of its cause, `soc` and `ioc` read from its word 0. -/
def Obligations.UndecodableDescriptorOutcome : Prop :=
  ∀ (s : State) (c : Cause), Executing s → decode s.params (fetchWords s (s.queue s.active)) = .error c →
    let w := (fetchWords s (s.queue s.active)).dw0
    ∃ t, step s = .next t ∧ ViolationOutcome s t ⟨w.getLsbD 0, w.getLsbD 1, w.getLsbD 3, w.getLsbD 4⟩ c

/-- An instruction that fails a check of its operands: `violation` of the cause, with no write made. -/
def Obligations.IllegalInstructionOutcome : Prop :=
  ∀ (i : Instr) (s : State) (c : Cause), validate s.params i = some c →
    ∃ t, exec i s = .next t ∧ ViolationOutcome s t i.flags c

/-- A dead block takes no step.
The fault `dead` is the model's form of "no further
step" (DESIGN CHOICE, notes/assumptions/8.md). -/
def Obligations.FatalIsTerminal : Prop :=
  ∀ (s : State) (c : Cause), s.fatal = some c → step s = .fault (.dead c)

/-- A step of a drain pass that kills the block records the cause and changes nothing else: no memory, no SB byte, no
register.
An inference the spec marks as its own: spec/60_exceptions.md R292. That `Fatal` is a next state
is the model's (DESIGN CHOICE, notes/assumptions/8.md). -/
def Obligations.FatalChangesNothingElse : Prop :=
  ∀ s t : State, s.draining = true → step s = .next t → t.fatal ≠ none →
    ∃ c, t = { s with fatal := some c, draining := false }

/-- The router's own error cannot occur.
An inference the spec marks as its own: spec/60_exceptions.md R285. -/
def Obligations.SbOutOfRangeCannotOccur : Prop :=
  ∀ s t : State, step s = .next t → t.fatal ≠ some .sbOutOfRange

/-- Under the error-interrupt policy no descriptor-level violation kills the block: of the causes that are always fatal
(spec/60_exceptions.md R282) the four that can occur are left. That the fifth, the router's own error, cannot occur is an inference the
spec marks as its own: R285. -/
def Obligations.FatalCausesUnderErrorInterrupt : Prop :=
  ∀ (s t : State) (c : Cause), s.params.violationPolicy = .errorInterrupt → step s = .next t → t.fatal = some c →
    c = .ringMisaligned ∨ c = .ringIndexRange ∨ c = .reqIdNonZero ∨ c = .zlibDataError

/-- Taking an event: with its enable bit set the pending bit and the line; with the bit clear nothing. -/
def Obligations.EventIsMaskedAtTheSource : Prop :=
  ∀ (s : State) (q : QueueId) (r : Result),
    let b := if r = .ok then 0 else 1
    ((s.queue q).interruptEnable.getLsbD b = true →
      s.signal q r =
        { s.setQueue q { s.queue q with interruptStatus := (s.queue q).interruptStatus ||| BitVec.twoPow 2 b } with
          irq := true }) ∧
    ((s.queue q).interruptEnable.getLsbD b = false → s.signal q r = s)

/-- The acknowledge: written ones clear pending bits, and the line falls exactly when no queue has one left. -/
def Obligations.AcknowledgeClearsWrittenOnes : Prop :=
  ∀ (s : State) (q : QueueId) (v : Word) (rest : List HostOp), HostWrites s (queueBase q + 0x010) v rest →
    ∃ t, step s = .next t ∧
      t.queue q = { s.queue q with interruptStatus := (s.queue q).interruptStatus &&& ~~~(v.extractLsb' 0 2) } ∧
      (∀ p, p ≠ q → t.queue p = s.queue p) ∧
      (t.irq = true ↔ s.irq = true ∧ ∃ p, (t.queue p).interruptStatus ≠ 0) ∧
      t = { s with queues := t.queues, irq := t.irq, host := rest }

/-- At every step boundary the line is asserted exactly when some queue has a pending interrupt: after reset, and after every
step from a state where it is so.
An inference the spec marks as its own: spec/60_exceptions.md R290. -/
def Obligations.IrqIsTheOrOfPendingBits : Prop :=
  (∀ (p : Params) (halt : Bool) (sb mem : List Host.Cell),
    let s := State.resetWith p halt sb mem
    s.irq = true ↔ ∃ q, (s.queue q).interruptStatus ≠ 0) ∧
  (∀ s t : State, (s.irq = true ↔ ∃ q, (s.queue q).interruptStatus ≠ 0) → step s = .next t →
    (t.irq = true ↔ ∃ q, (t.queue q).interruptStatus ≠ 0))

/-! ## The register interface -/

/-- No register read changes any state; the Host gets a value.
An inference the spec marks as its own: spec/41_register_interface.md R171. -/
def Obligations.RegisterReadChangesNothing : Prop :=
  ∀ (s : State) (offset : Nat) (rest : List HostOp), HostReads s offset rest → offset % 4 = 0 →
    offset < regWindowSize s.params →
    ∃ v, step s = .next { s with host := rest, hostReply := some (.word v) }

/-- What the global registers read as. -/
def Obligations.GlobalRegisterReads : Prop :=
  ∀ (s : State) (offset : Nat) (rest : List HostOp), HostReads s offset rest →
    (offset = 0x0000 → step s = .next { s with host := rest, hostReply := some (.word 0x1F) }) ∧
    (offset = 0x0004 → step s = .next { s with host := rest, hostReply := some (.word s.queuePriority) }) ∧
    (offset = 0x0008 → step s = .next { s with host := rest, hostReply := some (.word 0) }) ∧
    (offset = 0x000C → step s = .next { s with host := rest, hostReply := some (.word 0) }) ∧
    (offset ∈ [0x0018, 0x001C, 0x0020, 0x0024] →
      step s = .next { s with host := rest, hostReply := some (.word s.params.lsbMaskConst) })

/-- What the registers of a queue read as. -/
def Obligations.QueueRegisterReads : Prop :=
  ∀ (s : State) (q : QueueId) (offset : Nat) (rest : List HostOp), HostReads s (queueBase q + offset) rest →
    let r := s.queue q
    (offset = 0x000 → ∃ v : Word, step s = .next { s with host := rest, hostReply := some (.word v) } ∧ v.getLsbD 0 = r.run ∧
      v.getLsbD 1 = r.halt ∧ v.getLsbD 2 = false ∧ v.extractLsb' 3 5 = r.sizeCode ∧ v.extractLsb' 8 24 = 0) ∧
    (offset = 0x004 → step s = .next { s with host := rest, hostReply := some (.word r.tail) }) ∧
    (offset = 0x008 → step s = .next { s with host := rest, hostReply := some (.word r.head) }) ∧
    (offset = 0x00C → step s = .next { s with host := rest, hostReply := some (.word (r.interruptEnable.setWidth 32)) }) ∧
    (offset = 0x010 → step s = .next { s with host := rest, hostReply := some (.word (r.interruptStatus.setWidth 32)) }) ∧
    (offset = 0x100 → step s = .next { s with host := rest, hostReply := some (.word r.status) }) ∧
    (offset = 0x104 → step s = .next { s with host := rest, hostReply := some (.word r.intStatus) })

/-- The three writes that start a drain pass, each after its own state change; a control write with `size_code = 31` is refused.
That the write is a step of its own, which only marks the pass, is the model's (DESIGN CHOICE, notes/assumptions/2.md); the refusal is
notes/assumptions/7.md. -/
def Obligations.RingRegisterWritesStartAPass : Prop :=
  ∀ (s : State) (q : QueueId) (offset : Nat) (v : Word) (rest : List HostOp), HostWrites s (queueBase q + offset) v rest →
    let started : Queue → State := fun r =>
      { s.setQueue q r with host := rest, active := q, draining := true }
    (offset = 0x000 → v.extractLsb' 3 5 ≠ 31 → step s = .next (started
      { s.queue q with run := v.getLsbD 0, halt := v.getLsbD 1, sizeCode := v.extractLsb' 3 5 })) ∧
    (offset = 0x000 → v.extractLsb' 3 5 = 31 → step s = .refused .ringSizeCode) ∧
    (offset = 0x004 → step s = .next (started { s.queue q with tail := v })) ∧
    (offset = 0x008 → step s = .next (started { s.queue q with head := v, base := v }))

/-- A write of the interrupt enable register: its two bits, and nothing else. -/
def Obligations.InterruptEnableWrite : Prop :=
  ∀ (s : State) (q : QueueId) (v : Word) (rest : List HostOp), HostWrites s (queueBase q + 0x00C) v rest →
    step s = .next { s.setQueue q { s.queue q with interruptEnable := v.extractLsb' 0 2 } with host := rest }

/-- Writes of the registers that store nothing: nothing changes, but for a non-zero request-id, which is fatal. -/
def Obligations.WritesOfRegistersThatStoreNothing : Prop :=
  ∀ (s : State) (offset : Nat) (v : Word) (rest : List HostOp), HostWrites s offset v rest →
    ((offset ∈ [0x0000, 0x000C, 0x0018, 0x001C, 0x0020, 0x0024] ∨ (offset = 0x0008 ∧ v = 0) ∨
        ∃ q, offset = queueBase q + 0x100 ∨ offset = queueBase q + 0x104) →
      step s = .next { s with host := rest }) ∧
    (offset = 0x0008 ∧ v ≠ 0 →
      step s = .next { s with host := rest, fatal := some .reqIdNonZero, draining := false })

/-- The registers that only store: a word of the misc region, the queue priority and the scratch register read as they were last
written, and nothing else changes. Where the scratch register's open offset lies in the misc region it is a word of it. -/
def Obligations.PassThroughRegisters : Prop :=
  (∀ (s : State) (o o' : Nat) (v : Word) (rest : List HostOp), s.fatal = none → s.draining = false →
    cellsWf s.misc = true → s.host = .regWrite o 32 v :: .regRead o' 32 :: rest →
    o % 4 = 0 → 0x6000 ≤ o → o < regWindowSize s.params → o' % 4 = 0 → 0x6000 ≤ o' → o' < regWindowSize s.params →
    ∃ t, Host.Core.run Sys2Proof.core 2 s = .next t ∧
      t = { s with host := rest, misc := t.misc, hostReply := some (.word (if o' = o then v else cellsRead s.misc o')) } ∧
      ∀ x, cellsRead t.misc x = if x = o then v else cellsRead s.misc x) ∧
  (∀ (s : State) (v : Word) (rest : List HostOp), HostWrites s 0x0004 v rest →
    step s = .next { s with host := rest, queuePriority := v }) ∧
  (∀ (s : State) (rest : List HostOp), HostReads s 0x0004 rest →
    step s = .next { s with host := rest, hostReply := some (.word s.queuePriority) }) ∧
  (∀ (s : State) (v : Word) (rest : List HostOp),
    let o := s.params.scratchRegOffset
    o % 4 = 0 → unnamedOffset o →
    (HostWrites s o v rest → step s = .next { s with host := rest, scratch := v }) ∧
    (HostReads s o rest → step s = .next { s with host := rest, hostReply := some (.word s.scratch) }))

/-- An offset that names no register reads as 0 and ignores writes; neither is a fault. -/
def Obligations.UnimplementedOffsets : Prop :=
  ∀ (s : State) (offset : Nat) (rest : List HostOp), offset % 4 = 0 → offset ≠ s.params.scratchRegOffset →
    unnamedOffset offset →
    (HostReads s offset rest → step s = .next { s with host := rest, hostReply := some (.word 0) }) ∧
    (∀ v, HostWrites s offset v rest → step s = .next { s with host := rest })

/-- A register access of another width, misaligned, or past the register window has no meaning and is refused (past the window: DEDUCED,
notes/assumptions/9.md). -/
def Obligations.OtherAccessShapesAreRefused : Prop :=
  ∀ (s : State) (offset width : Nat) (v : Word) (rest : List HostOp), s.fatal = none → s.draining = false →
    (s.host = .regRead offset width :: rest ∨ s.host = .regWrite offset width v :: rest) →
    (width ≠ 32 ∨ offset % 4 ≠ 0 ∨ regWindowSize s.params ≤ offset) → step s = .refused .registerAccessShape

/-- The Host reaches no SB byte: its action changes none, and what it does and answers is the same whatever the SB holds. It marks a drain
pass only by a write of `control`, `tail` or `head`, of the queue that the write names.
An inference the spec marks as its own: spec/10_state.md R26. The Host's actions as steps are the model's (DESIGN CHOICE,
notes/assumptions/2.md). -/
def Obligations.HostCannotReachTheSb : Prop :=
  ∀ s t : State, s.draining = false → step s = .next t →
    t.sb = s.sb ∧ t.params = s.params ∧
    (∀ sb, step { s with sb := sb } = .next { t with sb := sb }) ∧
    (t.draining = true → ∃ offset ∈ [0x000, 0x004, 0x008], ∃ v rest,
      s.host = .regWrite (queueBase t.active + offset) 32 v :: rest) ∧
    (t.draining = false → t.active = s.active)

/-- A write of guest memory by the Host stores its bytes and changes nothing else; past the last address it faults. The Host's pending
actions and the fault are the model's (DESIGN CHOICE, notes/assumptions/2.md, 15.md). -/
def Obligations.HostWritesGuestMemory : Prop :=
  ∀ (s : State) (a : Nat) (bs : List Byte) (rest : List HostOp), StoresWf s → s.fatal = none → s.draining = false →
    s.host = .memWrite a bs :: rest →
    (a + bs.length ≤ 2 ^ 64 →
      ∃ t, step s = .next t ∧ t = { s with host := rest, mem := t.mem } ∧
        ∀ sp x, readByte t sp x = afterStore .system a bs (readByte s) sp x) ∧
    (2 ^ 64 < a + bs.length → step s = .fault .noSuchAddress)

/-! ## AES -/

/-- AES.ECB completes: block by block, `Y_i = AES_E(K, X_i)` or `AES_D(K, X_i)`, stored at the destination, nothing else
stored. -/
def Obligations.AesEcbCompletes : Prop :=
  ∀ (encrypt : Bool) (k : AesKey) (size : BitVec 7) (d : GenDesc) (s : State), StoresWf s →
    (Instr.aesEcb encrypt k size d).wf s.params = true →
    let n := d.length.toNat / 16
    let key := standardKey s d.key k
    let y : Nat → List Byte := fun i =>
      if encrypt = true then aesEncrypt key (inputBlock s d.source (i - 1)) else aesDecrypt key (inputBlock s d.source (i - 1))
    (outputBlocks n y).length = d.length.toNat ∧
    ∃ t, exec (.aesEcb encrypt k size d) s = .next t ∧ Retired s t d.flags .ok ∧
      ∀ sp x, readByte t sp x = afterStore d.dest.space d.dest.address.toNat (outputBlocks n y) (readByte s) sp x

/-- AES.CBC completes, in both directions: the output blocks at the destination, then the last ciphertext block as the new IV in the
context slot, nothing else stored. `x i` and `y i` are the spec's `X_i` and `Y_i`; block 0 of the chain is the IV. -/
def Obligations.AesCbcCompletes : Prop :=
  ∀ (encrypt : Bool) (k : AesKey) (size : BitVec 7) (d : GenDesc) (s : State), StoresWf s →
    (Instr.aesCbc encrypt k size d).wf s.params = true →
    let n := d.length.toNat / 16
    let key := standardKey s d.key k
    let iv := standardIv s d.contextId
    let x : Nat → List Byte := fun i => if i = 0 then iv else inputBlock s d.source (i - 1)
    ∃ (t : State) (y : Nat → List Byte) (iv' : List Byte),
      (if encrypt = true then
        y 0 = iv ∧ (∀ i, 1 ≤ i → i ≤ n → y i = aesEncrypt key (xorBytes (x i) (y (i - 1)))) ∧ iv' = y n
      else (∀ i, 1 ≤ i → i ≤ n → y i = xorBytes (aesDecrypt key (x i)) (x (i - 1))) ∧ iv' = x n) ∧
      (outputBlocks n y).length = d.length.toNat ∧ iv'.length = 16 ∧
      exec (.aesCbc encrypt k size d) s = .next t ∧ Retired s t d.flags .ok ∧
      ∀ sp a, readByte t sp a = afterStore .scratchBuffer (d.contextId.toNat * 32) iv'.reverse
        (afterStore d.dest.space d.dest.address.toNat (outputBlocks n y) (readByte s)) sp a

/-- AES.CFB completes, in both directions: the same with ciphertext feedback and the forward cipher alone. -/
def Obligations.AesCfbCompletes : Prop :=
  ∀ (encrypt : Bool) (k : AesKey) (size : BitVec 7) (d : GenDesc) (s : State), StoresWf s →
    (Instr.aesCfb encrypt k size d).wf s.params = true →
    let n := d.length.toNat / 16
    let key := standardKey s d.key k
    let iv := standardIv s d.contextId
    let x : Nat → List Byte := fun i => if i = 0 then iv else inputBlock s d.source (i - 1)
    ∃ (t : State) (y : Nat → List Byte) (iv' : List Byte),
      (if encrypt = true then
        y 0 = iv ∧ (∀ i, 1 ≤ i → i ≤ n → y i = xorBytes (x i) (aesEncrypt key (y (i - 1)))) ∧ iv' = y n
      else (∀ i, 1 ≤ i → i ≤ n → y i = xorBytes (x i) (aesEncrypt key (x (i - 1)))) ∧ iv' = x n) ∧
      (outputBlocks n y).length = d.length.toNat ∧ iv'.length = 16 ∧
      exec (.aesCfb encrypt k size d) s = .next t ∧ Retired s t d.flags .ok ∧
      ∀ sp a, readByte t sp a = afterStore .scratchBuffer (d.contextId.toNat * 32) iv'.reverse
        (afterStore d.dest.space d.dest.address.toNat (outputBlocks n y) (readByte s)) sp a

/-- AES.OFB completes: keystream feedback, whatever the `encrypt` bit. `o i` is the spec's `O_i`. -/
def Obligations.AesOfbCompletes : Prop :=
  ∀ (encrypt : Bool) (k : AesKey) (size : BitVec 7) (d : GenDesc) (s : State), StoresWf s →
    (Instr.aesOfb encrypt k size d).wf s.params = true →
    let n := d.length.toNat / 16
    let key := standardKey s d.key k
    ∃ (t : State) (o : Nat → List Byte),
      o 0 = standardIv s d.contextId ∧ (∀ i, i < n → o (i + 1) = aesEncrypt key (o i)) ∧ (o n).length = 16 ∧
      let y : Nat → List Byte := fun i => xorBytes (inputBlock s d.source (i - 1)) (o i)
      (outputBlocks n y).length = d.length.toNat ∧
      exec (.aesOfb encrypt k size d) s = .next t ∧ Retired s t d.flags .ok ∧
      ∀ sp a, readByte t sp a = afterStore .scratchBuffer (d.contextId.toNat * 32) (o n).reverse
        (afterStore d.dest.space d.dest.address.toNat (outputBlocks n y) (readByte s)) sp a

/-- The block cipher is undone by its inverse, for every key size. The content of the cipher is the model's
(PRESUMED, notes/assumptions/10.md). -/
def Obligations.AesDecryptUndoesEncrypt : Prop :=
  ∀ key block : List Byte, key.length = 16 ∨ key.length = 24 ∨ key.length = 32 → block.length = 16 →
    aesDecrypt key (aesEncrypt key block) = block

/-- Encrypting, putting the IV back, and decrypting gives the plaintext, in every mode, for every key size and with operands in every
space: the decrypting descriptor `e` takes the encrypting descriptor's destination as its source, with the same key, length and
context. The ciphertext must lie apart from the key and from the context slot, the recovered plaintext apart from the slot.
The content of the cipher is the model's (PRESUMED, notes/assumptions/10.md). -/
def Obligations.AesRoundTrip : Prop :=
  ∀ (k : AesKey) (size : BitVec 7) (d e : GenDesc) (s : State),
    ∀ mode ∈ [Instr.aesEcb, Instr.aesCbc, Instr.aesCfb, Instr.aesOfb],
      StoresWf s → (mode true k size d).wf s.params = true → (mode false k size e).wf s.params = true →
      e.length = d.length → e.contextId = d.contextId → e.key = d.key → e.source = d.dest →
      let n := d.length.toNat
      let slot := d.contextId.toNat * 32
      Apart d.dest.space d.dest.address.toNat n d.key.space d.key.address.toNat k.bytes →
      Apart d.dest.space d.dest.address.toNat n .scratchBuffer slot 16 →
      Apart e.dest.space e.dest.address.toNat n .scratchBuffer slot 16 →
      ∃ t u, exec (mode true k size d) s = .next t ∧
        exec (mode false k size e) (writeBytes t .scratchBuffer slot (readBytes s .scratchBuffer slot 16)) = .next u ∧
        readBytes u e.dest.space e.dest.address.toNat n = readBytes s d.source.space d.source.address.toNat n

/-! ## SHA -/

/-- The five SHA operations complete: the state words of the context area, absorbed with the message (padded when `eom` is
set), written back (the digest words when `eom` is set), nothing else stored. The form of the context area is DEDUCED
(notes/assumptions/18.md). -/
def Obligations.ShaCompletes : Prop :=
  ∀ (d : ShaDesc) (s : State), StoresWf s →
    ∀ x ∈ [(ShaAlg.sha1, Instr.sha1 d), (.sha224, .sha224 d), (.sha256, .sha256 d), (.sha384, .sha384 d),
        (.sha512, .sha512 d)],
      x.2.wf s.params = true →
      let alg := x.1
      let m := readBytes s d.source.space d.source.address.toNat d.length.toNat
      let message := if d.flags.eom = true then shaPad alg m d.shaLen.toNat else m
      let h := (blocks (shaBlockBytes alg) message).foldl (shaCompress alg) (contextWords alg s d.contextId)
      let out := areaBytes alg (h.take (if d.flags.eom = true then shaDigestWords alg else shaWords alg))
      out.length = (if d.flags.eom = true then shaDigestWords alg else shaWords alg) * shaWordBytes alg ∧
      ∃ t, exec x.2 s = .next t ∧ Retired s t d.flags .ok ∧
        ∀ sp a, readByte t sp a = afterStore .scratchBuffer (d.contextId.toNat * 32) out (readByte s) sp a

/-- The padding: `M`, the byte 0x80, the fewest zero bytes that make whole blocks, the length big-endian. -/
def Obligations.ShaPaddingIsShortest : Prop :=
  ∀ (alg : ShaAlg) (m : List Byte) (shaLen : Nat),
    ∃ z, shaPad alg m shaLen = m ++ [0x80] ++ List.replicate z 0 ++ toBe shaLen (shaLengthBytes alg) ∧
      (m.length + 1 + z + shaLengthBytes alg) % shaBlockBytes alg = 0 ∧
      ∀ z', (m.length + 1 + z' + shaLengthBytes alg) % shaBlockBytes alg = 0 → z ≤ z'

/-- Hashing a message in two descriptors, the first of whole blocks and without `eom`, leaves the digest words that one descriptor
over the whole message leaves, for all five algorithms and with the message in any space, apart from the context area.
An inference the spec marks as its own: spec/43_sha.md R240. -/
def Obligations.ShaChaining : Prop :=
  ∀ (d₁ d₂ d : ShaDesc) (s : State) (n₁ n₂ : Nat), StoresWf s →
    sameStore d₁.source.space d.source.space = true → sameStore d₂.source.space d.source.space = true →
    d₁.source.address = d.source.address → d₂.source.address.toNat = d.source.address.toNat + n₁ →
    d₁.length.toNat = n₁ → d₂.length.toNat = n₂ → d.length.toNat = n₁ + n₂ →
    d₁.shaLen.toNat = 8 * n₁ → d₂.shaLen.toNat = 8 * (n₁ + n₂) → d.shaLen.toNat = 8 * (n₁ + n₂) →
    d₁.flags.eom = false → d₂.flags.eom = true → d.flags.eom = true →
    d₁.contextId = d.contextId → d₂.contextId = d.contextId →
    ∀ x ∈ [(ShaAlg.sha1, Instr.sha1), (.sha224, .sha224), (.sha256, .sha256), (.sha384, .sha384), (.sha512, .sha512)],
      let ctx := d.contextId.toNat * 32
      n₁ % shaBlockBytes x.1 = 0 → (x.2 d).wf s.params = true →
      Apart d.source.space d.source.address.toNat (n₁ + n₂) .scratchBuffer ctx (shaAreaBytes x.1) →
      ∃ t₁ t₂ t, exec (x.2 d₁) s = .next t₁ ∧ exec (x.2 d₂) t₁ = .next t₂ ∧ exec (x.2 d) s = .next t ∧
        readBytes t₂ .scratchBuffer ctx (shaDigestWords x.1 * shaWordBytes x.1) =
          readBytes t .scratchBuffer ctx (shaDigestWords x.1 * shaWordBytes x.1)

/-! ## RSA -/

/-- RSA completes: `b^e mod n`, little-endian, at the destination, nothing else stored. -/
def Obligations.RsaCompletes : Prop :=
  ∀ (size : BitVec 12) (d : GenDesc) (s : State), StoresWf s → (Instr.rsa size d).wf s.params = true →
    let k := size.toNat
    let n := leNat (readBytes s d.source.space d.source.address.toNat k)
    let b := leNat (readBytes s d.source.space (d.source.address.toNat + k) k)
    let e := leNat (readBytes s d.key.space d.key.address.toNat k)
    n ≠ 0 →
    ∃ (t : State) (out : List Byte), exec (.rsa size d) s = .next t ∧ Retired s t d.flags .ok ∧ out.length = k ∧
      leNat out = b ^ e % n ∧
      ∀ sp x, readByte t sp x = afterStore d.dest.space d.dest.address.toNat out (readByte s) sp x

/-- RSA with a zero modulus, an empty one included, is a violation. -/
def Obligations.RsaZeroModulus : Prop :=
  ∀ (size : BitVec 12) (d : GenDesc) (s : State), (Instr.rsa size d).wf s.params = true →
    leNat (readBytes s d.source.space d.source.address.toNat size.toNat) = 0 →
    ∃ t, exec (.rsa size d) s = .next t ∧ ViolationOutcome s t d.flags .rsaZeroModulus

/-- Exponentiation with an RSA pair of exponents gives the message back. -/
def Obligations.RsaExponentsUndoEachOther : Prop :=
  ∀ p q e d m : Nat, p.Prime → q.Prime → p ≠ q → e * d % ((p - 1) * (q - 1)) = 1 % ((p - 1) * (q - 1)) → m < p * q →
    modExp (modExp m e (p * q)) d (p * q) = m

/-! ## Passthrough -/

/-- PT.COPY completes: byte `i` of the destination is byte `i` that the source held before, nothing else stored. -/
def Obligations.PtCopyCompletes : Prop :=
  ∀ (d : GenDesc) (s : State), StoresWf s → (Instr.ptCopy d).wf s.params = true →
    let out := (List.range d.length.toNat).map fun i => readByte s d.source.space (d.source.address.toNat + i)
    ∃ t, exec (.ptCopy d) s = .next t ∧ Retired s t d.flags .ok ∧
      ∀ sp x, readByte t sp x = afterStore d.dest.space d.dest.address.toNat out (readByte s) sp x

/-- PT.SWAP256 completes: byte `k` of chunk `j` of the output is byte `31 - k` of chunk `j` of the input, nothing else
stored. -/
def Obligations.PtSwap256Completes : Prop :=
  ∀ (d : GenDesc) (s : State), StoresWf s → (Instr.ptSwap256 d).wf s.params = true →
    let out := (List.range d.length.toNat).map fun i =>
      readByte s d.source.space (d.source.address.toNat + (32 * (i / 32) + (31 - i % 32)))
    ∃ t, exec (.ptSwap256 d) s = .next t ∧ Retired s t d.flags .ok ∧
      ∀ sp x, readByte t sp x = afterStore d.dest.space d.dest.address.toNat out (readByte s) sp x

/-- Two byteswaps one after the other restore the bytes.
An inference the spec marks as its own: spec/45_passthrough.md R266. -/
def Obligations.SwapTwiceRestores : Prop :=
  ∀ (d e : GenDesc) (s : State), StoresWf s → (Instr.ptSwap256 d).wf s.params = true →
    (Instr.ptSwap256 e).wf s.params = true → e.length = d.length → e.source = d.dest →
    ∃ t u, exec (.ptSwap256 d) s = .next t ∧ exec (.ptSwap256 e) t = .next u ∧
      readBytes u e.dest.space e.dest.address.toNat d.length.toNat =
        readBytes s d.source.space d.source.address.toNat d.length.toNat

/-! ## ZLIB -/

/-- ZLIB completes: exactly the decompressed bytes at the destination, nothing else stored, and the queue halted. -/
def Obligations.ZlibCompletes : Prop :=
  ∀ (d : GenDesc) (s : State) (out : List Byte) (used : Nat), StoresWf s → (Instr.zlib d).wf s.params = true →
    inflate (readBytes s d.source.space d.source.address.toNat d.length.toNat) = some (out, used) →
    ¬ pastSb d.dest out.length →
    ∃ t, exec (.zlib d) s = .next t ∧ Retired s t ⟨true, false, true, true⟩ .ok ∧
      ∀ sp x, readByte t sp x = afterStore d.dest.space d.dest.address.toNat out (readByte s) sp x

/-- Where ZLIB stops: a stream that does not decode is fatal under both policies, an output past the SB is a violation; neither writes
a byte. -/
def Obligations.ZlibStops : Prop :=
  ∀ (d : GenDesc) (s : State), (Instr.zlib d).wf s.params = true →
    let x := readBytes s d.source.space d.source.address.toNat d.length.toNat
    (inflate x = none → exec (.zlib d) s = .next { s with fatal := some .zlibDataError, draining := false }) ∧
    (∀ out used, inflate x = some (out, used) → pastSb d.dest out.length →
      ∃ t, exec (.zlib d) s = .next t ∧ ViolationOutcome s t d.flags .sbOperandRange)

/-- A final stored block decodes to its bytes, whatever follows it. The content of the decoder is the model's
(PRESUMED, notes/assumptions/12.md). -/
def Obligations.InflateStoredBlock : Prop :=
  ∀ data rest : List Byte, data.length < 65536 →
    inflate ([0x01] ++ toLe data.length 2 ++ toLe (65535 - data.length) 2 ++ data ++ rest) =
      some (data, 5 + data.length)

/-- Bytes after the end of a stream are ignored, and an input cut before that end is an error. The content of the
decoder is the model's (PRESUMED, notes/assumptions/12.md). -/
def Obligations.InflateStopsAtTheEndOfStream : Prop :=
  ∀ (xs out : List Byte) (used : Nat), inflate xs = some (out, used) →
    used ≤ xs.length ∧ (∀ ys, inflate (xs ++ ys) = some (out, used)) ∧ (∀ n, n < used → inflate (xs.take n) = none)

/-! ## The whole machine -/

/-- The machine after reset: no queue runs, every register reads as the spec says, the line is down, the block is alive.
The draw of `State.reset` is the model's (DESIGN CHOICE,
notes/assumptions/3.md, 5.md). -/
def Obligations.ResetState : Prop :=
  ∀ (p : Params) (halt : Bool) (sb mem : List Host.Cell),
    let s := State.resetWith p halt sb mem
    (∀ q, (s.queue q).run = false ∧ (s.queue q).sizeCode = 0 ∧ (s.queue q).base = 0 ∧ (s.queue q).head = 0 ∧
      (s.queue q).tail = 0 ∧ (s.queue q).interruptEnable = 0 ∧ (s.queue q).interruptStatus = 0 ∧
      (s.queue q).status = 0 ∧ (s.queue q).intStatus = 0) ∧
    s.queuePriority = 0 ∧ (∀ o, cellsRead s.misc o = 0) ∧ s.scratch = 0 ∧ s.irq = false ∧ s.fatal = none ∧
    State.reset = State.resetWith Params.hardware false [] []

/-- The invariant holds after reset, for every draw of what the spec leaves unspecified. Which of its clauses are the spec's inferences and
which the model's is said at `Obligations.InvariantIsKept`. -/
def Obligations.InvariantHoldsAfterReset : Prop :=
  ∀ (p : Params) (halt : Bool) (sb mem : List Host.Cell), cellsWf sb = true → (∀ c ∈ sb, c.1 < 4096) →
    Memory.wf mem = true → Inv (State.resetWith p halt sb mem)

/-- The invariant is kept by every step. Of its clauses, the heads a whole number of descriptors past their base and the line as the OR of the
pending bits are inferences the spec marks as its own (spec/10_state.md R37, spec/60_exceptions.md R290). The model's are the canonical
form of the stores (DESIGN CHOICE, notes/assumptions/5.md, 6.md), a dead block in no pass (DESIGN CHOICE, notes/assumptions/2.md, 8.md) and
no queue with `size_code = 31` (DEDUCED, notes/assumptions/7.md). -/
def Obligations.InvariantIsKept : Prop :=
  ∀ s t : State, Inv s → step s = .next t → Inv t

/-! ## Guest memory and the Host -/

/-- A read of guest memory by the Host gets the bytes of the range in address order and changes nothing else; past the last address it
faults. The Host's pending actions and the fault are the model's (DESIGN CHOICE, notes/assumptions/2.md, 15.md). -/
def Obligations.HostReadsGuestMemory : Prop :=
  ∀ (s : State) (a n : Nat) (rest : List HostOp), s.fatal = none → s.draining = false → s.host = .memRead a n :: rest →
    (a + n ≤ 2 ^ 64 →
      ∃ bs, step s = .next { s with host := rest, hostReply := some (.bytes bs) } ∧ bs.length = n ∧
        ∀ i, i < n → bs[i]? = some (readByte s .system (a + i))) ∧
    (2 ^ 64 < a + n → step s = .fault .noSuchAddress)
end

