-- ==== Sys2Proof/Laws/Cells.lean ====
section
/-! SUPPORT. The laws of the sparse stores: a read after a write, the canonical form kept by every write, and equal reads mean
equal stores. -/

namespace Sys2Proof.Machine

variable {n : Nat}

theorem cellsWfFrom_mono (m : List (Nat × BitVec n)) (lo lo' : Nat) (h : lo' ≤ lo) (hm : cellsWfFrom lo m = true) :
    cellsWfFrom lo' m = true := by
  cases m with
  | nil => rfl
  | cons c m =>
    simp only [cellsWfFrom, Bool.and_eq_true, decide_eq_true_eq] at hm ⊢
    exact ⟨⟨by omega, hm.1.2⟩, hm.2⟩

theorem cellsRead_below (m : List (Nat × BitVec n)) (lo a : Nat) (hm : cellsWfFrom lo m = true) (h : a < lo) :
    cellsRead m a = 0 := by
  cases m with
  | nil => rfl
  | cons c m =>
    simp only [cellsWfFrom, Bool.and_eq_true, decide_eq_true_eq] at hm
    simp only [cellsRead]
    rw [if_neg (by omega), if_pos (by omega)]

theorem cellsWfFrom_cellsWrite (m : List (Nat × BitVec n)) (lo a : Nat) (v : BitVec n) (hm : cellsWfFrom lo m = true)
    (h : lo ≤ a) : cellsWfFrom lo (cellsWrite m a v) = true := by
  induction m generalizing lo with
  | nil =>
    simp only [cellsWrite]
    split
    · rfl
    · next hv => simp only [cellsWfFrom, Bool.and_eq_true, decide_eq_true_eq]; exact ⟨⟨h, hv⟩, trivial⟩
  | cons c m ih =>
    obtain ⟨k, w⟩ := c
    simp only [cellsWfFrom, Bool.and_eq_true, decide_eq_true_eq] at hm
    obtain ⟨⟨hk, hw⟩, hm⟩ := hm
    simp only [cellsWrite]
    split
    · split
      · simp only [cellsWfFrom, Bool.and_eq_true, decide_eq_true_eq]; exact ⟨⟨hk, hw⟩, hm⟩
      · next hv =>
        simp only [cellsWfFrom, Bool.and_eq_true, decide_eq_true_eq]
        exact ⟨⟨h, hv⟩, ⟨by omega, hw⟩, hm⟩
    · split
      · subst_vars
        split
        · exact cellsWfFrom_mono _ _ _ (by omega) hm
        · next hv => simp only [cellsWfFrom, Bool.and_eq_true, decide_eq_true_eq]; exact ⟨⟨h, hv⟩, hm⟩
      · simp only [cellsWfFrom, Bool.and_eq_true, decide_eq_true_eq]
        exact ⟨⟨hk, hw⟩, ih _ hm (by omega)⟩

/-- A write keeps the canonical form. -/
theorem cellsWf_cellsWrite (m : List (Nat × BitVec n)) (a : Nat) (v : BitVec n) (hm : cellsWf m = true) :
    cellsWf (cellsWrite m a v) = true := cellsWfFrom_cellsWrite m 0 a v hm (Nat.zero_le _)

theorem cellsRead_cellsWrite_from (m : List (Nat × BitVec n)) (lo a b : Nat) (v : BitVec n)
    (hm : cellsWfFrom lo m = true) : cellsRead (cellsWrite m a v) b = if b = a then v else cellsRead m b := by
  induction m generalizing lo with
  | nil =>
    by_cases hv : v = 0
    · simp [cellsWrite, cellsRead, hv]
    · simp only [cellsWrite, if_neg hv, cellsRead]
      split <;> simp_all
  | cons c m ih =>
    obtain ⟨k, w⟩ := c
    simp only [cellsWfFrom, Bool.and_eq_true, decide_eq_true_eq] at hm
    have hlow := fun x => cellsRead_below m (k + 1) x hm.2
    simp only [cellsWrite]
    split
    · next hak =>
      split
      · next hv =>
        split
        · next hb => subst hb; simp only [cellsRead]; rw [if_neg (by omega), if_pos hak, hv]
        · rfl
      · rw [cellsRead]
        split
        · rfl
        · split
          · simp only [cellsRead]; rw [if_neg (by omega), if_pos (by omega)]
          · rfl
    · split
      · next hak =>
        subst hak
        split
        · next hv =>
          split
          · next hb => subst hb; rw [hlow _ (by omega), hv]
          · simp only [cellsRead]
            split
            · omega
            · split
              · exact hlow _ (by omega)
              · rfl
        · simp only [cellsRead]; split <;> rfl
      · simp only [cellsRead, ih _ hm.2]
        split
        · rw [if_neg (by omega)]
        · split
          · rw [if_neg (by omega)]
          · rfl

/-- A read after a write: the written value at the written key, and everything else as before. -/
theorem cellsRead_cellsWrite (m : List (Nat × BitVec n)) (a b : Nat) (v : BitVec n) (hm : cellsWf m = true) :
    cellsRead (cellsWrite m a v) b = if b = a then v else cellsRead m b := cellsRead_cellsWrite_from m 0 a b v hm

/-- A write lists no key but the one written. -/
theorem mem_cellsWrite (m : List (Nat × BitVec n)) (a : Nat) (v : BitVec n) (c : Nat × BitVec n)
    (h : c ∈ cellsWrite m a v) : c ∈ m ∨ c.1 = a := by
  induction m with
  | nil =>
    simp only [cellsWrite] at h
    split at h
    · exact .inl h
    · exact .inr (by rw [List.mem_singleton.1 h])
  | cons d m ih =>
    obtain ⟨k, w⟩ := d
    simp only [cellsWrite] at h
    have hcons : c ∈ (a, v) :: (k, w) :: m → c ∈ (k, w) :: m ∨ c.1 = a := fun h =>
      (List.mem_cons.1 h).elim (fun e => .inr (by rw [e])) .inl
    split at h
    · split at h
      · exact .inl h
      · exact hcons h
    · split at h
      · split at h
        · exact .inl (List.mem_cons_of_mem _ h)
        · exact hcons ((List.mem_cons.1 h).elim (fun e => e ▸ List.mem_cons_self)
            fun e => List.mem_cons_of_mem _ (List.mem_cons_of_mem _ e))
      · rcases List.mem_cons.1 h with e | e
        · exact .inl (e ▸ List.mem_cons_self)
        · exact (ih e).imp (List.mem_cons_of_mem _) id

/-- Stores in canonical form with equal reads are equal. -/
theorem cells_ext_from (m₁ m₂ : List (Nat × BitVec n)) (lo : Nat) (h₁ : cellsWfFrom lo m₁ = true)
    (h₂ : cellsWfFrom lo m₂ = true) (h : ∀ a, cellsRead m₁ a = cellsRead m₂ a) : m₁ = m₂ := by
  induction m₁ generalizing lo m₂ with
  | nil =>
    cases m₂ with
    | nil => rfl
    | cons c m =>
      simp only [cellsWfFrom, Bool.and_eq_true, decide_eq_true_eq] at h₂
      have := h c.1
      simp only [cellsRead, if_pos] at this
      exact absurd this.symm h₂.1.2
  | cons c m₁ ih =>
    obtain ⟨k, v⟩ := c
    simp only [cellsWfFrom, Bool.and_eq_true, decide_eq_true_eq] at h₁
    cases m₂ with
    | nil =>
      have := h k
      simp only [cellsRead, if_pos] at this
      exact absurd this h₁.1.2
    | cons c' m₂ =>
      obtain ⟨k', v'⟩ := c'
      simp only [cellsWfFrom, Bool.and_eq_true, decide_eq_true_eq] at h₂
      have hk : k = k' := by
        have e := h k
        have e' := h k'
        simp only [cellsRead, if_pos] at e e'
        rcases Nat.lt_trichotomy k k' with hlt | heq | hgt
        · rw [if_neg (by omega), if_pos hlt] at e; exact absurd e h₁.1.2
        · exact heq
        · rw [if_neg (by omega), if_pos hgt] at e'; exact absurd e'.symm h₂.1.2
      subst hk
      have hv : v = v' := by have := h k; simpa only [cellsRead, if_pos] using this
      subst hv
      congr 1
      refine ih m₂ _ h₁.2 h₂.2 fun a => ?_
      have := h a
      simp only [cellsRead] at this
      by_cases ha : a < k + 1
      · rw [cellsRead_below _ _ _ h₁.2 ha, cellsRead_below _ _ _ h₂.2 ha]
      · rwa [if_neg (by omega), if_neg (by omega), if_neg (by omega), if_neg (by omega)] at this

theorem cells_ext (m₁ m₂ : List (Nat × BitVec n)) (h₁ : cellsWf m₁ = true) (h₂ : cellsWf m₂ = true)
    (h : ∀ a, cellsRead m₁ a = cellsRead m₂ a) : m₁ = m₂ := cells_ext_from m₁ m₂ 0 h₁ h₂ h

/-! ## Byte strings -/

theorem cellsWf_cellsWriteBytes (m : List Host.Cell) (a : Nat) (bs : List Byte) (hm : cellsWf m = true) :
    cellsWf (cellsWriteBytes m a bs) = true := by
  induction bs generalizing m a with
  | nil => exact hm
  | cons b bs ih => exact ih _ _ (cellsWf_cellsWrite m a b hm)

/-- A read after a byte string is stored. -/
theorem cellsRead_cellsWriteBytes (m : List Host.Cell) (a x : Nat) (bs : List Byte) (hm : cellsWf m = true) :
    cellsRead (cellsWriteBytes m a bs) x = if a ≤ x ∧ x < a + bs.length then bs.getD (x - a) 0 else cellsRead m x := by
  induction bs generalizing m a with
  | nil => simp only [cellsWriteBytes, List.length_nil]; rw [if_neg (by omega)]
  | cons b bs ih =>
    simp only [cellsWriteBytes, List.length_cons]
    rw [ih _ _ (cellsWf_cellsWrite m a b hm), cellsRead_cellsWrite _ _ _ _ hm]
    rcases Nat.lt_trichotomy x a with hx | hx | hx
    · rw [if_neg (by omega), if_neg (by omega), if_neg (by omega)]
    · subst hx
      rw [if_neg (by omega), if_pos rfl, if_pos (by omega), Nat.sub_self]; rfl
    · by_cases hx' : x < a + 1 + bs.length
      · rw [if_pos (by omega), if_pos (by omega), show x - a = (x - (a + 1)) + 1 by omega, List.getD_cons_succ]
      · rw [if_neg (by omega), if_neg (by omega), if_neg (by omega)]

/-- Every key a stored byte string lists was listed before or is one of its own. -/
theorem mem_cellsWriteBytes (m : List Host.Cell) (a : Nat) (bs : List Byte) (c : Host.Cell)
    (h : c ∈ cellsWriteBytes m a bs) : c ∈ m ∨ (a ≤ c.1 ∧ c.1 < a + bs.length) := by
  induction bs generalizing m a with
  | nil => exact .inl h
  | cons b bs ih =>
    simp only [List.length_cons]
    rcases ih _ _ h with h' | h'
    · rcases mem_cellsWrite _ _ _ _ h' with h'' | h''
      · exact .inl h''
      · exact .inr (by omega)
    · exact .inr (by omega)

@[simp] theorem cellsReadBytes_length (m : List Host.Cell) (a k : Nat) : (cellsReadBytes m a k).length = k := by
  induction k generalizing a with
  | zero => rfl
  | succ k ih => simp [cellsReadBytes, ih]

theorem cellsReadBytes_getD (m : List Host.Cell) (a k i : Nat) (h : i < k) :
    (cellsReadBytes m a k).getD i 0 = cellsRead m (a + i) := by
  induction k generalizing a i with
  | zero => omega
  | succ k ih =>
    cases i with
    | zero => rfl
    | succ i =>
      simp only [cellsReadBytes, List.getD_cons_succ]
      rw [ih _ _ (by omega)]; congr 1; omega

/-- Bytes read are decided by the bytes of the range. -/
theorem cellsReadBytes_congr (m₁ m₂ : List Host.Cell) (a k : Nat)
    (h : ∀ x, a ≤ x → x < a + k → cellsRead m₁ x = cellsRead m₂ x) : cellsReadBytes m₁ a k = cellsReadBytes m₂ a k := by
  induction k generalizing a with
  | zero => rfl
  | succ k ih =>
    simp only [cellsReadBytes]
    rw [h a (by omega) (by omega), ih (a + 1) fun x h₁ h₂ => h x (by omega) (by omega)]

theorem cellsReadBytes_append (m : List Host.Cell) (a j k : Nat) :
    cellsReadBytes m a (j + k) = cellsReadBytes m a j ++ cellsReadBytes m (a + j) k := by
  induction j generalizing a with
  | zero => simp [cellsReadBytes]
  | succ j ih =>
    rw [show j + 1 + k = (j + k) + 1 by omega]
    simp only [cellsReadBytes, List.cons_append, ih]
    rw [show a + 1 + j = a + (j + 1) by omega]

/-- Reading back a byte string just stored. -/
theorem cellsReadBytes_cellsWriteBytes (m : List Host.Cell) (a : Nat) (bs : List Byte) (hm : cellsWf m = true) :
    cellsReadBytes (cellsWriteBytes m a bs) a bs.length = bs := by
  apply List.ext_getElem
  · simp
  · intro i h₁ h₂
    have := cellsReadBytes_getD (cellsWriteBytes m a bs) a bs.length i h₂
    rw [cellsRead_cellsWriteBytes _ _ _ _ hm, if_pos (by omega), Nat.add_sub_cancel_left] at this
    simpa [List.getD_eq_getElem?_getD, h₁, h₂] using this

end Sys2Proof.Machine
end

