-- ==== Sys2Proof/Laws/State.lean ====
section
/-! SUPPORT. What every update of the state leaves in every field: one lemma per field per update, so that no proof unfolds a
record update. -/

namespace Sys2Proof.Machine

/-! ## The queue records -/

@[simp] theorem Queues.get_set_same (qs : Queues) (q : QueueId) (v : Queue) : (qs.set q v).get q = v := by
  cases q <;> rfl

theorem Queues.get_set_other (qs : Queues) (q p : QueueId) (v : Queue) (h : p ≠ q) : (qs.set q v).get p = qs.get p := by
  cases q <;> cases p <;> first | rfl | exact absurd rfl h

theorem State.queue_def (s : State) (q : QueueId) : s.queue q = s.queues.get q := rfl

@[simp] theorem State.setQueue_queue_same (s : State) (q : QueueId) (v : Queue) : (s.setQueue q v).queue q = v :=
  Queues.get_set_same _ _ _

theorem State.setQueue_queue_other (s : State) (q p : QueueId) (v : Queue) (h : p ≠ q) :
    (s.setQueue q v).queue p = s.queue p := Queues.get_set_other _ _ _ _ h

/-! ## One lemma per field per update -/

@[simp] theorem State.setQueue_queuePriority (s : State) (q : QueueId) (v : Queue) : (s.setQueue q v).queuePriority = s.queuePriority := rfl
@[simp] theorem State.setQueue_misc (s : State) (q : QueueId) (v : Queue) : (s.setQueue q v).misc = s.misc := rfl
@[simp] theorem State.setQueue_scratch (s : State) (q : QueueId) (v : Queue) : (s.setQueue q v).scratch = s.scratch := rfl
@[simp] theorem State.setQueue_sb (s : State) (q : QueueId) (v : Queue) : (s.setQueue q v).sb = s.sb := rfl
@[simp] theorem State.setQueue_irq (s : State) (q : QueueId) (v : Queue) : (s.setQueue q v).irq = s.irq := rfl
@[simp] theorem State.setQueue_fatal (s : State) (q : QueueId) (v : Queue) : (s.setQueue q v).fatal = s.fatal := rfl
@[simp] theorem State.setQueue_mem (s : State) (q : QueueId) (v : Queue) : (s.setQueue q v).mem = s.mem := rfl
@[simp] theorem State.setQueue_active (s : State) (q : QueueId) (v : Queue) : (s.setQueue q v).active = s.active := rfl
@[simp] theorem State.setQueue_draining (s : State) (q : QueueId) (v : Queue) : (s.setQueue q v).draining = s.draining := rfl
@[simp] theorem State.setQueue_host (s : State) (q : QueueId) (v : Queue) : (s.setQueue q v).host = s.host := rfl
@[simp] theorem State.setQueue_hostReply (s : State) (q : QueueId) (v : Queue) : (s.setQueue q v).hostReply = s.hostReply := rfl
@[simp] theorem State.setQueue_params (s : State) (q : QueueId) (v : Queue) : (s.setQueue q v).params = s.params := rfl

@[simp] theorem State.advanceHead_queuePriority (s : State) (q : QueueId) : (s.advanceHead q).queuePriority = s.queuePriority := rfl
@[simp] theorem State.advanceHead_misc (s : State) (q : QueueId) : (s.advanceHead q).misc = s.misc := rfl
@[simp] theorem State.advanceHead_scratch (s : State) (q : QueueId) : (s.advanceHead q).scratch = s.scratch := rfl
@[simp] theorem State.advanceHead_sb (s : State) (q : QueueId) : (s.advanceHead q).sb = s.sb := rfl
@[simp] theorem State.advanceHead_irq (s : State) (q : QueueId) : (s.advanceHead q).irq = s.irq := rfl
@[simp] theorem State.advanceHead_fatal (s : State) (q : QueueId) : (s.advanceHead q).fatal = s.fatal := rfl
@[simp] theorem State.advanceHead_mem (s : State) (q : QueueId) : (s.advanceHead q).mem = s.mem := rfl
@[simp] theorem State.advanceHead_active (s : State) (q : QueueId) : (s.advanceHead q).active = s.active := rfl
@[simp] theorem State.advanceHead_draining (s : State) (q : QueueId) : (s.advanceHead q).draining = s.draining := rfl
@[simp] theorem State.advanceHead_host (s : State) (q : QueueId) : (s.advanceHead q).host = s.host := rfl
@[simp] theorem State.advanceHead_hostReply (s : State) (q : QueueId) : (s.advanceHead q).hostReply = s.hostReply := rfl
@[simp] theorem State.advanceHead_params (s : State) (q : QueueId) : (s.advanceHead q).params = s.params := rfl

@[simp] theorem State.mirror_queuePriority (s : State) (q : QueueId) (r : Result) : (s.mirror q r).queuePriority = s.queuePriority := rfl
@[simp] theorem State.mirror_misc (s : State) (q : QueueId) (r : Result) : (s.mirror q r).misc = s.misc := rfl
@[simp] theorem State.mirror_scratch (s : State) (q : QueueId) (r : Result) : (s.mirror q r).scratch = s.scratch := rfl
@[simp] theorem State.mirror_sb (s : State) (q : QueueId) (r : Result) : (s.mirror q r).sb = s.sb := rfl
@[simp] theorem State.mirror_irq (s : State) (q : QueueId) (r : Result) : (s.mirror q r).irq = s.irq := rfl
@[simp] theorem State.mirror_fatal (s : State) (q : QueueId) (r : Result) : (s.mirror q r).fatal = s.fatal := rfl
@[simp] theorem State.mirror_mem (s : State) (q : QueueId) (r : Result) : (s.mirror q r).mem = s.mem := rfl
@[simp] theorem State.mirror_active (s : State) (q : QueueId) (r : Result) : (s.mirror q r).active = s.active := rfl
@[simp] theorem State.mirror_draining (s : State) (q : QueueId) (r : Result) : (s.mirror q r).draining = s.draining := rfl
@[simp] theorem State.mirror_host (s : State) (q : QueueId) (r : Result) : (s.mirror q r).host = s.host := rfl
@[simp] theorem State.mirror_hostReply (s : State) (q : QueueId) (r : Result) : (s.mirror q r).hostReply = s.hostReply := rfl
@[simp] theorem State.mirror_params (s : State) (q : QueueId) (r : Result) : (s.mirror q r).params = s.params := rfl

@[simp] theorem State.stopQueue_queuePriority (s : State) (q : QueueId) : (s.stopQueue q).queuePriority = s.queuePriority := rfl
@[simp] theorem State.stopQueue_misc (s : State) (q : QueueId) : (s.stopQueue q).misc = s.misc := rfl
@[simp] theorem State.stopQueue_scratch (s : State) (q : QueueId) : (s.stopQueue q).scratch = s.scratch := rfl
@[simp] theorem State.stopQueue_sb (s : State) (q : QueueId) : (s.stopQueue q).sb = s.sb := rfl
@[simp] theorem State.stopQueue_irq (s : State) (q : QueueId) : (s.stopQueue q).irq = s.irq := rfl
@[simp] theorem State.stopQueue_fatal (s : State) (q : QueueId) : (s.stopQueue q).fatal = s.fatal := rfl
@[simp] theorem State.stopQueue_mem (s : State) (q : QueueId) : (s.stopQueue q).mem = s.mem := rfl
@[simp] theorem State.stopQueue_active (s : State) (q : QueueId) : (s.stopQueue q).active = s.active := rfl
@[simp] theorem State.stopQueue_draining (s : State) (q : QueueId) : (s.stopQueue q).draining = false := rfl
@[simp] theorem State.stopQueue_host (s : State) (q : QueueId) : (s.stopQueue q).host = s.host := rfl
@[simp] theorem State.stopQueue_hostReply (s : State) (q : QueueId) : (s.stopQueue q).hostReply = s.hostReply := rfl
@[simp] theorem State.stopQueue_params (s : State) (q : QueueId) : (s.stopQueue q).params = s.params := rfl

@[simp] theorem State.endPass_queues (s : State) : (s.endPass).queues = s.queues := rfl
@[simp] theorem State.endPass_queuePriority (s : State) : (s.endPass).queuePriority = s.queuePriority := rfl
@[simp] theorem State.endPass_misc (s : State) : (s.endPass).misc = s.misc := rfl
@[simp] theorem State.endPass_scratch (s : State) : (s.endPass).scratch = s.scratch := rfl
@[simp] theorem State.endPass_sb (s : State) : (s.endPass).sb = s.sb := rfl
@[simp] theorem State.endPass_irq (s : State) : (s.endPass).irq = s.irq := rfl
@[simp] theorem State.endPass_fatal (s : State) : (s.endPass).fatal = s.fatal := rfl
@[simp] theorem State.endPass_mem (s : State) : (s.endPass).mem = s.mem := rfl
@[simp] theorem State.endPass_active (s : State) : (s.endPass).active = s.active := rfl
@[simp] theorem State.endPass_draining (s : State) : (s.endPass).draining = false := rfl
@[simp] theorem State.endPass_host (s : State) : (s.endPass).host = s.host := rfl
@[simp] theorem State.endPass_hostReply (s : State) : (s.endPass).hostReply = s.hostReply := rfl
@[simp] theorem State.endPass_params (s : State) : (s.endPass).params = s.params := rfl

@[simp] theorem State.raiseFatal_queues (s : State) (c : Cause) : (s.raiseFatal c).queues = s.queues := rfl
@[simp] theorem State.raiseFatal_queuePriority (s : State) (c : Cause) : (s.raiseFatal c).queuePriority = s.queuePriority := rfl
@[simp] theorem State.raiseFatal_misc (s : State) (c : Cause) : (s.raiseFatal c).misc = s.misc := rfl
@[simp] theorem State.raiseFatal_scratch (s : State) (c : Cause) : (s.raiseFatal c).scratch = s.scratch := rfl
@[simp] theorem State.raiseFatal_sb (s : State) (c : Cause) : (s.raiseFatal c).sb = s.sb := rfl
@[simp] theorem State.raiseFatal_irq (s : State) (c : Cause) : (s.raiseFatal c).irq = s.irq := rfl
@[simp] theorem State.raiseFatal_fatal (s : State) (c : Cause) : (s.raiseFatal c).fatal = some c := rfl
@[simp] theorem State.raiseFatal_mem (s : State) (c : Cause) : (s.raiseFatal c).mem = s.mem := rfl
@[simp] theorem State.raiseFatal_active (s : State) (c : Cause) : (s.raiseFatal c).active = s.active := rfl
@[simp] theorem State.raiseFatal_draining (s : State) (c : Cause) : (s.raiseFatal c).draining = false := rfl
@[simp] theorem State.raiseFatal_host (s : State) (c : Cause) : (s.raiseFatal c).host = s.host := rfl
@[simp] theorem State.raiseFatal_hostReply (s : State) (c : Cause) : (s.raiseFatal c).hostReply = s.hostReply := rfl
@[simp] theorem State.raiseFatal_params (s : State) (c : Cause) : (s.raiseFatal c).params = s.params := rfl

@[simp] theorem State.startPass_queues (s : State) (q : QueueId) : (s.startPass q).queues = s.queues := rfl
@[simp] theorem State.startPass_queuePriority (s : State) (q : QueueId) : (s.startPass q).queuePriority = s.queuePriority := rfl
@[simp] theorem State.startPass_misc (s : State) (q : QueueId) : (s.startPass q).misc = s.misc := rfl
@[simp] theorem State.startPass_scratch (s : State) (q : QueueId) : (s.startPass q).scratch = s.scratch := rfl
@[simp] theorem State.startPass_sb (s : State) (q : QueueId) : (s.startPass q).sb = s.sb := rfl
@[simp] theorem State.startPass_irq (s : State) (q : QueueId) : (s.startPass q).irq = s.irq := rfl
@[simp] theorem State.startPass_fatal (s : State) (q : QueueId) : (s.startPass q).fatal = s.fatal := rfl
@[simp] theorem State.startPass_mem (s : State) (q : QueueId) : (s.startPass q).mem = s.mem := rfl
@[simp] theorem State.startPass_active (s : State) (q : QueueId) : (s.startPass q).active = q := rfl
@[simp] theorem State.startPass_draining (s : State) (q : QueueId) : (s.startPass q).draining = true := rfl
@[simp] theorem State.startPass_host (s : State) (q : QueueId) : (s.startPass q).host = s.host := rfl
@[simp] theorem State.startPass_hostReply (s : State) (q : QueueId) : (s.startPass q).hostReply = s.hostReply := rfl
@[simp] theorem State.startPass_params (s : State) (q : QueueId) : (s.startPass q).params = s.params := rfl

@[simp] theorem State.signal_queuePriority (s : State) (q : QueueId) (r : Result) : (s.signal q r).queuePriority = s.queuePriority := by
  simp only [State.signal]; split <;> rfl
@[simp] theorem State.signal_misc (s : State) (q : QueueId) (r : Result) : (s.signal q r).misc = s.misc := by
  simp only [State.signal]; split <;> rfl
@[simp] theorem State.signal_scratch (s : State) (q : QueueId) (r : Result) : (s.signal q r).scratch = s.scratch := by
  simp only [State.signal]; split <;> rfl
@[simp] theorem State.signal_sb (s : State) (q : QueueId) (r : Result) : (s.signal q r).sb = s.sb := by
  simp only [State.signal]; split <;> rfl
@[simp] theorem State.signal_fatal (s : State) (q : QueueId) (r : Result) : (s.signal q r).fatal = s.fatal := by
  simp only [State.signal]; split <;> rfl
@[simp] theorem State.signal_mem (s : State) (q : QueueId) (r : Result) : (s.signal q r).mem = s.mem := by
  simp only [State.signal]; split <;> rfl
@[simp] theorem State.signal_active (s : State) (q : QueueId) (r : Result) : (s.signal q r).active = s.active := by
  simp only [State.signal]; split <;> rfl
@[simp] theorem State.signal_draining (s : State) (q : QueueId) (r : Result) : (s.signal q r).draining = s.draining := by
  simp only [State.signal]; split <;> rfl
@[simp] theorem State.signal_host (s : State) (q : QueueId) (r : Result) : (s.signal q r).host = s.host := by
  simp only [State.signal]; split <;> rfl
@[simp] theorem State.signal_hostReply (s : State) (q : QueueId) (r : Result) : (s.signal q r).hostReply = s.hostReply := by
  simp only [State.signal]; split <;> rfl
@[simp] theorem State.signal_params (s : State) (q : QueueId) (r : Result) : (s.signal q r).params = s.params := by
  simp only [State.signal]; split <;> rfl

@[simp] theorem State.acknowledge_queuePriority (s : State) (q : QueueId) (v : BitVec 2) : (s.acknowledge q v).queuePriority = s.queuePriority := by
  simp only [State.acknowledge]; split <;> rfl
@[simp] theorem State.acknowledge_misc (s : State) (q : QueueId) (v : BitVec 2) : (s.acknowledge q v).misc = s.misc := by
  simp only [State.acknowledge]; split <;> rfl
@[simp] theorem State.acknowledge_scratch (s : State) (q : QueueId) (v : BitVec 2) : (s.acknowledge q v).scratch = s.scratch := by
  simp only [State.acknowledge]; split <;> rfl
@[simp] theorem State.acknowledge_sb (s : State) (q : QueueId) (v : BitVec 2) : (s.acknowledge q v).sb = s.sb := by
  simp only [State.acknowledge]; split <;> rfl
@[simp] theorem State.acknowledge_fatal (s : State) (q : QueueId) (v : BitVec 2) : (s.acknowledge q v).fatal = s.fatal := by
  simp only [State.acknowledge]; split <;> rfl
@[simp] theorem State.acknowledge_mem (s : State) (q : QueueId) (v : BitVec 2) : (s.acknowledge q v).mem = s.mem := by
  simp only [State.acknowledge]; split <;> rfl
@[simp] theorem State.acknowledge_active (s : State) (q : QueueId) (v : BitVec 2) : (s.acknowledge q v).active = s.active := by
  simp only [State.acknowledge]; split <;> rfl
@[simp] theorem State.acknowledge_draining (s : State) (q : QueueId) (v : BitVec 2) : (s.acknowledge q v).draining = s.draining := by
  simp only [State.acknowledge]; split <;> rfl
@[simp] theorem State.acknowledge_host (s : State) (q : QueueId) (v : BitVec 2) : (s.acknowledge q v).host = s.host := by
  simp only [State.acknowledge]; split <;> rfl
@[simp] theorem State.acknowledge_hostReply (s : State) (q : QueueId) (v : BitVec 2) : (s.acknowledge q v).hostReply = s.hostReply := by
  simp only [State.acknowledge]; split <;> rfl
@[simp] theorem State.acknowledge_params (s : State) (q : QueueId) (v : BitVec 2) : (s.acknowledge q v).params = s.params := by
  simp only [State.acknowledge]; split <;> rfl

@[simp] theorem writeBytes_queues (s : State) (sp : MemSpace) (a : Nat) (bs : List Byte) :
    (writeBytes s sp a bs).queues = s.queues := by cases sp <;> rfl
@[simp] theorem writeBytes_queuePriority (s : State) (sp : MemSpace) (a : Nat) (bs : List Byte) :
    (writeBytes s sp a bs).queuePriority = s.queuePriority := by cases sp <;> rfl
@[simp] theorem writeBytes_misc (s : State) (sp : MemSpace) (a : Nat) (bs : List Byte) :
    (writeBytes s sp a bs).misc = s.misc := by cases sp <;> rfl
@[simp] theorem writeBytes_scratch (s : State) (sp : MemSpace) (a : Nat) (bs : List Byte) :
    (writeBytes s sp a bs).scratch = s.scratch := by cases sp <;> rfl
@[simp] theorem writeBytes_irq (s : State) (sp : MemSpace) (a : Nat) (bs : List Byte) :
    (writeBytes s sp a bs).irq = s.irq := by cases sp <;> rfl
@[simp] theorem writeBytes_fatal (s : State) (sp : MemSpace) (a : Nat) (bs : List Byte) :
    (writeBytes s sp a bs).fatal = s.fatal := by cases sp <;> rfl
@[simp] theorem writeBytes_active (s : State) (sp : MemSpace) (a : Nat) (bs : List Byte) :
    (writeBytes s sp a bs).active = s.active := by cases sp <;> rfl
@[simp] theorem writeBytes_draining (s : State) (sp : MemSpace) (a : Nat) (bs : List Byte) :
    (writeBytes s sp a bs).draining = s.draining := by cases sp <;> rfl
@[simp] theorem writeBytes_host (s : State) (sp : MemSpace) (a : Nat) (bs : List Byte) :
    (writeBytes s sp a bs).host = s.host := by cases sp <;> rfl
@[simp] theorem writeBytes_hostReply (s : State) (sp : MemSpace) (a : Nat) (bs : List Byte) :
    (writeBytes s sp a bs).hostReply = s.hostReply := by cases sp <;> rfl
@[simp] theorem writeBytes_params (s : State) (sp : MemSpace) (a : Nat) (bs : List Byte) :
    (writeBytes s sp a bs).params = s.params := by cases sp <;> rfl
@[simp] theorem writeBytes_queue (s : State) (sp : MemSpace) (a : Nat) (bs : List Byte) (q : QueueId) :
    (writeBytes s sp a bs).queue q = s.queue q := by cases sp <;> rfl

/-! ## The queue that an update leaves -/

@[simp] theorem State.endPass_queue (s : State) (q : QueueId) : s.endPass.queue q = s.queue q := rfl
@[simp] theorem State.raiseFatal_queue (s : State) (c : Cause) (q : QueueId) : (s.raiseFatal c).queue q = s.queue q := rfl
@[simp] theorem State.startPass_queue (s : State) (p q : QueueId) : (s.startPass p).queue q = s.queue q := rfl

@[simp] theorem State.advanceHead_queue_same (s : State) (q : QueueId) :
    (s.advanceHead q).queue q = { s.queue q with head := nextHead (s.queue q) } := State.setQueue_queue_same _ _ _

@[simp] theorem State.mirror_queue_same (s : State) (q : QueueId) (r : Result) :
    (s.mirror q r).queue q = { s.queue q with
      status := if r = .ok then 0 else s.params.errStatusCode
      intStatus := if r = .ok then 1 else 2 } := by
  cases r <;> exact State.setQueue_queue_same _ _ _

@[simp] theorem State.stopQueue_queue_same (s : State) (q : QueueId) :
    (s.stopQueue q).queue q = { s.queue q with run := false, halt := true } := State.setQueue_queue_same _ _ _

theorem State.advanceHead_queue_other (s : State) (q p : QueueId) (h : p ≠ q) : (s.advanceHead q).queue p = s.queue p :=
  State.setQueue_queue_other _ _ _ _ h

theorem State.mirror_queue_other (s : State) (q p : QueueId) (r : Result) (h : p ≠ q) :
    (s.mirror q r).queue p = s.queue p := State.setQueue_queue_other _ _ _ _ h

theorem State.stopQueue_queue_other (s : State) (q p : QueueId) (h : p ≠ q) : (s.stopQueue q).queue p = s.queue p :=
  State.setQueue_queue_other _ _ _ _ h

/-- Signalling ORs the enabled event bit into the pending bits (spec/60_exceptions.md R288). -/
@[simp] theorem State.signal_queue_same (s : State) (q : QueueId) (r : Result) :
    (s.signal q r).queue q = { s.queue q with
      interruptStatus := (s.queue q).interruptStatus ||| ((s.queue q).interruptEnable &&& eventBit r) } := by
  have hb : ∀ e b : BitVec 2, (b = 1 ∨ b = 2) → e &&& b ≠ 0 → e &&& b = b := by decide
  have hr : eventBit r = 1 ∨ eventBit r = 2 := by cases r <;> simp [eventBit]
  simp only [State.signal]
  split
  case isTrue h => simp [h]
  case isFalse h => rw [hb _ _ hr h]; exact State.setQueue_queue_same _ _ _

theorem State.signal_queue_other (s : State) (q p : QueueId) (r : Result) (h : p ≠ q) :
    (s.signal q r).queue p = s.queue p := by
  simp only [State.signal]; split
  · rfl
  · exact State.setQueue_queue_other _ _ _ _ h

theorem State.signal_irq (s : State) (q : QueueId) (r : Result) :
    (s.signal q r).irq = (s.irq || decide ((s.queue q).interruptEnable &&& eventBit r ≠ 0)) := by
  simp only [State.signal]; split <;> simp_all

@[simp] theorem State.acknowledge_queue_same (s : State) (q : QueueId) (v : BitVec 2) :
    (s.acknowledge q v).queue q = { s.queue q with interruptStatus := (s.queue q).interruptStatus &&& ~~~v } := by
  simp only [State.acknowledge]; split <;> exact State.setQueue_queue_same _ _ _

theorem State.acknowledge_queue_other (s : State) (q p : QueueId) (v : BitVec 2) (h : p ≠ q) :
    (s.acknowledge q v).queue p = s.queue p := by
  simp only [State.acknowledge]; split <;> exact State.setQueue_queue_other _ _ _ _ h

end Sys2Proof.Machine
end

