-- ==== Sys2Proof/Laws/Memory.lean ====
section
/-! SUPPORT. The laws of the memory-space router: what `memRead` and `memWrite` answer, what a store leaves in every byte
of every space, and that stores keep the canonical form. -/

namespace Sys2Proof.Machine

/-- What a space reads from and writes to. -/
def storeOf (s : State) : MemSpace → List Host.Cell
  | .scratchBuffer => s.sb
  | .system => s.mem
  | .localMem => s.mem

theorem readByte_eq (s : State) (sp : MemSpace) (a : Nat) : readByte s sp a = cellsRead (storeOf s sp) a := by
  cases sp <;> rfl

theorem readBytes_eq (s : State) (sp : MemSpace) (a n : Nat) : readBytes s sp a n = cellsReadBytes (storeOf s sp) a n := by
  cases sp <;> rfl

@[simp] theorem readBytes_length (s : State) (sp : MemSpace) (a n : Nat) : (readBytes s sp a n).length = n := by
  rw [readBytes_eq, cellsReadBytes_length]

theorem readBytes_getD (s : State) (sp : MemSpace) (a n i : Nat) (h : i < n) :
    (readBytes s sp a n).getD i 0 = readByte s sp (a + i) := by
  rw [readBytes_eq, readByte_eq, cellsReadBytes_getD _ _ _ _ h]

theorem readBytes_append (s : State) (sp : MemSpace) (a j k : Nat) :
    readBytes s sp a (j + k) = readBytes s sp a j ++ readBytes s sp (a + j) k := by
  simp only [readBytes_eq, cellsReadBytes_append]

/-- Bytes read are decided by the bytes of the range. -/
theorem readBytes_congr (s t : State) (sp sp' : MemSpace) (a n : Nat)
    (h : ∀ x, a ≤ x → x < a + n → readByte s sp x = readByte t sp' x) : readBytes s sp a n = readBytes t sp' a n := by
  rw [readBytes_eq, readBytes_eq]
  exact cellsReadBytes_congr _ _ _ _ fun x h₁ h₂ => by simpa only [readByte_eq] using h x h₁ h₂

/-- A read within the SB, or outside it in another space, answers the bytes. -/
theorem memRead_ok (s : State) (sp : MemSpace) (a n : Nat) (h : outsideSb sp a n = false) :
    memRead s sp a n = .ok (readBytes s sp a n) := by simp [memRead, h]

theorem memWrite_ok (s : State) (sp : MemSpace) (a : Nat) (v : List Byte) (h : outsideSb sp a v.length = false) :
    memWrite s sp a v = .ok (writeBytes s sp a v) := by simp [memWrite, h]

/-- All that `memWrite` can answer. -/
theorem memWrite_cases (s : State) (sp : MemSpace) (a : Nat) (v : List Byte) (t : State)
    (h : memWrite s sp a v = .ok t) : outsideSb sp a v.length = false ∧ t = writeBytes s sp a v := by
  simp only [memWrite] at h
  split at h
  · cases h
  · next hn => exact ⟨Bool.eq_false_iff.2 hn, by cases h; rfl⟩

/-- What is stored does not depend on anything but the two stores. -/
theorem storeOf_writeBytes (s : State) (sp sp' : MemSpace) (a : Nat) (bs : List Byte) :
    storeOf (writeBytes s sp a bs) sp' =
      if sameStore sp sp' = true then cellsWriteBytes (storeOf s sp') a bs else storeOf s sp' := by
  cases sp <;> cases sp' <;> rfl

theorem StoresWf.storeOf {s : State} (h : StoresWf s) (sp : MemSpace) : cellsWf (Machine.storeOf s sp) = true := by
  cases sp
  · exact h.mem
  · exact h.sb
  · exact h.mem

theorem StoresWf.writeBytes {s : State} (h : StoresWf s) (sp : MemSpace) (a : Nat) (bs : List Byte) :
    StoresWf (writeBytes s sp a bs) := by
  have key := fun sp' => storeOf_writeBytes s sp sp' a bs
  constructor
  · have := key .system
    simp only [Machine.storeOf] at this
    rw [this]; split
    · exact cellsWf_cellsWriteBytes _ _ _ h.mem
    · exact h.mem
  · have := key .scratchBuffer
    simp only [Machine.storeOf] at this
    rw [this]; split
    · exact cellsWf_cellsWriteBytes _ _ _ h.sb
    · exact h.sb

/-- Every byte of every space after a store (spec/20_memory.md R62 to R65). -/
theorem readByte_writeBytes {s : State} (h : StoresWf s) (sp : MemSpace) (a : Nat) (bs : List Byte) (sp' : MemSpace)
    (x : Nat) : readByte (writeBytes s sp a bs) sp' x = afterStore sp a bs (readByte s) sp' x := by
  rw [readByte_eq, storeOf_writeBytes, afterStore, readByte_eq]
  by_cases hs : sameStore sp sp' = true
  · rw [if_pos hs, cellsRead_cellsWriteBytes _ _ _ _ (h.storeOf sp')]
    simp only [hs, true_and]
  · rw [if_neg hs, if_neg (by simp [hs])]

/-- Reading back what was just stored. -/
theorem readBytes_writeBytes_same {s : State} (h : StoresWf s) (sp sp' : MemSpace) (a : Nat) (bs : List Byte)
    (hs : sameStore sp sp' = true) : readBytes (writeBytes s sp a bs) sp' a bs.length = bs := by
  rw [readBytes_eq, storeOf_writeBytes, if_pos hs, cellsReadBytes_cellsWriteBytes _ _ _ (h.storeOf sp')]

/-- Reading a range that a store does not touch. -/
theorem readBytes_writeBytes_apart {s : State} (h : StoresWf s) (sp sp' : MemSpace) (a b n : Nat) (bs : List Byte)
    (hd : sameStore sp sp' = false ∨ b + n ≤ a ∨ a + bs.length ≤ b) :
    readBytes (writeBytes s sp a bs) sp' b n = readBytes s sp' b n := by
  apply readBytes_congr
  intro x h₁ h₂
  rw [readByte_writeBytes h, afterStore, if_neg]
  rintro ⟨h₃, h₄, h₅⟩
  rcases hd with hd | hd | hd
  · rw [hd] at h₃; cases h₃
  · omega
  · omega

theorem Apart.symm {sp sp' : MemSpace} {a n a' n' : Nat} (h : Apart sp a n sp' a' n') : Apart sp' a' n' sp a n :=
  h.imp (fun h => by cases sp <;> cases sp' <;> exact h) Or.symm

/-- Reading a range that lies apart from a stored one. -/
theorem Apart.readBytes_writeBytes {s : State} (h : StoresWf s) {sp sp' : MemSpace} {a b n : Nat} {bs : List Byte}
    (hd : Apart sp a bs.length sp' b n) : readBytes (writeBytes s sp a bs) sp' b n = readBytes s sp' b n :=
  readBytes_writeBytes_apart h sp sp' a b n bs (hd.imp id Or.symm)

/-- Local is System (spec/20_memory.md R63). -/
@[simp] theorem readByte_localMem (s : State) (a : Nat) : readByte s .localMem a = readByte s .system a := rfl

end Sys2Proof.Machine
end

