-- ==== Sys2Proof/Laws/Bytes.lean ====
section
/-! SUPPORT. The laws of byte strings: little-endian integers and blocks. -/

namespace Sys2Proof.Machine

/-! ## Little-endian integers -/

@[simp] theorem toLe_length (v n : Nat) : (toLe v n).length = n := by
  induction n generalizing v with
  | zero => rfl
  | succ n ih => simp [toLe, ih]

theorem leNat_lt (bs : List Byte) : leNat bs < 256 ^ bs.length := by
  induction bs with
  | nil => simp [leNat]
  | cons b bs ih =>
    have := b.isLt
    simp only [leNat, List.length_cons, Nat.pow_succ]
    omega

theorem leNat_toLe (v n : Nat) : leNat (toLe v n) = v % 256 ^ n := by
  induction n generalizing v with
  | zero => simp [toLe, leNat, Nat.mod_one]
  | succ n ih =>
    simp only [toLe, leNat, ih, BitVec.toNat_ofNat]
    rw [show 256 ^ (n + 1) = 256 * 256 ^ n by rw [Nat.pow_succ, Nat.mul_comm], Nat.mod_mul]

theorem toLe_leNat (bs : List Byte) : toLe (leNat bs) bs.length = bs := by
  induction bs with
  | nil => rfl
  | cons b bs ih =>
    have := b.isLt
    simp only [leNat, List.length_cons, toLe]
    congr 1
    · apply BitVec.eq_of_toNat_eq; simp only [BitVec.toNat_ofNat]; omega
    · rw [show (b.toNat + 256 * leNat bs) / 256 = leNat bs by omega, ih]

/-! ## Blocks -/

@[simp] theorem blocksOf_length (size n : Nat) (bs : List Byte) : (blocksOf size n bs).length = n := by
  induction n generalizing bs with
  | zero => rfl
  | succ n ih => simp [blocksOf, ih]

theorem blocksOf_mem_length (size n : Nat) (bs : List Byte) (h : size * n ≤ bs.length) :
    ∀ b ∈ blocksOf size n bs, b.length = size := by
  induction n generalizing bs with
  | zero => simp [blocksOf]
  | succ n ih =>
    rw [Nat.mul_succ] at h
    intro b hb
    simp only [blocksOf, List.mem_cons] at hb
    rcases hb with rfl | hb
    · rw [List.length_take]; omega
    · exact ih _ (by rw [List.length_drop]; omega) b hb

/-- Every block of a byte string cut into whole blocks has the block's size. -/
theorem blocks_mem_length (size : Nat) (bs : List Byte) : ∀ b ∈ blocks size bs, b.length = size :=
  blocksOf_mem_length _ _ _ (Nat.mul_div_le _ _)

theorem blocksOf_flatten (size n : Nat) (bs : List Byte) : (blocksOf size n bs).flatten = bs.take (size * n) := by
  induction n generalizing bs with
  | zero => simp [blocksOf]
  | succ n ih => simp only [blocksOf, List.flatten_cons, ih, Nat.mul_succ]; rw [Nat.add_comm, List.take_add]

/-- A byte string of whole blocks is its blocks one after the other. -/
theorem blocks_flatten (size : Nat) (bs : List Byte) (h : bs.length % size = 0) : (blocks size bs).flatten = bs := by
  rw [blocks, blocksOf_flatten, Nat.mul_div_cancel' (Nat.dvd_of_mod_eq_zero h), List.take_length]

theorem blocksOf_append (size n : Nat) (xs ys : List Byte) (h : xs.length = size * n) (m : Nat) :
    blocksOf size (n + m) (xs ++ ys) = blocksOf size n xs ++ blocksOf size m ys := by
  induction n generalizing xs with
  | zero => simp at h; subst h; simp [blocksOf]
  | succ n ih =>
    rw [Nat.mul_succ] at h
    rw [show n + 1 + m = (n + m) + 1 by omega]
    simp only [blocksOf, List.cons_append]
    rw [List.take_append_of_le_length (by omega), List.drop_append_of_le_length (by omega),
      ih _ (by rw [List.length_drop]; omega)]

/-- Cutting whole blocks followed by anything. -/
theorem blocks_append (size : Nat) (xs ys : List Byte) (h : xs.length % size = 0) (hs : 0 < size) :
    blocks size (xs ++ ys) = blocks size xs ++ blocks size ys := by
  have e : xs.length = size * (xs.length / size) := (Nat.mul_div_cancel' (Nat.dvd_of_mod_eq_zero h)).symm
  rw [blocks, List.length_append, show (xs.length + ys.length) / size = xs.length / size + ys.length / size by
    conv_lhs => rw [e]
    rw [Nat.mul_add_div hs], blocksOf_append _ _ _ _ e, blocks, blocks]

/-- The blocks of the bytes of a range of a space are the bytes of its parts. -/
theorem blocksOf_readBytes (s : State) (sp : MemSpace) (a size n k : Nat) (h : size * n ≤ k) :
    blocksOf size n (readBytes s sp a k) = (List.range n).map fun i => readBytes s sp (a + size * i) size := by
  induction n generalizing a k with
  | zero => rfl
  | succ n ih =>
    rw [Nat.mul_succ] at h
    obtain ⟨m, rfl⟩ : ∃ m, k = size + m := ⟨k - size, by omega⟩
    simp only [blocksOf]
    rw [readBytes_append, List.take_left' (by simp), List.drop_left' (by simp), ih (a + size) m (by omega),
      List.range_succ_eq_map, List.map_cons, List.map_map]
    congr 1
    apply List.map_congr_left
    intro i _
    simp only [Function.comp, Nat.mul_succ]
    congr 1; omega

theorem blocks_readBytes (s : State) (sp : MemSpace) (a size k : Nat) :
    blocks size (readBytes s sp a k) = (List.range (k / size)).map fun i => readBytes s sp (a + size * i) size := by
  rw [blocks, readBytes_length, blocksOf_readBytes _ _ _ _ _ _ (Nat.mul_div_le _ _)]

theorem flatten_length_of_forall {α : Type} (l : List (List α)) (n : Nat) (h : ∀ b ∈ l, b.length = n) :
    l.flatten.length = n * l.length := by
  induction l with
  | nil => simp
  | cons b l ih =>
    rw [List.flatten_cons, List.length_append, h b List.mem_cons_self, ih fun c hc => h c (List.mem_cons_of_mem _ hc),
      List.length_cons, Nat.mul_succ, Nat.add_comm]

@[simp] theorem xorBytes_length (a b : List Byte) : (xorBytes a b).length = min a.length b.length := by
  simp [xorBytes]

/-- Xor undoes itself. -/
theorem xorBytes_cancel (a b : List Byte) (h : a.length ≤ b.length) : xorBytes (xorBytes a b) b = a := by
  induction a generalizing b with
  | nil => rfl
  | cons x a ih =>
    cases b with
    | nil => simp at h
    | cons y b =>
      simp only [xorBytes, List.zipWith_cons_cons, List.cons.injEq]
      exact ⟨by rw [BitVec.xor_assoc, BitVec.xor_self, BitVec.xor_zero], ih b (by simpa using h)⟩

/-! ## Two stores one after the other -/

theorem cellsWriteBytes_append (m : List Host.Cell) (a : Nat) (xs ys : List Byte) :
    cellsWriteBytes m a (xs ++ ys) = cellsWriteBytes (cellsWriteBytes m a xs) (a + xs.length) ys := by
  induction xs generalizing m a with
  | nil => rfl
  | cons x xs ih =>
    simp only [List.cons_append, cellsWriteBytes, ih, List.length_cons]
    rw [show a + 1 + xs.length = a + (xs.length + 1) by omega]

theorem writeBytes_append (s : State) (sp : MemSpace) (a : Nat) (xs ys : List Byte) :
    writeBytes s sp a (xs ++ ys) = writeBytes (writeBytes s sp a xs) sp (a + xs.length) ys := by
  cases sp <;> simp only [writeBytes, cellsWriteBytes_append]

theorem writeBytes_nil (s : State) (sp : MemSpace) (a : Nat) : writeBytes s sp a [] = s := by
  cases sp <;> rfl

end Sys2Proof.Machine
end

