-- ==== Sys2Proof/Laws/Encoding.lean ====
section
/-! SUPPORT. What each field getter reads from each packed word, and words as bytes. -/

namespace Sys2Proof

open Sys2Proof.Machine

/-! ## Word 0 -/

theorem packControl_toNat (f : Flags) (fn : BitVec 15) (e : BitVec 4) :
    (packControl f fn e).toNat =
      f.soc.toNat + 2 * f.ioc.toNat + 8 * f.init.toNat + 16 * f.eom.toNat + 32 * fn.toNat + 1048576 * e.toNat := by
  have := fn.isLt
  have := e.isLt
  have := f.soc.toNat_lt; have := f.ioc.toNat_lt; have := f.init.toNat_lt; have := f.eom.toNat_lt
  simp only [packControl, BitVec.toNat_ofNat]
  omega

theorem bitAt_eq (w : Word) (i : Nat) : bitAt w i = decide (w.toNat / 2 ^ i % 2 = 1) := by
  rw [bitAt, BitVec.getLsbD, Nat.testBit_eq_decide_div_mod_eq]

theorem decide_toNat_eq_one (b : Bool) : decide (b.toNat = 1) = b := by cases b <;> rfl

/-- A bit of a word whose value is known. -/
theorem bitAt_of_toNat (w : Word) (i : Nat) (b : Bool) (h : w.toNat / 2 ^ i % 2 = b.toNat) : bitAt w i = b := by
  rw [bitAt_eq, h, decide_toNat_eq_one]

/-- A bit field of a word whose value is known. -/
theorem extract_of_toNat (w : Word) (lo n v : Nat) (h : w.toNat / 2 ^ lo % 2 ^ n = v) :
    w.extractLsb' lo n = BitVec.ofNat n v := by
  apply BitVec.eq_of_toNat_eq
  rw [BitVec.extractLsb'_toNat, BitVec.toNat_ofNat, Nat.shiftRight_eq_div_pow, ← h, Nat.mod_mod]

section Control
variable (f : Flags) (fn : BitVec 15) (e : BitVec 4)

theorem packControl_bounds : fn.toNat < 32768 ∧ e.toNat < 16 ∧ f.soc.toNat < 2 ∧ f.ioc.toNat < 2 ∧ f.init.toNat < 2 ∧
    f.eom.toNat < 2 :=
  ⟨fn.isLt, e.isLt, f.soc.toNat_lt, f.ioc.toNat_lt, f.init.toNat_lt, f.eom.toNat_lt⟩

@[simp] theorem packControl_soc : bitAt (packControl f fn e) 0 = f.soc := by
  apply bitAt_of_toNat; rw [packControl_toNat]; have := packControl_bounds f fn e; omega

@[simp] theorem packControl_ioc : bitAt (packControl f fn e) 1 = f.ioc := by
  apply bitAt_of_toNat; rw [packControl_toNat]; have := packControl_bounds f fn e; omega

@[simp] theorem packControl_init : bitAt (packControl f fn e) 3 = f.init := by
  apply bitAt_of_toNat; rw [packControl_toNat]; have := packControl_bounds f fn e; omega

@[simp] theorem packControl_eom : bitAt (packControl f fn e) 4 = f.eom := by
  apply bitAt_of_toNat; rw [packControl_toNat]; have := packControl_bounds f fn e; omega

@[simp] theorem packControl_bit2 : bitAt (packControl f fn e) 2 = false := by
  apply bitAt_of_toNat; rw [packControl_toNat]; have := packControl_bounds f fn e; simp only [Bool.toNat_false]; omega

@[simp] theorem packControl_prot : bitAt (packControl f fn e) 24 = false := by
  apply bitAt_of_toNat; rw [packControl_toNat]; have := packControl_bounds f fn e; simp only [Bool.toNat_false]; omega

@[simp] theorem packControl_function : (packControl f fn e).extractLsb' 5 15 = fn := by
  rw [extract_of_toNat _ _ _ fn.toNat (by rw [packControl_toNat]; have := packControl_bounds f fn e; omega)]
  simp

@[simp] theorem packControl_engine : (packControl f fn e).extractLsb' 20 4 = e := by
  rw [extract_of_toNat _ _ _ e.toNat (by rw [packControl_toNat]; have := packControl_bounds f fn e; omega)]
  simp

@[simp] theorem packControl_top : (packControl f fn e).extractLsb' 25 7 = 0#7 := by
  rw [extract_of_toNat _ _ _ 0 (by rw [packControl_toNat]; have := packControl_bounds f fn e; omega)]

end Control

/-! ## The operand words -/

section Hi
variable (o : Operand) (c : BitVec 8)

theorem packHi_toNat : (packHi o c).toNat =
    o.address.toNat / 4294967296 + 65536 * (codeOfMemSpace o.space).toNat + 262144 * c.toNat := by
  have := o.address.isLt
  have := (codeOfMemSpace o.space).isLt
  have := c.isLt
  simp only [packHi, BitVec.toNat_ofNat]
  omega

theorem packHi_bounds : o.address.toNat < 281474976710656 ∧ (codeOfMemSpace o.space).toNat < 4 ∧ c.toNat < 256 :=
  ⟨o.address.isLt, (codeOfMemSpace o.space).isLt, c.isLt⟩

@[simp] theorem packHi_space : (packHi o c).extractLsb' 16 2 = codeOfMemSpace o.space := by
  rw [extract_of_toNat _ _ _ (codeOfMemSpace o.space).toNat (by rw [packHi_toNat]; have := packHi_bounds o c; omega)]
  simp

@[simp] theorem packHi_context : (packHi o c).extractLsb' 18 8 = c := by
  rw [extract_of_toNat _ _ _ c.toNat (by rw [packHi_toNat]; have := packHi_bounds o c; omega)]
  simp

@[simp] theorem packHi_reserved3 : (packHi o c).extractLsb' 26 5 = 0#5 := by
  rw [extract_of_toNat _ _ _ 0 (by rw [packHi_toNat]; have := packHi_bounds o c; omega)]

@[simp] theorem packHi_reserved5 : (packHi o 0#8).extractLsb' 18 13 = 0#13 := by
  rw [extract_of_toNat _ _ _ 0 (by
    rw [packHi_toNat]; have := packHi_bounds o 0#8; rw [show (0#8).toNat = 0 from rfl]; omega)]

@[simp] theorem packHi_reserved7 : (packHi o 0#8).extractLsb' 18 14 = 0#14 := by
  rw [extract_of_toNat _ _ _ 0 (by
    rw [packHi_toNat]; have := packHi_bounds o 0#8; rw [show (0#8).toNat = 0 from rfl]; omega)]

@[simp] theorem packHi_fixed : bitAt (packHi o c) 31 = false := by
  apply bitAt_of_toNat; rw [packHi_toNat]; have := packHi_bounds o c; simp only [Bool.toNat_false]; omega

@[simp] theorem fieldAddr_pack : fieldAddr (packHi o c) (packLo o) = o.address := by
  apply BitVec.eq_of_toNat_eq
  have hb := packHi_bounds o c
  simp only [fieldAddr, packLo, BitVec.toNat_append, BitVec.extractLsb'_toNat, packHi_toNat, Nat.shiftRight_eq_div_pow]
  rw [← Nat.shiftLeft_add_eq_or_of_lt (Nat.mod_lt _ (by decide)), Nat.shiftLeft_eq]
  omega

end Hi

@[simp] theorem memSpaceOf_code (sp : MemSpace) : memSpaceOf (codeOfMemSpace sp) = some sp := by cases sp <;> rfl

@[simp] theorem shaLen_pack (v : BitVec 64) : (v.extractLsb' 32 32 ++ v.extractLsb' 0 32 : BitVec 64) = v := by
  apply BitVec.eq_of_getLsbD_eq
  intro i hi
  simp only [BitVec.getLsbD_append, BitVec.getLsbD_extractLsb']
  by_cases h : i < 32
  · simp [h]
  · simp [h, show 32 + (i - 32) = i by omega]; omega

/-! ## Words as bytes -/

theorem wordOfBytes_append (xs ys : List Byte) (k : Nat) (h : xs.length = 4 * k) (w : Word) :
    wordOfBytes (xs ++ (toLe w.toNat 4 ++ ys)) k = w := by
  rw [wordOfBytes, List.drop_left' h, List.take_left' (by simp), leNat_toLe]
  apply BitVec.eq_of_toNat_eq
  have := w.isLt
  simp only [BitVec.toNat_ofNat]; omega

/-- The words of the bytes of eight words are the eight words. -/
theorem wordsOfBytes_bytesOfWords (d : DescWords) : wordsOfBytes (bytesOfWords d) = d := by
  obtain ⟨w0, w1, w2, w3, w4, w5, w6, w7⟩ := d
  simp only [wordsOfBytes, bytesOfWords, List.append_assoc]
  congr 1
  · exact wordOfBytes_append [] _ 0 rfl w0
  · exact wordOfBytes_append (toLe w0.toNat 4) _ 1 (by simp) w1
  · have := wordOfBytes_append (toLe w0.toNat 4 ++ toLe w1.toNat 4)
      (toLe w3.toNat 4 ++ (toLe w4.toNat 4 ++ (toLe w5.toNat 4 ++ (toLe w6.toNat 4 ++ toLe w7.toNat 4)))) 2 (by simp) w2
    simpa only [List.append_assoc] using this
  · have := wordOfBytes_append (toLe w0.toNat 4 ++ toLe w1.toNat 4 ++ toLe w2.toNat 4)
      (toLe w4.toNat 4 ++ (toLe w5.toNat 4 ++ (toLe w6.toNat 4 ++ toLe w7.toNat 4))) 3 (by simp) w3
    simpa only [List.append_assoc] using this
  · have := wordOfBytes_append (toLe w0.toNat 4 ++ toLe w1.toNat 4 ++ toLe w2.toNat 4 ++ toLe w3.toNat 4)
      (toLe w5.toNat 4 ++ (toLe w6.toNat 4 ++ toLe w7.toNat 4)) 4 (by simp) w4
    simpa only [List.append_assoc] using this
  · have := wordOfBytes_append (toLe w0.toNat 4 ++ toLe w1.toNat 4 ++ toLe w2.toNat 4 ++ toLe w3.toNat 4 ++ toLe w4.toNat 4)
      (toLe w6.toNat 4 ++ toLe w7.toNat 4) 5 (by simp) w5
    simpa only [List.append_assoc] using this
  · have := wordOfBytes_append (toLe w0.toNat 4 ++ toLe w1.toNat 4 ++ toLe w2.toNat 4 ++ toLe w3.toNat 4 ++
      toLe w4.toNat 4 ++ toLe w5.toNat 4) (toLe w7.toNat 4) 6 (by simp) w6
    simpa only [List.append_assoc] using this
  · have := wordOfBytes_append (toLe w0.toNat 4 ++ toLe w1.toNat 4 ++ toLe w2.toNat 4 ++ toLe w3.toNat 4 ++
      toLe w4.toNat 4 ++ toLe w5.toNat 4 ++ toLe w6.toNat 4) [] 7 (by simp) w7
    simpa only [List.append_assoc, List.append_nil] using this

@[simp] theorem bytesOfWords_length (d : DescWords) : (bytesOfWords d).length = 32 := by simp [bytesOfWords]

/-! ## Whole descriptors -/

theorem fieldFlags_packGeneral (fn : BitVec 15) (e : BitVec 4) (d : GenDesc) : fieldFlags (packGeneral fn e d) = d.flags := by
  simp [fieldFlags, fieldSoc, fieldIoc, fieldInit, fieldEom, packGeneral]

theorem fieldFlags_packSha (fn : BitVec 15) (d : ShaDesc) : fieldFlags (packSha fn d) = d.flags := by
  simp [fieldFlags, fieldSoc, fieldIoc, fieldInit, fieldEom, packSha]

/-- The operands of a packed descriptor of the general variant. -/
theorem decodeGeneral_packGeneral (fn : BitVec 15) (e : BitVec 4) (d : GenDesc) :
    decodeGeneral (packGeneral fn e d) = some d := by
  rw [decodeGeneral, fieldFlags_packGeneral]
  simp only [fieldMem, fieldLength, fieldContextId, packGeneral, packHi_space,
    memSpaceOf_code, fieldAddr_pack, packHi_context]

/-- The operands of a packed descriptor of the SHA variant. -/
theorem decodeShaOperands_packSha (fn : BitVec 15) (d : ShaDesc) : decodeShaOperands (packSha fn d) = some d := by
  rw [decodeShaOperands, fieldFlags_packSha]
  simp only [fieldMem, fieldLength, fieldContextId, fieldShaLen, packSha,
    packHi_space, memSpaceOf_code, fieldAddr_pack, packHi_context, shaLen_pack]

/-- The raw-word checks pass on every packed descriptor of the general variant. -/
theorem packGeneral_checks (fn : BitVec 15) (e : BitVec 4) (d : GenDesc) :
    fieldEngine (packGeneral fn e d) = e ∧ fieldProt (packGeneral fn e d) = false ∧
      reservedSet false (packGeneral fn e d) = false ∧ fieldSrcFixed (packGeneral fn e d) = false ∧
      fieldDstFixed (packGeneral fn e d) = false ∧ fieldFunction (packGeneral fn e d) = fn :=
  ⟨packControl_engine _ _ _, packControl_prot _ _ _, by simp [reservedSet, packGeneral], packHi_fixed _ _,
    packHi_fixed _ _, packControl_function _ _ _⟩

/-- The raw-word checks pass on every packed descriptor of the SHA variant. -/
theorem packSha_checks (fn : BitVec 15) (d : ShaDesc) :
    fieldEngine (packSha fn d) = 3 ∧ fieldProt (packSha fn d) = false ∧ reservedSet true (packSha fn d) = false ∧
      fieldSrcFixed (packSha fn d) = false ∧ fieldFunction (packSha fn d) = fn :=
  ⟨packControl_engine _ _ _, packControl_prot _ _ _, by simp [reservedSet, packSha], packHi_fixed _ _,
    packControl_function _ _ _⟩

end Sys2Proof
end

