-- ==== Sys2Proof/Laws/Ops.lean ====
section
/-! SUPPORT. What the ends of a descriptor can do, said once: `retire`, `violate`, `runDescriptor`. -/

namespace Sys2Proof.Machine

/-! ## After a descriptor -/

@[simp] theorem State.retire_mem (s : State) (f : Flags) (r : Result) : (s.retire f r).mem = s.mem := by
  simp only [State.retire]; split <;> split <;> simp

@[simp] theorem State.retire_sb (s : State) (f : Flags) (r : Result) : (s.retire f r).sb = s.sb := by
  simp only [State.retire]; split <;> split <;> simp

@[simp] theorem readByte_retire (s : State) (f : Flags) (r : Result) (sp : MemSpace) (a : Nat) :
    readByte (s.retire f r) sp a = readByte s sp a := by cases sp <;> simp [readByte]

/-- Everything that follows a descriptor, field by field (spec/40_queue_engine.md R142). -/
theorem State.retire_retired (s : State) (f : Flags) (r : Result) : Retired s (s.retire f r) f r := by
  cases hi : f.ioc <;> cases hs : f.soc <;>
    constructor <;> intros <;>
    simp_all [State.retire, State.advanceHead_queue_other, State.mirror_queue_other, State.signal_queue_other,
      State.stopQueue_queue_other, State.signal_irq]

/-- The frame of a store followed by the end of a descriptor. -/
theorem Retired.of_writeBytes {s : State} {sp : MemSpace} {a : Nat} {bs : List Byte} {t : State} {f : Flags} {r : Result}
    (h : Retired (writeBytes s sp a bs) t f r) : Retired s t f r := by
  obtain ⟨h1, h2, h3, h4, h5, h6, h7, h8, h9, h10, h11, h12, h13, h14, h15, h16, h17, h18, h19, h20, h21⟩ := h
  simp only [writeBytes_queue, writeBytes_active, writeBytes_draining, writeBytes_irq, writeBytes_queuePriority,
    writeBytes_misc, writeBytes_scratch, writeBytes_fatal, writeBytes_host, writeBytes_hostReply,
    writeBytes_params] at *
  exact ⟨h1, h2, h3, h4, h5, h6, h7, h8, h9, h10, h11, h12, h13, h14, h15, h16, h17, h18, h19, h20, h21⟩

/-! ## Violations -/

theorem State.violate_fatal (s : State) (f : Flags) (c : Cause) (h : s.params.violationPolicy = .fatal) :
    s.violate f c = s.raiseFatal c := by simp [State.violate, h]

theorem State.violate_errorInterrupt (s : State) (f : Flags) (c : Cause)
    (h : s.params.violationPolicy = .errorInterrupt) : s.violate f c = s.retire f .fail := by simp [State.violate, h]

@[simp] theorem State.violate_mem (s : State) (f : Flags) (c : Cause) : (s.violate f c).mem = s.mem := by
  simp only [State.violate]; split <;> simp

@[simp] theorem State.violate_sb (s : State) (f : Flags) (c : Cause) : (s.violate f c).sb = s.sb := by
  simp only [State.violate]; split <;> simp

/-! ## A whole descriptor -/

/-- All that executing a descriptor can do: a violation before or inside its handler, a fatal end inside it, or its handler's
effect and what follows a descriptor. -/
theorem runDescriptor_cases {f : Flags} {check : Option Cause} {handler : State → Except Stop State} {s t : State}
    (h : runDescriptor f check handler s = .next t) :
    (∃ c, check = some c ∧ t = s.violate f c) ∨
    (∃ c, check = none ∧ handler s = .error (.violation c) ∧ t = s.violate f c) ∨
    (∃ c, check = none ∧ handler s = .error (.fatal c) ∧ t = s.raiseFatal c) ∨
    (∃ u, check = none ∧ handler s = .ok u ∧ t = u.retire f .ok) := by
  simp only [runDescriptor] at h
  split at h
  · next c => cases h; exact .inl ⟨c, rfl, rfl⟩
  · split at h
    · next u hu => cases h; exact .inr (.inr (.inr ⟨u, rfl, hu, rfl⟩))
    · next c hc => cases h; exact .inr (.inl ⟨c, rfl, hc, rfl⟩)
    · next c hc => cases h; exact .inr (.inr (.inl ⟨c, rfl, hc, rfl⟩))

theorem runDescriptor_ok {f : Flags} {check : Option Cause} {handler : State → Except Stop State} {s u : State}
    (hc : check = none) (hu : handler s = .ok u) : runDescriptor f check handler s = .next (u.retire f .ok) := by
  simp [runDescriptor, hc, hu]

theorem runDescriptor_violation {f : Flags} {check : Option Cause} {handler : State → Except Stop State} {s : State}
    {c : Cause} (hc : check = some c) : runDescriptor f check handler s = .next (s.violate f c) := by
  simp [runDescriptor, hc]

/-- Executing a descriptor always answers a next state. -/
theorem runDescriptor_next (f : Flags) (check : Option Cause) (handler : State → Except Stop State) (s : State) :
    ∃ t, runDescriptor f check handler s = .next t := by
  simp only [runDescriptor]
  split
  · exact ⟨_, rfl⟩
  · split <;> exact ⟨_, rfl⟩

end Sys2Proof.Machine
end

