-- ==== Sys2Proof/Laws/Validate.lean ====
section
/-! SUPPORT. The decoder's checks pass exactly on the well-formed instructions, and a check that passes keeps the router from
stopping. -/

namespace Sys2Proof.Machine

@[simp] theorem firstCause_nil : firstCause [] = none := rfl

theorem firstCause_cons_none (b : Bool) (c : Cause) (l : List (Bool × Cause)) :
    firstCause ((b, c) :: l) = none ↔ b = false ∧ firstCause l = none := by
  cases b <;> simp [firstCause]

/-- The cause named is that of a check that failed. -/
theorem firstCause_some (l : List (Bool × Cause)) (c : Cause) (h : firstCause l = some c) : (true, c) ∈ l := by
  induction l with
  | nil => cases h
  | cons p l ih =>
    obtain ⟨b, c'⟩ := p
    cases b
    · exact List.mem_cons_of_mem _ (ih h)
    · cases h; exact List.mem_cons_self

theorem overrunsSb_eq_not_fits (o : Operand) (n : Nat) : overrunsSb o n = !o.fits n := by
  obtain ⟨sp, a⟩ := o
  cases sp
  · rfl
  · by_cases h : n = 0
    · simp [overrunsSb, Operand.fits, h]
    · rw [Bool.eq_iff_iff]
      simp [overrunsSb, Operand.fits, h, Nat.pos_of_ne_zero h]
  · rfl

theorem outsideSb_eq_overrunsSb (o : Operand) (n : Nat) : outsideSb o.space o.address.toNat n = overrunsSb o n := rfl

theorem contextOverruns_eq_not_fits (c : BitVec 8) (n : Nat) : contextOverruns c n = !contextFits c n := by
  rw [Bool.eq_iff_iff]
  simp [contextOverruns, contextFits]

theorem outsideSb_context (c : BitVec 8) (n : Nat) (h : contextFits c n = true) :
    outsideSb .scratchBuffer (contextOffset c) n = false := by
  rw [← Bool.not_eq_true]
  simp only [contextFits, decide_eq_true_eq] at h
  simp only [outsideSb, contextOffset, Bool.and_eq_true, decide_eq_true_eq]
  exact fun ⟨_, h'⟩ => absurd h (Nat.not_le.2 (of_decide_eq_true h'))

theorem outsideSb_fits (o : Operand) (n : Nat) (h : o.fits n = true) : outsideSb o.space o.address.toNat n = false := by
  rw [outsideSb_eq_overrunsSb, overrunsSb_eq_not_fits, h]; rfl

theorem validateAes_eq_none (p : Params) (iv : Bool) (k : AesKey) (size : BitVec 7) (d : GenDesc) :
    validateAes p iv k size d = none ↔ wfAes p iv k size d = true := by
  obtain ⟨pol, chk, e, l, m, o⟩ := p
  simp only [validateAes, firstCause_cons_none, firstCause_nil, overrunsSb_eq_not_fits, contextOverruns_eq_not_fits, wfAes]
  cases chk <;> cases iv <;> simp [and_assoc]

theorem validateSha_eq_none (area block : Nat) (d : ShaDesc) :
    validateSha area block d = none ↔ wfSha area block d = true := by
  simp only [validateSha, firstCause_cons_none, firstCause_nil, overrunsSb_eq_not_fits, contextOverruns_eq_not_fits, wfSha]
  cases d.flags.eom <;> simp [and_assoc]

theorem validateRsa_eq_none (size : BitVec 12) (d : GenDesc) : validateRsa size d = none ↔ wfRsa size d = true := by
  simp only [validateRsa, firstCause_cons_none, firstCause_nil, overrunsSb_eq_not_fits, wfRsa]
  simp [and_assoc]

theorem validatePt_eq_none (swap : Bool) (d : GenDesc) : validatePt swap d = none ↔ wfPt swap d = true := by
  simp only [validatePt, firstCause_cons_none, firstCause_nil, overrunsSb_eq_not_fits, wfPt]
  cases swap <;> simp [and_assoc]

theorem validateZlib_eq_none (d : GenDesc) : validateZlib d = none ↔ wfZlib d = true := by
  simp only [validateZlib, firstCause_cons_none, firstCause_nil, overrunsSb_eq_not_fits, wfZlib]
  simp [and_assoc]

/-- The decoder's last checks pass exactly on the well-formed instructions. -/
theorem validate_eq_none (p : Params) (i : Instr) : validate p i = none ↔ i.wf p = true := by
  cases i <;>
    simp only [validate, Instr.wf, validateAes_eq_none, validateSha_eq_none, validateRsa_eq_none, validatePt_eq_none,
      validateZlib_eq_none]

/-- Every meaning makes its checks first: `exec` of an instruction that fails one is a violation. -/
theorem exec_violation (i : Instr) (s : State) (c : Cause) (h : validate s.params i = some c) :
    exec i s = .next (s.violate i.flags c) := by
  cases i <;> exact runDescriptor_violation h

/-- `exec` always answers a next state. -/
theorem exec_next (i : Instr) (s : State) : ∃ t, exec i s = .next t := by
  cases i <;> exact runDescriptor_next _ _ _ _

end Sys2Proof.Machine
end

