-- ==== Sys2Proof/Laws/Handlers.lean ====
section
/-! SUPPORT. What each handler answers on a descriptor that passes its checks: the one state it makes, as a store (or two). -/

namespace Sys2Proof.Machine

/-! ## The operand forms -/

theorem readOperand_ok (s : State) (o : Operand) (n : Nat) (h : o.fits n = true) :
    readOperand s o n = .ok (readBytes s o.space o.address.toNat n) := memRead_ok _ _ _ _ (outsideSb_fits o n h)

theorem writeOperand_ok (s : State) (o : Operand) (v : List Byte) (h : o.fits v.length = true) :
    writeOperand s o v = .ok (writeBytes s o.space o.address.toNat v) := memWrite_ok _ _ _ _ (outsideSb_fits o _ h)

theorem readAesKey_ok (s : State) (o : Operand) (k : AesKey) (h : o.fits k.bytes = true) :
    readAesKey s o k = .ok (standardKey s o k) := by
  simp only [readAesKey, readOperand_ok s o _ h]; rfl

theorem readIv_ok (s : State) (c : BitVec 8) (h : contextFits c 16 = true) : readIv s c = .ok (standardIv s c) := by
  simp only [readIv, memRead_ok _ _ _ _ (outsideSb_context c 16 h)]; rfl

theorem writeIv_ok (s : State) (c : BitVec 8) (iv : List Byte) (h : contextFits c 16 = true) (hl : iv.length = 16) :
    writeIv s c iv = .ok (writeBytes s .scratchBuffer (contextOffset c) iv.reverse) :=
  memWrite_ok _ _ _ _ (by rw [List.length_reverse, hl]; exact outsideSb_context c 16 h)

/-! ## AES: lengths -/

theorem roundKeys_mem_length (key : List Byte) : ∀ k ∈ roundKeys key, k.length = 16 := blocks_mem_length _ _

theorem encryptRounds_length (ks : List (List Byte)) (st : List Byte) (hk : ∀ k ∈ ks, k.length = 16)
    (hs : st.length = 16) : (encryptRounds ks st).length = 16 := by
  have hmix : ∀ st : List Byte, st.length = 16 → (mixColumns st).length = 16 := by
    intro st hs
    simp only [mixColumns, List.flatMap_def]
    rw [flatten_length_of_forall _ 4]
    · simp [blocks, hs]
    · intro b hb
      obtain ⟨c, hc, rfl⟩ := List.mem_map.1 hb
      have := blocks_mem_length 4 st c hc
      match c, this with
      | [_, _, _, _], _ => rfl
  induction ks generalizing st with
  | nil => exact hs
  | cons k ks ih =>
    have hk' := hk k List.mem_cons_self
    cases ks with
    | nil => simp [encryptRounds, shiftRows, hk']
    | cons k₂ ks =>
      simp only [encryptRounds]
      refine ih _ (fun x hx => hk x (List.mem_cons_of_mem _ hx)) ?_
      rw [xorBytes_length, hmix _ (by simp [shiftRows]), hk']; rfl

theorem decryptRounds_length (ks : List (List Byte)) (st : List Byte) (hk : ∀ k ∈ ks, k.length = 16)
    (hs : st.length = 16) : (decryptRounds ks st).length = 16 := by
  have hmix : ∀ st : List Byte, st.length = 16 → (invMixColumns st).length = 16 := by
    intro st hs
    simp only [invMixColumns, List.flatMap_def]
    rw [flatten_length_of_forall _ 4]
    · simp [blocks, hs]
    · intro b hb
      obtain ⟨c, hc, rfl⟩ := List.mem_map.1 hb
      have := blocks_mem_length 4 st c hc
      match c, this with
      | [_, _, _, _], _ => rfl
  induction ks generalizing st with
  | nil => exact hs
  | cons k ks ih =>
    have hk' := hk k List.mem_cons_self
    cases ks with
    | nil => simp [decryptRounds, invSubBytes, invShiftRows, hk']
    | cons k₂ ks =>
      simp only [decryptRounds]
      refine ih _ (fun x hx => hk x (List.mem_cons_of_mem _ hx)) (hmix _ ?_)
      simp [invSubBytes, invShiftRows, hk']

/-- The cipher gives a block of 16 bytes for a block of 16 bytes. -/
theorem aesEncrypt_length (key block : List Byte) (h : block.length = 16) : (aesEncrypt key block).length = 16 := by
  have hk := roundKeys_mem_length key
  simp only [aesEncrypt]
  split
  · exact h
  · next k ks e =>
    rw [e] at hk
    exact encryptRounds_length _ _ (fun x hx => hk x (List.mem_cons_of_mem _ hx))
      (by rw [xorBytes_length, h, hk k List.mem_cons_self]; rfl)

theorem aesDecrypt_length (key block : List Byte) (h : block.length = 16) : (aesDecrypt key block).length = 16 := by
  have hk : ∀ k ∈ (roundKeys key).reverse, k.length = 16 := fun k hk => roundKeys_mem_length key k (List.mem_reverse.1 hk)
  simp only [aesDecrypt]
  split
  · exact h
  · next k ks e =>
    rw [e] at hk
    exact decryptRounds_length _ _ (fun x hx => hk x (List.mem_cons_of_mem _ hx))
      (by rw [xorBytes_length, h, hk k List.mem_cons_self]; rfl)

/-! ## AES: chaining -/

/-- The running IV before block `i`. -/
def runningIv (f : BlockStep) (iv : List Byte) (x : Nat → List Byte) : Nat → List Byte
  | 0 => iv
  | i + 1 => (f (runningIv f iv x i) (x i)).2

theorem runningIv_shift (f : BlockStep) (iv : List Byte) (x : Nat → List Byte) (i : Nat) :
    runningIv f iv x (i + 1) = runningIv f (f iv (x 0)).2 (fun j => x (j + 1)) i := by
  induction i with
  | zero => rfl
  | succ i ih => rw [runningIv, ih]; rfl

/-- A chain over `n` blocks, block by block. -/
theorem chainBlocks_map_range (f : BlockStep) (iv : List Byte) (x : Nat → List Byte) (n : Nat) :
    chainBlocks f iv ((List.range n).map x) =
      ((List.range n).map fun i => (f (runningIv f iv x i) (x i)).1, runningIv f iv x n) := by
  induction n generalizing iv x with
  | zero => rfl
  | succ n ih =>
    rw [List.range_succ_eq_map, List.map_cons, List.map_map]
    simp only [chainBlocks]
    have := ih (f iv (x 0)).2 (fun j => x (j + 1))
    rw [show List.map (x ∘ Nat.succ) (List.range n) = List.map (fun j => x (j + 1)) (List.range n) from rfl, this,
      runningIv_shift]
    simp only [List.map_cons, List.map_map, runningIv]
    congr 2
    apply List.map_congr_left
    intro i _
    simp only [Function.comp, Nat.succ_eq_add_one, runningIv_shift]

/-- A mode that gives 16 bytes of output and of IV for 16 bytes of each. -/
def Keeps16 (f : BlockStep) : Prop :=
  ∀ iv x : List Byte, iv.length = 16 → x.length = 16 → (f iv x).1.length = 16 ∧ (f iv x).2.length = 16

theorem cbcStep_keeps16 (enc : Bool) (key : List Byte) : Keeps16 (cbcStep enc key) := by
  intro iv x hi hx
  cases enc
  · simp [cbcStep, aesDecrypt_length, hi, hx]
  · have : (xorBytes x iv).length = 16 := by simp [hi, hx]
    simp [cbcStep, aesEncrypt_length, this]

theorem cfbStep_keeps16 (enc : Bool) (key : List Byte) : Keeps16 (cfbStep enc key) := by
  intro iv x hi hx
  cases enc <;> simp [cfbStep, aesEncrypt_length, hi, hx]

theorem ofbStep_keeps16 (key : List Byte) : Keeps16 (ofbStep key) := by
  intro iv x hi hx
  simp [ofbStep, aesEncrypt_length, hi, hx]

theorem runningIv_length (f : BlockStep) (hf : Keeps16 f) (iv : List Byte) (x : Nat → List Byte) (hi : iv.length = 16)
    (hx : ∀ i, (x i).length = 16) (i : Nat) : (runningIv f iv x i).length = 16 := by
  induction i with
  | zero => exact hi
  | succ i ih => exact (hf _ _ ih (hx i)).2

@[simp] theorem inputBlock_length (s : State) (o : Operand) (i : Nat) : (inputBlock s o i).length = 16 :=
  readBytes_length _ _ _ _

@[simp] theorem standardIv_length (s : State) (c : BitVec 8) : (standardIv s c).length = 16 := by simp [standardIv]

theorem inputBlocks (s : State) (o : Operand) (n : Nat) :
    blocks 16 (readBytes s o.space o.address.toNat n) = (List.range (n / 16)).map (inputBlock s o) :=
  blocks_readBytes _ _ _ _ _

/-- The ECB handler on a well-formed descriptor. -/
theorem aesEcbHandler_ok (p : Params) (enc : Bool) (k : AesKey) (size : BitVec 7) (d : GenDesc) (s : State)
    (h : wfAes p false k size d = true) :
    aesEcbHandler enc k d s = .ok (writeBytes s d.dest.space d.dest.address.toNat
      ((List.range (d.length.toNat / 16)).map fun i =>
        ecbBlock enc (standardKey s d.key k) (inputBlock s d.source i)).flatten) := by
  simp only [wfAes, Bool.and_eq_true, beq_iff_eq] at h
  obtain ⟨⟨⟨⟨⟨_, hl⟩, _⟩, hs⟩, hd⟩, hk⟩ := h
  simp only [aesEcbHandler, readAesKey_ok s d.key k hk, readOperand_ok s d.source _ hs, bind, Except.bind, inputBlocks]
  rw [List.map_map, writeOperand_ok]
  · rfl
  · rw [flatten_length_of_forall _ 16]
    · simpa [Nat.mul_div_cancel' (Nat.dvd_of_mod_eq_zero hl)] using hd
    · intro b hb
      obtain ⟨i, _, rfl⟩ := List.mem_map.1 hb
      simp only [Function.comp, ecbBlock]
      split
      · exact aesEncrypt_length _ _ (by simp)
      · exact aesDecrypt_length _ _ (by simp)

/-- A handler of a mode with an IV on a well-formed descriptor. -/
theorem aesIvHandler_ok (p : Params) (f : List Byte → BlockStep) (hf : ∀ key, Keeps16 (f key)) (k : AesKey)
    (size : BitVec 7) (d : GenDesc) (s : State) (h : wfAes p true k size d = true) :
    let iv := runningIv (f (standardKey s d.key k)) (standardIv s d.contextId) (inputBlock s d.source)
    aesIvHandler f k d s = .ok (writeBytes (writeBytes s d.dest.space d.dest.address.toNat
      ((List.range (d.length.toNat / 16)).map fun i =>
        (f (standardKey s d.key k) (iv i) (inputBlock s d.source i)).1).flatten)
      .scratchBuffer (contextOffset d.contextId) (iv (d.length.toNat / 16)).reverse) := by
  intro iv
  simp only [wfAes, Bool.and_eq_true, beq_iff_eq, Bool.not_true, Bool.false_or] at h
  obtain ⟨⟨⟨⟨⟨_, hl⟩, hc⟩, hs⟩, hd⟩, hk⟩ := h
  have hiv : ∀ i, (iv i).length = 16 := runningIv_length _ (hf _) _ _ (by simp) fun i => by simp
  simp only [aesIvHandler, readAesKey_ok s d.key k hk, readOperand_ok s d.source _ hs, readIv_ok s _ hc, bind,
    Except.bind, inputBlocks, chainBlocks_map_range]
  rw [writeOperand_ok]
  · exact writeIv_ok _ _ _ hc (hiv _)
  · rw [flatten_length_of_forall _ 16]
    · simpa [Nat.mul_div_cancel' (Nat.dvd_of_mod_eq_zero hl)] using hd
    · intro b hb
      obtain ⟨i, _, rfl⟩ := List.mem_map.1 hb
      exact (hf _ _ _ (hiv i) (by simp)).1

/-! ## SHA -/

theorem shaCompress_length (alg : ShaAlg) (h : List (BitVec (shaWordBits alg))) (block : List Byte) :
    (shaCompress alg h block).length = h.length := by
  have h2 : ∀ {w : Nat} (ks : List (BitVec w)) (b0 b1 s0 s1 : BitVec w → BitVec w) (h ms : List (BitVec w)),
      (sha2Compress ks b0 b1 s0 s1 h ms).length = h.length := by
    intro w ks b0 b1 s0 s1 h ms
    simp only [sha2Compress]; split <;> rfl
  have h1 : ∀ h : List Word, (sha1Compress h block).length = h.length := by
    intro h
    rw [sha1Compress.eq_def]; split <;> rfl
  cases alg
  · exact h1 h
  · exact h2 _ _ _ _ _ _ _
  · exact h2 _ _ _ _ _ _ _
  · exact h2 _ _ _ _ _ _ _
  · exact h2 _ _ _ _ _ _ _

theorem shaAbsorb_length (alg : ShaAlg) (h : List (BitVec (shaWordBits alg))) (m : List Byte) :
    (shaAbsorb alg h m).length = h.length := by
  simp only [shaAbsorb]
  induction blocks (shaBlockBytes alg) m generalizing h with
  | nil => rfl
  | cons b bs ih => rw [List.foldl_cons, ih, shaCompress_length]

/-- Absorbing a message in two parts, the first of whole blocks (spec/43_sha.md R240). -/
theorem shaAbsorb_append (alg : ShaAlg) (h : List (BitVec (shaWordBits alg))) (m₁ m₂ : List Byte)
    (hm : m₁.length % shaBlockBytes alg = 0) :
    shaAbsorb alg h (m₁ ++ m₂) = shaAbsorb alg (shaAbsorb alg h m₁) m₂ := by
  simp only [shaAbsorb]
  rw [blocks_append _ _ _ hm (by cases alg <;> decide), List.foldl_append]

@[simp] theorem contextWords_length (alg : ShaAlg) (s : State) (c : BitVec 8) :
    (contextWords alg s c).length = shaWords alg := by simp [contextWords]

@[simp] theorem areaBytes_length (alg : ShaAlg) (hs : List (BitVec (shaWordBits alg))) :
    (areaBytes alg hs).length = shaWordBytes alg * hs.length := by
  rw [areaBytes, flatten_length_of_forall _ (shaWordBytes alg), List.length_map]
  intro b hb
  obtain ⟨h, _, rfl⟩ := List.mem_map.1 hb
  simp

theorem readShaState_ok (alg : ShaAlg) (s : State) (c : BitVec 8) (h : contextFits c (shaAreaBytes alg) = true) :
    readShaState alg s c = .ok (contextWords alg s c) := by
  simp only [readShaState, memRead_ok _ _ _ _ (outsideSb_context c _ h), bind, Except.bind, contextWords, Except.ok.injEq]
  apply List.map_congr_left
  intro i hi
  have hi := List.mem_range.1 hi
  have hle : i * shaWordBytes alg + shaWordBytes alg ≤ shaAreaBytes alg := by
    rw [← Nat.succ_mul, shaAreaBytes]; exact Nat.mul_le_mul_right _ hi
  simp only [shaWordOf, shaStateLayout]
  congr 2
  obtain ⟨m, hm⟩ : ∃ m, shaAreaBytes alg = i * shaWordBytes alg + (shaWordBytes alg + m) :=
    ⟨shaAreaBytes alg - (i * shaWordBytes alg + shaWordBytes alg), by omega⟩
  rw [hm, readBytes_append, List.drop_left' (by simp), readBytes_append, List.take_left' (by simp)]

theorem writeShaWords_ok (alg : ShaAlg) (c : BitVec 8) (i : Nat) (hs : List (BitVec (shaWordBits alg))) (s : State)
    (hc : contextFits c (shaAreaBytes alg) = true) (h : i + hs.length ≤ shaWords alg) :
    writeShaWords alg c i hs s =
      .ok (writeBytes s .scratchBuffer (contextOffset c + i * shaWordBytes alg) (areaBytes alg hs)) := by
  induction hs generalizing i s with
  | nil => simp [writeShaWords, areaBytes, writeBytes_nil]
  | cons w hs ih =>
    simp only [List.length_cons] at h
    have hle : i * shaWordBytes alg + shaWordBytes alg ≤ shaAreaBytes alg := by
      rw [← Nat.succ_mul, shaAreaBytes]; exact Nat.mul_le_mul_right _ (by omega)
    have hout : outsideSb .scratchBuffer (contextOffset c + shaStateLayout alg i)
        (toLe w.toNat (shaWordBytes alg)).length = false := by
      rw [← Bool.not_eq_true]
      simp only [contextFits, decide_eq_true_eq] at hc
      simp only [outsideSb, contextOffset, shaStateLayout, toLe_length, Bool.and_eq_true]
      rintro ⟨_, h'⟩
      have := of_decide_eq_true h'
      omega
    simp only [writeShaWords, memWrite_ok _ _ _ _ hout, bind, Except.bind]
    rw [ih (i + 1) _ (by omega)]
    have : areaBytes alg (w :: hs) = toLe w.toNat (shaWordBytes alg) ++ areaBytes alg hs := by simp [areaBytes]
    rw [this, writeBytes_append, toLe_length, Nat.succ_mul, Nat.add_assoc]
    rfl

/-- The SHA handler on a well-formed descriptor. -/
theorem shaHandler_ok (alg : ShaAlg) (d : ShaDesc) (s : State)
    (h : wfSha (shaAreaBytes alg) (shaBlockBytes alg) d = true) :
    shaHandler alg d s = .ok (writeBytes s .scratchBuffer (contextOffset d.contextId)
      (areaBytes alg ((shaResult alg d.flags.eom d.shaLen.toNat (contextWords alg s d.contextId)
        (readBytes s d.source.space d.source.address.toNat d.length.toNat)).take (shaWordsOut alg d.flags.eom)))) := by
  simp only [wfSha, Bool.and_eq_true] at h
  obtain ⟨⟨_, hc⟩, hs⟩ := h
  simp only [shaHandler, readShaState_ok alg s _ hc, readOperand_ok s d.source _ hs, bind, Except.bind]
  rw [writeShaWords_ok alg _ _ _ _ hc]
  · simp
  · rw [Nat.zero_add, List.length_take, shaResult, shaAbsorb_length, contextWords_length]
    exact Nat.min_le_right _ _

/-! ## RSA, Passthrough, ZLIB -/

/-- The RSA handler on a well-formed descriptor whose modulus is not zero. -/
theorem rsaHandler_ok (size : BitVec 12) (d : GenDesc) (s : State) (h : wfRsa size d = true)
    (hn : leNat (readBytes s d.source.space d.source.address.toNat size.toNat) ≠ 0) :
    rsaHandler size.toNat d s = .ok (writeBytes s d.dest.space d.dest.address.toNat
      (toLe (modExp (leNat (readBytes s d.source.space (d.source.address.toNat + size.toNat) size.toNat))
        (leNat (readBytes s d.key.space d.key.address.toNat size.toNat))
        (leNat (readBytes s d.source.space d.source.address.toNat size.toNat))) size.toNat)) := by
  simp only [wfRsa, Bool.and_eq_true] at h
  obtain ⟨⟨⟨_, hs⟩, hk⟩, hd⟩ := h
  simp only [rsaHandler, readOperand_ok s d.source _ hs, readOperand_ok s d.key _ hk, bind, Except.bind]
  rw [Nat.two_mul, readBytes_append, List.take_left' (by simp), List.drop_left' (by simp), if_neg hn,
    writeOperand_ok _ _ _ (by simpa using hd)]

/-- The RSA handler on a zero modulus (spec/44_rsa.md R255). -/
theorem rsaHandler_zero (size : BitVec 12) (d : GenDesc) (s : State) (h : wfRsa size d = true)
    (hn : leNat (readBytes s d.source.space d.source.address.toNat size.toNat) = 0) :
    rsaHandler size.toNat d s = .error (.violation .rsaZeroModulus) := by
  simp only [wfRsa, Bool.and_eq_true] at h
  obtain ⟨⟨⟨_, hs⟩, hk⟩, hd⟩ := h
  simp only [rsaHandler, readOperand_ok s d.source _ hs, readOperand_ok s d.key _ hk, bind, Except.bind]
  rw [Nat.two_mul, readBytes_append, List.take_left' (by simp), if_pos hn]

/-- The Passthrough handler on a well-formed descriptor, for a transformation that keeps the length. -/
theorem ptHandler_ok (swap : Bool) (f : List Byte → List Byte) (d : GenDesc) (s : State) (h : wfPt swap d = true)
    (hf : ∀ x : List Byte, x.length = d.length.toNat → (f x).length = d.length.toNat) :
    ptHandler f d s = .ok (writeBytes s d.dest.space d.dest.address.toNat
      (f (readBytes s d.source.space d.source.address.toNat d.length.toNat))) := by
  simp only [wfPt, Bool.and_eq_true] at h
  obtain ⟨⟨_, hs⟩, hd⟩ := h
  simp only [ptHandler, readOperand_ok s d.source _ hs, bind, Except.bind]
  exact writeOperand_ok _ _ _ (by rw [hf _ (by simp)]; exact hd)

theorem swapChunks_length (x : List Byte) (h : x.length % 32 = 0) : (swapChunks x).length = x.length := by
  rw [swapChunks, flatten_length_of_forall _ 32]
  · simp only [List.length_map, blocks, blocksOf_length]
    exact Nat.mul_div_cancel' (Nat.dvd_of_mod_eq_zero h)
  · intro b hb
    obtain ⟨c, hc, rfl⟩ := List.mem_map.1 hb
    rw [List.length_reverse]; exact blocks_mem_length _ _ _ hc

/-- All that the ZLIB handler can do on a well-formed descriptor. -/
theorem zlibHandler_eq (d : GenDesc) (s : State) (h : wfZlib d = true) :
    zlibHandler d s =
      match inflate (readBytes s d.source.space d.source.address.toNat d.length.toNat) with
      | none => .error (.fatal .zlibDataError)
      | some (out, _) =>
        if d.dest.fits out.length then .ok (writeBytes s d.dest.space d.dest.address.toNat out)
        else .error (.violation .sbOperandRange) := by
  simp only [wfZlib, Bool.and_eq_true] at h
  simp only [zlibHandler, readOperand_ok s d.source _ h.2, bind, Except.bind]
  cases inflate (readBytes s d.source.space d.source.address.toNat d.length.toNat) with
  | none => rfl
  | some p =>
    obtain ⟨out, u⟩ := p
    simp only []
    rw [overrunsSb_eq_not_fits]
    by_cases hf : d.dest.fits out.length = true
    · simp only [hf, Bool.not_true, Bool.false_eq_true, if_false]
      exact writeOperand_ok _ _ _ hf
    · simp [hf]

end Sys2Proof.Machine
end

