-- ==== Sys2Proof/Laws/PerInstr.lean ====
section
/-! SUPPORT. What holds of every instruction as syntax, one lemma per constructor. The family `encodedControl`: the control word that the
encoder makes carries the instruction's flags, no protected bit and no reserved bit (spec/30_encoding.md R101, R129). -/

namespace Sys2Proof

/-- The control word of the encoding gives the flags back and has no protected and no reserved bit set. -/
def Laws.encodedControl.Statement (i : Instr) : Prop :=
  fieldFlags (encode i) = i.flags ∧ fieldProt (encode i) = false ∧ bitAt (encode i).dw0 2 = false ∧
    (encode i).dw0.extractLsb' 25 7 = 0

theorem Laws.encodedControl_general (fn : BitVec 15) (e : BitVec 4) (d : GenDesc) :
    fieldFlags (packGeneral fn e d) = d.flags ∧ fieldProt (packGeneral fn e d) = false ∧
      bitAt (packGeneral fn e d).dw0 2 = false ∧ (packGeneral fn e d).dw0.extractLsb' 25 7 = 0 :=
  ⟨fieldFlags_packGeneral fn e d, packControl_prot _ _ _, packControl_bit2 _ _ _, packControl_top _ _ _⟩

theorem Laws.encodedControl_shaVariant (fn : BitVec 15) (d : ShaDesc) :
    fieldFlags (packSha fn d) = d.flags ∧ fieldProt (packSha fn d) = false ∧ bitAt (packSha fn d).dw0 2 = false ∧
      (packSha fn d).dw0.extractLsb' 25 7 = 0 :=
  ⟨fieldFlags_packSha fn d, packControl_prot _ _ _, packControl_bit2 _ _ _, packControl_top _ _ _⟩

theorem Laws.encodedControl.aesEcb (encrypt : Bool) (keyType : AesKey) (size : BitVec 7) (d : GenDesc) :
    Laws.encodedControl.Statement (.aesEcb encrypt keyType size d) := Laws.encodedControl_general _ _ d

theorem Laws.encodedControl.aesCbc (encrypt : Bool) (keyType : AesKey) (size : BitVec 7) (d : GenDesc) :
    Laws.encodedControl.Statement (.aesCbc encrypt keyType size d) := Laws.encodedControl_general _ _ d

theorem Laws.encodedControl.aesCfb (encrypt : Bool) (keyType : AesKey) (size : BitVec 7) (d : GenDesc) :
    Laws.encodedControl.Statement (.aesCfb encrypt keyType size d) := Laws.encodedControl_general _ _ d

theorem Laws.encodedControl.aesOfb (encrypt : Bool) (keyType : AesKey) (size : BitVec 7) (d : GenDesc) :
    Laws.encodedControl.Statement (.aesOfb encrypt keyType size d) := Laws.encodedControl_general _ _ d

theorem Laws.encodedControl.sha1 (d : ShaDesc) : Laws.encodedControl.Statement (.sha1 d) :=
  Laws.encodedControl_shaVariant _ d

theorem Laws.encodedControl.sha224 (d : ShaDesc) : Laws.encodedControl.Statement (.sha224 d) :=
  Laws.encodedControl_shaVariant _ d

theorem Laws.encodedControl.sha256 (d : ShaDesc) : Laws.encodedControl.Statement (.sha256 d) :=
  Laws.encodedControl_shaVariant _ d

theorem Laws.encodedControl.sha384 (d : ShaDesc) : Laws.encodedControl.Statement (.sha384 d) :=
  Laws.encodedControl_shaVariant _ d

theorem Laws.encodedControl.sha512 (d : ShaDesc) : Laws.encodedControl.Statement (.sha512 d) :=
  Laws.encodedControl_shaVariant _ d

theorem Laws.encodedControl.rsa (size : BitVec 12) (d : GenDesc) : Laws.encodedControl.Statement (.rsa size d) :=
  Laws.encodedControl_general _ _ d

theorem Laws.encodedControl.ptCopy (d : GenDesc) : Laws.encodedControl.Statement (.ptCopy d) :=
  Laws.encodedControl_general _ _ d

theorem Laws.encodedControl.ptSwap256 (d : GenDesc) : Laws.encodedControl.Statement (.ptSwap256 d) :=
  Laws.encodedControl_general _ _ d

theorem Laws.encodedControl.zlib (d : GenDesc) : Laws.encodedControl.Statement (.zlib d) :=
  Laws.encodedControl_general _ _ d

end Sys2Proof
end

