-- ==== Sys2Proof/Laws/Step.lean ====
section
/-! SUPPORT. What a step can do, said once: an iteration of a drain pass, an action of the Host, a step, an instruction. -/

namespace Sys2Proof.Machine

/-- A state reached from another by stores that the router allows. -/
inductive StoredBy (s : State) : State → Prop where
  | refl : StoredBy s s
  | store {u : State} (sp : MemSpace) (a : Nat) (bs : List Byte) :
      StoredBy s u → outsideSb sp a bs.length = false → StoredBy s (writeBytes u sp a bs)

theorem StoredBy.memWrite {s u v : State} {sp : MemSpace} {a : Nat} {bs : List Byte} (h : StoredBy s u)
    (hv : memWrite u sp a bs = .ok v) : StoredBy s v := by
  obtain ⟨ho, rfl⟩ := memWrite_cases u sp a bs v hv
  exact .store sp a bs h ho

/-- Stores change nothing but the two stores. -/
theorem StoredBy.eq {s u : State} (h : StoredBy s u) : u = { s with mem := u.mem, sb := u.sb } := by
  induction h with
  | refl => rfl
  | @store u sp a bs _ _ ih =>
    have : ∀ m b, ({ u with mem := m, sb := b } : State) = { s with mem := m, sb := b } := by
      intro m b
      rw [ih]
    cases sp <;> exact this _ _

/-- Stores keep the canonical form. -/
theorem StoredBy.storesWf {s u : State} (h : StoredBy s u) (hs : StoresWf s) : StoresWf u := by
  induction h with
  | refl => exact hs
  | store sp a bs _ _ ih => exact ih.writeBytes sp a bs

/-- Stores list no SB byte past the last (spec/20_memory.md R64). -/
theorem StoredBy.sbKeys {s u : State} (h : StoredBy s u) (hs : ∀ c ∈ s.sb, c.1 < Config.sbBytes) :
    ∀ c ∈ u.sb, c.1 < Config.sbBytes := by
  induction h with
  | refl => exact hs
  | @store u sp a bs _ ho ih =>
    cases sp with
    | system => exact ih
    | localMem => exact ih
    | scratchBuffer =>
      intro c hc
      rcases mem_cellsWriteBytes _ _ _ _ hc with hc | hc
      · exact ih c hc
      · rw [← Bool.not_eq_true] at ho
        by_contra hn
        exact ho (by simp only [outsideSb, Bool.and_eq_true, decide_eq_true_eq]; exact ⟨⟨rfl, by omega⟩, by omega⟩)

/-- The ways in which the state after an instruction is made: what stops it changes no store; what runs it makes stores before
the descriptor retires. -/
theorem exec_cases {i : Instr} {s t : State} (h : exec i s = .next t) :
    (∃ c, t = s.violate i.flags c) ∨ (∃ c, t = s.raiseFatal c) ∨
      (∃ u : State, StoredBy s u ∧ t = u.retire i.flags .ok) := by
  have hs : ∀ (alg : ShaAlg) (c : BitVec 8) (k : Nat) (hs : List (BitVec (shaWordBits alg))) (u v : State),
      StoredBy s u → writeShaWords alg c k hs u = .ok v → StoredBy s v := by
    intro alg c k hs
    induction hs generalizing k with
    | nil => intro u v hu hv; simp only [writeShaWords] at hv; cases hv; exact hu
    | cons w ws ih =>
      intro u v hu hv
      simp only [writeShaWords, bind, Except.bind] at hv
      split at hv
      · cases hv
      · next u' hu' => exact ih _ u' v (hu.memWrite hu') hv
  have fin : ∀ (f : Flags) (check : Option Cause) (handler : State → Except Stop State),
      (∀ u, handler s = .ok u → StoredBy s u) →
      runDescriptor f check handler s = .next t →
      (∃ c, t = s.violate f c) ∨ (∃ c, t = s.raiseFatal c) ∨
        (∃ u : State, StoredBy s u ∧ t = u.retire f .ok) := by
    intro f check handler hh hr
    rcases runDescriptor_cases hr with ⟨c, _, e⟩ | ⟨c, _, _, e⟩ | ⟨c, _, _, e⟩ | ⟨u, _, hu, e⟩
    · exact .inl ⟨c, e⟩
    · exact .inl ⟨c, e⟩
    · exact .inr (.inl ⟨c, e⟩)
    · exact .inr (.inr ⟨u, hh u hu, e⟩)
  have hecb : ∀ enc k d u, aesEcbHandler enc k d s = .ok u → StoredBy s u := by
    intro enc k d u hu
    simp only [aesEcbHandler, bind, Except.bind] at hu
    split at hu
    · cases hu
    · split at hu
      · cases hu
      · exact (StoredBy.refl).memWrite hu
  have hiv : ∀ f k d u, aesIvHandler f k d s = .ok u → StoredBy s u := by
    intro f k d u hu
    simp only [aesIvHandler, bind, Except.bind] at hu
    repeat' split at hu
    all_goals first
      | (cases hu)
      | (next hu' => exact ((StoredBy.refl).memWrite hu').memWrite hu)
  have hsha : ∀ alg d u, shaHandler alg d s = .ok u → StoredBy s u := by
    intro alg d u hu
    simp only [shaHandler, bind, Except.bind] at hu
    split at hu
    · cases hu
    · split at hu
      · cases hu
      · exact hs _ _ _ _ _ _ .refl hu
  have hrsa : ∀ n d u, rsaHandler n d s = .ok u → StoredBy s u := by
    intro n d u hu
    simp only [rsaHandler, bind, Except.bind] at hu
    split at hu
    · cases hu
    · split at hu
      · cases hu
      · split at hu
        · cases hu
        · exact (StoredBy.refl).memWrite hu
  have hpt : ∀ f d u, ptHandler f d s = .ok u → StoredBy s u := by
    intro f d u hu
    simp only [ptHandler, bind, Except.bind] at hu
    split at hu
    · cases hu
    · exact (StoredBy.refl).memWrite hu
  have hz : ∀ d u, zlibHandler d s = .ok u → StoredBy s u := by
    intro d u hu
    simp only [zlibHandler, bind, Except.bind] at hu
    split at hu
    · cases hu
    · split at hu
      · cases hu
      · split at hu
        · cases hu
        · exact (StoredBy.refl).memWrite hu
  cases i with
  | aesEcb => exact fin _ _ _ (hecb _ _ _) h
  | aesCbc => exact fin _ _ _ (hiv _ _ _) h
  | aesCfb => exact fin _ _ _ (hiv _ _ _) h
  | aesOfb => exact fin _ _ _ (hiv _ _ _) h
  | sha1 => exact fin _ _ _ (hsha _ _) h
  | sha224 => exact fin _ _ _ (hsha _ _) h
  | sha256 => exact fin _ _ _ (hsha _ _) h
  | sha384 => exact fin _ _ _ (hsha _ _) h
  | sha512 => exact fin _ _ _ (hsha _ _) h
  | rsa => exact fin _ _ _ (hrsa _ _) h
  | ptCopy => exact fin _ _ _ (hpt _ _) h
  | ptSwap256 => exact fin _ _ _ (hpt _ _) h
  | zlib => exact fin _ _ _ (hz _) h

/-- All that one iteration of a drain pass can do (spec/40_queue_engine.md R142). -/
theorem drainStep_cases (s : State) :
    ((s.queue s.active).run = false ∧ drainStep s = .next s.endPass) ∨
    ((s.queue s.active).run = true ∧ ∃ c, checkSanity (s.queue s.active) = some c ∧ drainStep s = .next (s.raiseFatal c)) ∨
    ((s.queue s.active).run = true ∧ checkSanity (s.queue s.active) = none ∧
      ringIndex (s.queue s.active) (s.queue s.active).head = ringIndex (s.queue s.active) (s.queue s.active).tail ∧
      drainStep s = .next s.endPass) ∨
    ((s.queue s.active).run = true ∧ checkSanity (s.queue s.active) = none ∧
      ringIndex (s.queue s.active) (s.queue s.active).head ≠ ringIndex (s.queue s.active) (s.queue s.active).tail ∧
      ((∃ c, decode s.params (fetchWords s (s.queue s.active)) = .error c ∧
          drainStep s = .next (s.violate (fieldFlags (fetchWords s (s.queue s.active))) c)) ∨
        ∃ i, decode s.params (fetchWords s (s.queue s.active)) = .ok i ∧ drainStep s = exec i s)) := by
  cases hr : (s.queue s.active).run with
  | false => exact .inl ⟨rfl, by simp [drainStep, hr]⟩
  | true =>
    cases hc : checkSanity (s.queue s.active) with
    | some c => exact .inr (.inl ⟨rfl, c, rfl, by simp [drainStep, hr, hc]⟩)
    | none =>
      by_cases hi : ringIndex (s.queue s.active) (s.queue s.active).head =
          ringIndex (s.queue s.active) (s.queue s.active).tail
      · exact .inr (.inr (.inl ⟨rfl, rfl, hi, by simp [drainStep, hr, hc, hi]⟩))
      · refine .inr (.inr (.inr ⟨rfl, rfl, hi, ?_⟩))
        cases hd : decode s.params (fetchWords s (s.queue s.active)) with
        | error c => exact .inl ⟨c, rfl, by simp [drainStep, hr, hc, hi, executeNext, hd]⟩
        | ok i => exact .inr ⟨i, rfl, by simp [drainStep, hr, hc, hi, executeNext, hd]⟩

/-- All that a step which answers a next state can do (spec/00_scope.md R10). -/
theorem step_cases {s t : State} (h : step s = .next t) :
    s.fatal = none ∧
      ((s.draining = true ∧ drainStep s = .next t) ∨ (s.draining = false ∧ hostStep s = .next t)) := by
  simp only [step] at h
  split at h
  · cases h
  · next hf =>
    refine ⟨hf, ?_⟩
    cases hd : s.draining with
    | true => exact .inl ⟨rfl, by simpa [hd] using h⟩
    | false => exact .inr ⟨rfl, by simpa [hd] using h⟩

/-- All that an action of the Host can do when it answers a next state. -/
theorem hostStep_cases {s t : State} (h : hostStep s = .next t) :
    (s.host = [] ∧ t = s) ∨
    (∃ o rest, s.host = .regRead o 32 :: rest ∧ accessDefined s.params o 32 = true ∧
      t = { s with host := rest, hostReply := some (.word (readRegister { s with host := rest } (registerAt s.params o))) }) ∨
    (∃ o v rest, s.host = .regWrite o 32 v :: rest ∧ accessDefined s.params o 32 = true ∧
      refusedWrite v (registerAt s.params o) = false ∧
      t = writeRegister { s with host := rest } v (registerAt s.params o)) ∨
    (∃ a n rest, s.host = .memRead a n :: rest ∧ a + n ≤ 2 ^ 64 ∧
      t = { s with host := rest, hostReply := some (.bytes (readBytes s .system a n)) }) ∨
    (∃ a bs rest, s.host = .memWrite a bs :: rest ∧ a + bs.length ≤ 2 ^ 64 ∧
      t = { s with host := rest, mem := cellsWriteBytes s.mem a bs }) := by
  have hwidth : ∀ o w, accessDefined s.params o w = true → w = 32 := by
    intro o w hw
    simp only [accessDefined, Bool.and_eq_true, beq_iff_eq] at hw
    exact hw.1.1
  simp only [hostStep] at h
  split at h
  · next he => cases h; exact .inl ⟨he, rfl⟩
  · next op rest he =>
    cases op with
    | regRead o w =>
      simp only [hostAction] at h
      split at h
      · next hd =>
        obtain rfl := hwidth o w hd
        cases h
        exact .inr (.inl ⟨o, rest, he, hd, rfl⟩)
      · cases h
    | regWrite o w v =>
      simp only [hostAction] at h
      split at h
      · next hd =>
        obtain rfl := hwidth o w hd
        split at h
        · cases h
        · next hr => cases h; exact .inr (.inr (.inl ⟨o, v, rest, he, hd, by simpa using hr, rfl⟩))
      · cases h
    | memRead a n =>
      simp only [hostAction] at h
      split at h
      · next hd => cases h; exact .inr (.inr (.inr (.inl ⟨a, n, rest, he, hd, rfl⟩)))
      · cases h
    | memWrite a bs =>
      simp only [hostAction] at h
      split at h
      · next hd => cases h; exact .inr (.inr (.inr (.inr ⟨a, bs, rest, he, hd, rfl⟩)))
      · cases h

/-! ## Runs -/

theorem core_run_zero (s : State) : Host.Core.run Sys2Proof.core 0 s = .next s := rfl

theorem run_succ_of_step (M : Host.Core) (n : Nat) (s t : M.State) (h : M.step s = .next t) :
    Host.Core.run M (n + 1) s = Host.Core.run M n t := by simp [Host.Core.run, h]

theorem core_run_succ {s t : State} (n : Nat) (h : step s = .next t) :
    Host.Core.run Sys2Proof.core (n + 1) s = Host.Core.run Sys2Proof.core n t := run_succ_of_step Sys2Proof.core n s t h

end Sys2Proof.Machine
end

