-- ==== Sys2Proof/Laws/Registers.lean ====
section
/-! SUPPORT. Which register an offset names, and what a Host access of it comes to. -/

namespace Sys2Proof.Machine

theorem queueBase_add (q : QueueId) (r : Nat) : queueBase q + r = 0x1000 + q.index * 0x1000 + r := rfl

/-- The registers of a queue's page, by their offset inside it. -/
theorem registerAt_queue (p : Params) (q : QueueId) (r : Nat) (h : r < 0x1000) :
    registerAt p (queueBase q + r) = queueRegister p q (queueBase q + r) := by
  generalize ho : queueBase q + r = o
  rw [queueBase_add] at ho
  simp only [registerAt]
  cases q <;> rw [QueueId.index] at ho <;> repeat rw [if_neg (by omega)]
  all_goals rw [if_pos (by omega)]

theorem queueBase_mod (q : QueueId) (r : Nat) (h : r < 0x1000) : (queueBase q + r) % 0x1000 = r := by
  rw [queueBase_add]
  cases q <;> rw [QueueId.index] <;> omega

theorem registerAt_control (p : Params) (q : QueueId) : registerAt p (queueBase q + 0x000) = .control q := by
  rw [registerAt_queue p q _ (by decide), queueRegister, queueBase_mod q _ (by decide)]; rfl

theorem registerAt_tail (p : Params) (q : QueueId) : registerAt p (queueBase q + 0x004) = .tail q := by
  rw [registerAt_queue p q _ (by decide), queueRegister, queueBase_mod q _ (by decide)]; rfl

theorem registerAt_head (p : Params) (q : QueueId) : registerAt p (queueBase q + 0x008) = .head q := by
  rw [registerAt_queue p q _ (by decide), queueRegister, queueBase_mod q _ (by decide)]; rfl

theorem registerAt_interruptEnable (p : Params) (q : QueueId) :
    registerAt p (queueBase q + 0x00C) = .interruptEnable q := by
  rw [registerAt_queue p q _ (by decide), queueRegister, queueBase_mod q _ (by decide)]; rfl

theorem registerAt_interruptStatus (p : Params) (q : QueueId) :
    registerAt p (queueBase q + 0x010) = .interruptStatus q := by
  rw [registerAt_queue p q _ (by decide), queueRegister, queueBase_mod q _ (by decide)]; rfl

theorem registerAt_status (p : Params) (q : QueueId) : registerAt p (queueBase q + 0x100) = .status q := by
  rw [registerAt_queue p q _ (by decide), queueRegister, queueBase_mod q _ (by decide)]; rfl

theorem registerAt_intStatus (p : Params) (q : QueueId) : registerAt p (queueBase q + 0x104) = .intStatus q := by
  rw [registerAt_queue p q _ (by decide), queueRegister, queueBase_mod q _ (by decide)]; rfl

/-- The misc region is every offset from 0x6000 on, and nothing else is. -/
theorem registerAt_misc (p : Params) (o : Nat) (h : 0x6000 ≤ o) : registerAt p o = .misc o := by
  simp only [registerAt]
  repeat rw [if_neg (by omega)]

theorem registerAt_eq_misc (p : Params) (o x : Nat) (h : registerAt p o = .misc x) : x = o ∧ 0x6000 ≤ o := by
  have hg : globalRegister p o ≠ .misc x := by
    simp only [globalRegister, unnamedRegister]; repeat' split
    all_goals simp
  have hq : ∀ q, queueRegister p q o ≠ .misc x := by
    intro q
    simp only [queueRegister, unnamedRegister]; repeat' split
    all_goals simp
  simp only [registerAt] at h
  split at h
  · exact absurd h hg
  · split at h
    · exact absurd h (hq _)
    · split at h
      · exact absurd h (hq _)
      · split at h
        · exact absurd h (hq _)
        · split at h
          · exact absurd h (hq _)
          · split at h
            · exact absurd h (hq _)
            · injection h with h; omega

/-- A queue's registers are at aligned offsets inside every window. -/
theorem accessDefined_queue (p : Params) (q : QueueId) (r : Nat) (h : r < 0x1000) (h4 : r % 4 = 0) :
    accessDefined p (queueBase q + r) 32 = true := by
  generalize ho : queueBase q + r = o
  rw [queueBase_add] at ho
  simp only [accessDefined, Bool.and_eq_true, Bool.or_eq_true, decide_eq_true_eq, beq_iff_eq]
  cases q <;> rw [QueueId.index] at ho <;> exact ⟨⟨trivial, by omega⟩, .inl (by omega)⟩

/-- A step in which the Host reads a register. -/
theorem step_regRead {s : State} {o : Nat} {rest : List HostOp} (h : HostReads s o rest)
    (ha : accessDefined s.params o 32 = true) :
    step s = .next { s with host := rest, hostReply := some (.word (readRegister { s with host := rest } (registerAt s.params o))) } := by
  simp [step, h.alive, h.idle, hostStep, h.host, hostAction, ha]

/-- Only a control write is ever refused for its value. -/
theorem refusedWrite_eq_false (v : Word) (r : RegName) (h : ∀ q, r ≠ .control q) : refusedWrite v r = false := by
  cases r <;> first | rfl | exact absurd rfl (h _)

/-- A step in which the Host writes a register with a value that is not refused. -/
theorem step_regWrite {s : State} {o : Nat} {v : Word} {rest : List HostOp} (h : HostWrites s o v rest)
    (ha : accessDefined s.params o 32 = true) (hv : refusedWrite v (registerAt s.params o) = false) :
    step s = .next (writeRegister { s with host := rest } v (registerAt s.params o)) := by
  simp [step, h.alive, h.idle, hostStep, h.host, hostAction, ha, hv]

/-- A step in which the Host writes a register with a value that is refused. -/
theorem step_regWrite_refused {s : State} {o : Nat} {v : Word} {rest : List HostOp} (h : HostWrites s o v rest)
    (ha : accessDefined s.params o 32 = true) (hv : refusedWrite v (registerAt s.params o) = true) :
    step s = .refused .ringSizeCode := by
  simp [step, h.alive, h.idle, hostStep, h.host, hostAction, ha, hv]

/-- A step in which the Host reads guest memory. -/
theorem step_memRead {s : State} {a n : Nat} {rest : List HostOp} (hf : s.fatal = none) (hd : s.draining = false)
    (hh : s.host = .memRead a n :: rest) :
    step s = if a + n ≤ 2 ^ 64 then
        .next { s with host := rest, hostReply := some (.bytes (readBytes { s with host := rest } .system a n)) }
      else .fault .noSuchAddress := by
  simp [step, hf, hd, hostStep, hh, hostAction]

/-- A step in which the Host writes guest memory. -/
theorem step_memWrite {s : State} {a : Nat} {bs : List Byte} {rest : List HostOp} (hf : s.fatal = none)
    (hd : s.draining = false) (hh : s.host = .memWrite a bs :: rest) :
    step s = if a + bs.length ≤ 2 ^ 64 then .next (writeBytes { s with host := rest } .system a bs)
      else .fault .noSuchAddress := by
  simp [step, hf, hd, hostStep, hh, hostAction]

end Sys2Proof.Machine
end

