-- ==== Sys2Proof/Laws/Ring.lean ====
section
/-! SUPPORT. The arithmetic of the ring: what the checks and the head advance come to as numbers. -/

namespace Sys2Proof.Machine

theorem ringSize_pos (q : Queue) : 0 < ringSize q := by simp [ringSize]

theorem rawIndex_lt (q : Queue) (p : Word) : rawIndex q p < 2 ^ 27 := by
  have := (p - q.base).isLt
  simp only [rawIndex]
  omega

theorem ringIndex_lt_ringSize (q : Queue) (p : Word) : ringIndex q p < ringSize q := Nat.mod_lt _ (ringSize_pos q)

theorem ringIndex_lt (q : Queue) (p : Word) : ringIndex q p < 2 ^ 27 := Nat.lt_of_le_of_lt (Nat.mod_le _ _) (rawIndex_lt q p)

/-- The advanced head lies a whole number of descriptors past the base. -/
theorem nextHead_aligned (q : Queue) : (nextHead q - q.base).toNat % 32 = 0 := by
  simp only [nextHead]
  generalize (ringIndex q q.head + 1) % ringSize q = k
  rw [BitVec.toNat_sub, BitVec.toNat_ofNat]
  have := q.base.isLt
  omega

/-- The raw index of the advanced head. The 32-bit truncation matters only when the ring is longer than the address space. -/
theorem rawIndex_nextHead (q : Queue) : rawIndex q (nextHead q) = ((ringIndex q q.head + 1) % ringSize q) % 2 ^ 27 := by
  simp only [rawIndex, nextHead]
  generalize (ringIndex q q.head + 1) % ringSize q = k
  rw [BitVec.toNat_sub, BitVec.toNat_ofNat]
  have := q.base.isLt
  omega

/-- The ring fits the address space up to size code 26. -/
theorem ringSize_le (q : Queue) (h : q.sizeCode.toNat ≤ 26) : ringSize q ≤ 2 ^ 27 := by
  have : 2 ^ q.sizeCode.toNat ≤ 2 ^ 26 := Nat.pow_le_pow_right (by decide) h
  simp only [ringSize]
  omega

/-- Some queue has a pending interrupt. -/
theorem anyPending_iff (s : State) : anyPending s.queues = true ↔ ∃ q, (s.queue q).interruptStatus ≠ 0 := by
  simp only [anyPending, Bool.or_eq_true, bne_iff_ne]
  constructor
  · rintro ((((h | h) | h) | h) | h)
    exacts [⟨.q0, h⟩, ⟨.q1, h⟩, ⟨.q2, h⟩, ⟨.q3, h⟩, ⟨.q4, h⟩]
  · rintro ⟨q, h⟩
    cases q <;> simp_all [State.queue, Queues.get]

end Sys2Proof.Machine
end

