-- ==== Sys2Proof/Tests/Slice0.lean ====
section
/-! SUPPORT. Tests: ill-formed terms that each check refuses, a written-out word for every constructor, one step of every instruction
against the spec's worked examples, and for every statement with hypotheses a witness that meets them. A worked example or
vector names its place in spec/; no expected value comes from the model. -/

namespace Sys2Proof.Tests

open Sys2Proof.Machine

-- One theorem at a time: evaluations waiting for each other would each hold a thread of their own.
set_option Elab.async false

/-! ## Helpers -/

/-- Bytes written as one number, the byte at the lowest address first. -/
def hex (n v : Nat) : List Byte := toBe v n

/-- The parameters of this hardware with a concrete place for the scratch register. -/
def params0 : Params := ⟨.fatal, .mustBeZero, 1, 0xFFFFFFFF, 0x1000, 0x30⟩

/-- The same under the error-interrupt policy. -/
def paramsErr : Params := { params0 with violationPolicy := .errorInterrupt }

/-- A Running queue with a ring of 8 entries at 0x1000 and two descriptors pending. -/
def queue0 : Queue := ⟨true, false, 2, 0x1000, 0x1000, 0x1040, 3, 0, 0, 0⟩

/-- A block in a drain pass of queue 0. -/
def block (p : Params) (q : Queue) (mem sb : List Host.Cell) : State :=
  { State.resetWith p false sb mem with
    queues := { (State.resetWith p false sb mem).queues with q0 := q }
    draining := true }

/-- An alive block with Host actions pending. -/
def waiting (host : List HostOp) : State := { State.resetWith params0 false [] [] with host := host }

/-- Guest memory that holds byte strings at addresses. -/
def memory (l : List (Nat × List Byte)) : List Host.Cell := l.foldl (fun m p => cellsWriteBytes m p.1 p.2) []

/-- The bytes of eight words. -/
def desc (d : DescWords) : List Byte := bytesOfWords d

def isNext (o : Host.Outcome State Fault Refusal) : Bool :=
  match o with
  | .next _ => true
  | _ => false

/-- The next state; the block of `params0` after reset where there is none. -/
def after (o : Host.Outcome State Fault Refusal) : State :=
  match o with
  | .next s => s
  | _ => State.resetWith params0 false [] []

theorem after_eq (o : Host.Outcome State Fault Refusal) (h : isNext o = true) : o = .next (after o) := by
  cases o <;> first | rfl | cases h

def noFlags : Flags := ⟨false, false, false, false⟩
def eomFlags : Flags := ⟨false, false, false, true⟩
def zlibFlags : Flags := ⟨true, false, true, true⟩

/-- A descriptor of the general variant from System 0x2000 to System 0x3000 with its key at System 0x2800. -/
def gen (f : Flags) (length : Word) (contextId : BitVec 8) : GenDesc :=
  ⟨f, length, ⟨.system, 0x2000⟩, contextId, ⟨.system, 0x3000⟩, ⟨.system, 0x2800⟩⟩

/-- A SHA descriptor of a message at System 0x2000 with its state in slot 2. -/
def sha (eom : Bool) (length : Word) (shaLen : BitVec 64) : ShaDesc :=
  ⟨⟨false, false, false, eom⟩, length, ⟨.system, 0x2000⟩, 2, shaLen, ⟨.system, 0⟩⟩

/-! ## Ill-formed terms, each refused by its check, and the well-formed neighbour at the boundary -/

/-- spec/42_aes.md R211 -/
theorem test_wf_aes_size : validate params0 (.aesEcb true .k128 1 (gen noFlags 16 0)) = some .reservedBits ∧ (.aesEcb true .k128 1 (gen noFlags 16 0) : Instr).wf params0 = false ∧
    (.aesEcb true .k128 0 (gen noFlags 16 0) : Instr).wf params0 = true := by decide

/-- spec/42_aes.md R212 -/
theorem test_wf_aes_length : validate params0 (.aesCbc true .k128 0 (gen noFlags 15 0)) = some .aesBadLength ∧ (.aesCbc true .k128 0 (gen noFlags 15 0) : Instr).wf params0 = false ∧
    (.aesCbc true .k128 0 (gen noFlags 0 0) : Instr).wf params0 = true := by decide

/-- spec/42_aes.md R213 -/
theorem test_wf_aes_context : validate params0 (.aesOfb true .k128 0 (gen noFlags 16 128)) = some .contextRange ∧ (.aesOfb true .k128 0 (gen noFlags 16 128) : Instr).wf params0 = false ∧
    (.aesOfb true .k128 0 (gen noFlags 16 127) : Instr).wf params0 = true := by decide

/-- spec/30_encoding.md R116, source -/
theorem test_wf_aes_source : validate params0 (.aesEcb true .k128 0 { gen noFlags 16 0 with source := ⟨.scratchBuffer, 4081⟩ }) = some .sbOperandRange ∧ (.aesEcb true .k128 0 { gen noFlags 16 0 with source := ⟨.scratchBuffer, 4081⟩ } : Instr).wf params0 = false ∧
    (.aesEcb true .k128 0 { gen noFlags 16 0 with source := ⟨.scratchBuffer, 4080⟩ } : Instr).wf params0 = true := by decide

/-- spec/30_encoding.md R116, destination -/
theorem test_wf_aes_dest : validate params0 (.aesCfb true .k128 0 { gen noFlags 16 0 with dest := ⟨.scratchBuffer, 4081⟩ }) = some .sbOperandRange ∧ (.aesCfb true .k128 0 { gen noFlags 16 0 with dest := ⟨.scratchBuffer, 4081⟩ } : Instr).wf params0 = false ∧
    (.aesCfb true .k128 0 { gen noFlags 16 0 with dest := ⟨.scratchBuffer, 4080⟩ } : Instr).wf params0 = true := by decide

/-- spec/30_encoding.md R116, key -/
theorem test_wf_aes_key : validate params0 (.aesEcb true .k256 0 { gen noFlags 16 0 with key := ⟨.scratchBuffer, 4065⟩ }) = some .sbOperandRange ∧ (.aesEcb true .k256 0 { gen noFlags 16 0 with key := ⟨.scratchBuffer, 4065⟩ } : Instr).wf params0 = false ∧
    (.aesEcb true .k256 0 { gen noFlags 16 0 with key := ⟨.scratchBuffer, 4064⟩ } : Instr).wf params0 = true := by decide

/-- spec/43_sha.md R233 a -/
theorem test_wf_sha_bits : validate params0 (.sha1 (sha true 3 25)) = some .shaBadLength ∧ (.sha1 (sha true 3 25) : Instr).wf params0 = false ∧
    (.sha1 (sha true 3 24) : Instr).wf params0 = true := by decide

/-- spec/43_sha.md R233 b -/
theorem test_wf_sha_total : validate params0 (.sha256 (sha true 4 24)) = some .shaBadLength ∧ (.sha256 (sha true 4 24) : Instr).wf params0 = false ∧
    (.sha256 (sha true 0 0) : Instr).wf params0 = true := by decide

/-- spec/43_sha.md R233 c: 63 bytes before this call, against 64 -/
theorem test_wf_sha_before : validate params0 (.sha224 (sha true 3 528)) = some .shaUnaligned ∧ (.sha224 (sha true 3 528) : Instr).wf params0 = false ∧
    (.sha224 (sha true 3 536) : Instr).wf params0 = true := by decide

/-- spec/43_sha.md R233 d -/
theorem test_wf_sha_after : validate params0 (.sha512 (sha false 64 512)) = some .shaUnaligned ∧ (.sha512 (sha false 64 512) : Instr).wf params0 = false ∧
    (.sha512 (sha false 128 1024) : Instr).wf params0 = true := by decide

/-- spec/43_sha.md R234 -/
theorem test_wf_sha_context : validate params0 (.sha384 { sha true 3 24 with contextId := 127 }) = some .contextRange ∧ (.sha384 { sha true 3 24 with contextId := 127 } : Instr).wf params0 = false ∧
    (.sha384 { sha true 3 24 with contextId := 126 } : Instr).wf params0 = true := by decide

/-- spec/30_encoding.md R116 -/
theorem test_wf_sha_source : validate params0 (.sha1 { sha true 3 24 with source := ⟨.scratchBuffer, 4094⟩ }) = some .sbOperandRange ∧ (.sha1 { sha true 3 24 with source := ⟨.scratchBuffer, 4094⟩ } : Instr).wf params0 = false ∧
    (.sha1 { sha true 3 24 with source := ⟨.scratchBuffer, 4093⟩ } : Instr).wf params0 = true := by decide

/-- spec/44_rsa.md R252 -/
theorem test_wf_rsa_length : validate params0 (.rsa 2 (gen noFlags 5 0)) = some .rsaBadLength ∧ (.rsa 2 (gen noFlags 5 0) : Instr).wf params0 = false ∧
    (.rsa 2 (gen noFlags 4 0) : Instr).wf params0 = true := by decide

/-- spec/30_encoding.md R116, source -/
theorem test_wf_rsa_source : validate params0 (.rsa 2 { gen noFlags 4 0 with source := ⟨.scratchBuffer, 4093⟩ }) = some .sbOperandRange ∧ (.rsa 2 { gen noFlags 4 0 with source := ⟨.scratchBuffer, 4093⟩ } : Instr).wf params0 = false ∧
    (.rsa 2 { gen noFlags 4 0 with source := ⟨.scratchBuffer, 4092⟩ } : Instr).wf params0 = true := by decide

/-- spec/30_encoding.md R116, key -/
theorem test_wf_rsa_key : validate params0 (.rsa 2 { gen noFlags 4 0 with key := ⟨.scratchBuffer, 4095⟩ }) = some .sbOperandRange ∧ (.rsa 2 { gen noFlags 4 0 with key := ⟨.scratchBuffer, 4095⟩ } : Instr).wf params0 = false ∧
    (.rsa 2 { gen noFlags 4 0 with key := ⟨.scratchBuffer, 4094⟩ } : Instr).wf params0 = true := by decide

/-- spec/30_encoding.md R116, destination -/
theorem test_wf_rsa_dest : validate params0 (.rsa 2 { gen noFlags 4 0 with dest := ⟨.scratchBuffer, 4095⟩ }) = some .sbOperandRange ∧ (.rsa 2 { gen noFlags 4 0 with dest := ⟨.scratchBuffer, 4095⟩ } : Instr).wf params0 = false ∧
    (.rsa 2 { gen noFlags 4 0 with dest := ⟨.scratchBuffer, 4094⟩ } : Instr).wf params0 = true := by decide

/-- spec/45_passthrough.md R261 -/
theorem test_wf_pt_eom : validate params0 (.ptCopy (gen noFlags 7 0)) = some .ptNoEom ∧ (.ptCopy (gen noFlags 7 0) : Instr).wf params0 = false ∧
    (.ptCopy (gen eomFlags 7 0) : Instr).wf params0 = true := by decide

/-- spec/45_passthrough.md R262 -/
theorem test_wf_pt_length : validate params0 (.ptSwap256 (gen eomFlags 33 0)) = some .ptBadLength ∧ (.ptSwap256 (gen eomFlags 33 0) : Instr).wf params0 = false ∧
    (.ptSwap256 (gen eomFlags 32 0) : Instr).wf params0 = true := by decide

/-- spec/30_encoding.md R116, source -/
theorem test_wf_pt_source : validate params0 (.ptCopy { gen eomFlags 32 0 with source := ⟨.scratchBuffer, 4065⟩ }) = some .sbOperandRange ∧ (.ptCopy { gen eomFlags 32 0 with source := ⟨.scratchBuffer, 4065⟩ } : Instr).wf params0 = false ∧
    (.ptCopy { gen eomFlags 32 0 with source := ⟨.scratchBuffer, 4064⟩ } : Instr).wf params0 = true := by decide

/-- spec/30_encoding.md R116, destination -/
theorem test_wf_pt_dest : validate params0 (.ptSwap256 { gen eomFlags 32 0 with dest := ⟨.scratchBuffer, 4065⟩ }) = some .sbOperandRange ∧ (.ptSwap256 { gen eomFlags 32 0 with dest := ⟨.scratchBuffer, 4065⟩ } : Instr).wf params0 = false ∧
    (.ptSwap256 { gen eomFlags 32 0 with dest := ⟨.scratchBuffer, 4064⟩ } : Instr).wf params0 = true := by decide

/-- spec/46_zlib.md R271 -/
theorem test_wf_zlib_flags : validate params0 (.zlib (gen ⟨true, true, true, true⟩ 10 0)) = some .zlibBadFlags ∧ (.zlib (gen ⟨true, true, true, true⟩ 10 0) : Instr).wf params0 = false ∧
    (.zlib (gen zlibFlags 10 0) : Instr).wf params0 = true := by decide

/-- spec/46_zlib.md R272 -/
theorem test_wf_zlib_source : validate params0 (.zlib { gen zlibFlags 10 0 with source := ⟨.scratchBuffer, 4087⟩ }) = some .sbOperandRange ∧ (.zlib { gen zlibFlags 10 0 with source := ⟨.scratchBuffer, 4087⟩ } : Instr).wf params0 = false ∧
    (.zlib { gen zlibFlags 10 0 with source := ⟨.scratchBuffer, 4086⟩ } : Instr).wf params0 = true := by decide

/-- spec/42_aes.md R211: with `AES_SIZE_CHECK = ignored` the `size` sub-field is not examined. -/
theorem test_wf_aes_size_ignored :
    (Instr.aesEcb true .k128 1 (gen noFlags 16 0)).wf { params0 with aesSizeCheck := .ignored } = true := by decide

/-! ## Decoding: the words of spec/95_test_vectors.md V-ENC, written out -/

/-- V-ENC-1 -/
theorem test_decode_aesEcb : decode params0 ⟨0x00001000, 0x00000010, 0x00002000, 0x00000000, 0x00003000, 0x00000000, 0x00002800, 0x00000000⟩ = .ok (.aesEcb true .k128 0 (gen noFlags 16 0)) := by rfl

/-- V-ENC-3 -/
theorem test_decode_aesCbc : decode params0 ⟨0x00082000, 0x00000020, 0x00002000, 0x00040000, 0x00003000, 0x00000000, 0x00002800, 0x00000000⟩ = .ok (.aesCbc false .k256 0 (gen noFlags 32 1)) := by rfl

/-- V-ENC-4 -/
theorem test_decode_aesCfb : decode params0 ⟨0x00007000, 0x00000020, 0x00002000, 0x00040000, 0x00003000, 0x00000000, 0x00002800, 0x00000000⟩ = .ok (.aesCfb true .k128 0 (gen noFlags 32 1)) := by rfl

/-- V-ENC-5 -/
theorem test_decode_aesOfb : decode params0 ⟨0x00045000, 0x00000020, 0x00002000, 0x00040000, 0x00003000, 0x00000000, 0x00002800, 0x00000000⟩ = .ok (.aesOfb true .k192 0 (gen noFlags 32 1)) := by rfl

/-- V-ENC-6 -/
theorem test_decode_sha1 : decode params0 ⟨0x00308010, 0x00000003, 0x00002000, 0x00080000, 0x00000018, 0x00000000, 0x00000000, 0x00000000⟩ = .ok (.sha1 (sha true 3 24)) := by rfl

/-- V-ENC-7 -/
theorem test_decode_sha224 : decode params0 ⟨0x00310010, 0x00000003, 0x00002000, 0x00080000, 0x00000018, 0x00000000, 0x00000000, 0x00000000⟩ = .ok (.sha224 (sha true 3 24)) := by rfl

/-- V-ENC-8 -/
theorem test_decode_sha256 : decode params0 ⟨0x00318010, 0x00000003, 0x00002000, 0x00080000, 0x00000018, 0x00000000, 0x00000000, 0x00000000⟩ = .ok (.sha256 (sha true 3 24)) := by rfl

/-- V-ENC-9 -/
theorem test_decode_sha384 : decode params0 ⟨0x00320010, 0x00000003, 0x00002000, 0x00080000, 0x00000018, 0x00000000, 0x00000000, 0x00000000⟩ = .ok (.sha384 (sha true 3 24)) := by rfl

/-- V-ENC-11: both halves of `sha_len` -/
theorem test_decode_sha512 : decode params0 ⟨0x00328000, 0x00000080, 0x00002000, 0x00080000, 0x00000400, 0x00000001, 0x00000000, 0x00000000⟩ = .ok (.sha512 (sha false 128 0x100000400)) := by rfl

/-- V-ENC-12 -/
theorem test_decode_rsa : decode params0 ⟨0x00410000, 0x00000200, 0x00004000, 0x00000000, 0x00004400, 0x00000000, 0x00004200, 0x00000000⟩ = .ok (.rsa 256 ⟨noFlags, 512, ⟨.system, 0x4000⟩, 0, ⟨.system, 0x4400⟩, ⟨.system, 0x4200⟩⟩) := by rfl

/-- V-ENC-17: a 48-bit address, three spaces -/
theorem test_decode_ptCopy : decode params0 ⟨0x00500010, 0x00000020, 0x56789abc, 0x00021234, 0x00000fe0, 0x00010000, 0x00000000, 0x00000000⟩ = .ok (.ptCopy ⟨eomFlags, 32, ⟨.localMem, 0x123456789abc⟩, 0, ⟨.scratchBuffer, 0xfe0⟩, ⟨.system, 0⟩⟩) := by rfl

/-- V-ENC-16 -/
theorem test_decode_ptSwap256 : decode params0 ⟨0x00500050, 0x00000020, 0x00002000, 0x00000000, 0x00000040, 0x00010000, 0x00000000, 0x00000000⟩ = .ok (.ptSwap256 ⟨eomFlags, 32, ⟨.system, 0x2000⟩, 0, ⟨.scratchBuffer, 0x40⟩, ⟨.system, 0⟩⟩) := by rfl

/-- V-ENC-19 -/
theorem test_decode_zlib : decode params0 ⟨0x00600019, 0x0000000a, 0x00006100, 0x00000000, 0x00006200, 0x00000000, 0x00000000, 0x00000000⟩ = .ok (.zlib ⟨zlibFlags, 10, ⟨.system, 0x6100⟩, 0, ⟨.system, 0x6200⟩, ⟨.system, 0⟩⟩) := by rfl

/-- spec/30_encoding.md R127: the worked example's bytes, through the opcode table's numbering of bits. -/
theorem test_decode_bytes : decodeTableWord 256 (leNat (hex 32
    0x1300500020000000002000000000000000300000000000000000000000000000)) =
    some (.ptCopy ⟨⟨true, true, false, true⟩, 32, ⟨.system, 0x2000⟩, 0, ⟨.system, 0x3000⟩, ⟨.system, 0⟩⟩) := by decide +kernel

/-! ## One step of every instruction -/

/-- The step of a block that fetches the descriptor `d` at 0x1000. -/
def run (d : DescWords) (mem : List (Nat × List Byte)) (sb : List Host.Cell) : State :=
  after (step (block params0 queue0 (memory ((0x1000, desc d) :: mem)) sb))

/-- spec/42_aes.md R216 -/
theorem test_aesEcb : readBytes (run ⟨0x00001000, 0x10, 0x2000, 0, 0x3000, 0, 0x2800, 0⟩
    [(0x2000, hex 16 0x00112233445566778899aabbccddeeff), (0x2800, hex 16 0x0f0e0d0c0b0a09080706050403020100)] [])
    .system 0x3000 16 = hex 16 0x69c4e0d86a7b0430d8cdb78070b4c55a := by decide +kernel

/-- spec/42_aes.md R216 the other way round: FIPS 197's block decrypts to its plaintext. -/
theorem test_aesEcb_decrypt : readBytes (run ⟨0x00000000, 0x10, 0x2000, 0, 0x3000, 0, 0x2800, 0⟩
    [(0x2000, hex 16 0x69c4e0d86a7b0430d8cdb78070b4c55a), (0x2800, hex 16 0x0f0e0d0c0b0a09080706050403020100)] [])
    .system 0x3000 16 = hex 16 0x00112233445566778899aabbccddeeff := by decide +kernel

/-- spec/42_aes.md R217 -/
theorem test_aesCbc :
    let t := run ⟨0x00003000, 0x20, 0x2000, 0x00040000, 0x3000, 0, 0x2800, 0⟩
      [(0x2000, hex 32 0x6bc1bee22e409f96e93d7e117393172aae2d8a571e03ac9c9eb76fac45af8e51), (0x2800, hex 16 0x3c4fcf098815f7aba6d2ae2816157e2b)] (memory [(32, hex 16 0x0f0e0d0c0b0a09080706050403020100)])
    readBytes t .system 0x3000 32 = hex 32 0x7649abac8119b246cee98e9b12e9197d5086cb9b507219ee95db113a917678b2 ∧
      readBytes t .scratchBuffer 32 16 = hex 16 0xb27876913a11db95ee1972509bcb8650 := by decide +kernel

/-- spec/42_aes.md R218 -/
theorem test_aesCfb :
    let t := run ⟨0x00007000, 0x20, 0x2000, 0x00040000, 0x3000, 0, 0x2800, 0⟩
      [(0x2000, hex 32 0x6bc1bee22e409f96e93d7e117393172aae2d8a571e03ac9c9eb76fac45af8e51), (0x2800, hex 16 0x3c4fcf098815f7aba6d2ae2816157e2b)] (memory [(32, hex 16 0x0f0e0d0c0b0a09080706050403020100)])
    readBytes t .system 0x3000 32 = hex 32 0x3b3fd92eb72dad20333449f8e83cfb4ac8a64537a0b3a93fcde3cdad9f1ce58b ∧
      readBytes t .scratchBuffer 32 16 = hex 16 0x8be51c9fadcde3cd3fa9b3a03745a6c8 := by decide +kernel

/-- spec/42_aes.md R219, with the `encrypt` bit 0 -/
theorem test_aesOfb :
    let t := run ⟨0x00004000, 0x20, 0x2000, 0x00040000, 0x3000, 0, 0x2800, 0⟩
      [(0x2000, hex 32 0x6bc1bee22e409f96e93d7e117393172aae2d8a571e03ac9c9eb76fac45af8e51), (0x2800, hex 16 0x3c4fcf098815f7aba6d2ae2816157e2b)] (memory [(32, hex 16 0x0f0e0d0c0b0a09080706050403020100)])
    readBytes t .system 0x3000 32 = hex 32 0x3b3fd92eb72dad20333449f8e83cfb4a7789508d16918f03f53c52dac54ed825 ∧
      readBytes t .scratchBuffer 32 16 = hex 16 0x7456e180763d8b6b9f239208dadaa4d9 := by decide +kernel

/-- spec/43_sha.md R242 -/
theorem test_sha1 : readBytes (run ⟨0x00308010, 3, 0x2000, 0x00080000, 0x18, 0, 0, 0⟩
    [(0x2000, hex 3 0x616263)] (memory [(64, hex 20
      0x0123456789abcdeffedcba9876543210f0e1d2c3)]))
    .scratchBuffer 64 20 = hex 20
      0x363e99a96a81064771253eba6cc250789dd8d09c := by decide +kernel

/-- spec/43_sha.md R243: word 7 keeps its bytes -/
theorem test_sha224 : readBytes (run ⟨0x00310010, 3, 0x2000, 0x00080000, 0x18, 0, 0, 0⟩
    [(0x2000, hex 3 0x616263)] (memory [(64, hex 32
      0xd89e05c107d57c3617dd703039590ef7310bc0ff11155868a78ff964a44ffabe)]))
    .scratchBuffer 64 32 = hex 32
      0x227d092322d8053477a44286b355a2bde4bcad2af7b3a0bda79d6ce3a44ffabe := by decide +kernel

/-- spec/43_sha.md R244 -/
theorem test_sha256 : readBytes (run ⟨0x00318010, 3, 0x2000, 0x00080000, 0x18, 0, 0, 0⟩
    [(0x2000, hex 3 0x616263)] (memory [(64, hex 32
      0x67e6096a85ae67bb72f36e3c3af54fa57f520e518c68059babd9831f19cde05b)]))
    .scratchBuffer 64 32 = hex 32
      0xbf1678baeacf018fde4041412322ae5da36103b09c7a179661ff10b4ad1500f2 := by decide +kernel

/-- spec/95_test_vectors.md V-SHA-4 -/
theorem test_sha384 : readBytes (run ⟨0x00320010, 3, 0x2000, 0x00080000, 0x18, 0, 0, 0⟩
    [(0x2000, hex 3 0x616263)] (memory [(64, hex 64
      0xd89e05c15d9dbbcb07d57c362a299a6217dd70305a01599139590ef7d8ec2f15310bc0ff6726336711155868874ab48ea78ff9640d2e0cdba44ffabe1d48b547)]))
    .scratchBuffer 64 64 = hex 64
      0x8b5ea3453f7500cb0750c69a693da0b563d1de0eab322c27ed5bff435a608b1a23cce7a12b078680a725c834a1ecba58a78ff9640d2e0cdba44ffabe1d48b547 := by decide +kernel

/-- spec/95_test_vectors.md V-SHA-5 -/
theorem test_sha512 : readBytes (run ⟨0x00328010, 3, 0x2000, 0x00080000, 0x18, 0, 0, 0⟩
    [(0x2000, hex 3 0x616263)] (memory [(64, hex 64
      0x08c9bcf367e6096a3ba7ca8485ae67bb2bf894fe72f36e3cf1361d5f3af54fa5d182e6ad7f520e511f6c3e2b8c68059b6bbd41fbabd9831f79217e1319cde05b)]))
    .scratchBuffer 64 64 = hex 64
      0xba7a6193a135afdd314120ae497341cca27ea9894efae6129ad3554be6ee9e0aa8c14f272a999221bdebfea3233cba360ee83c6423444d459fa44ca54fc99a2a := by decide +kernel

/-- spec/44_rsa.md R254 -/
theorem test_rsa : readBytes (run ⟨0x00400200, 4, 0x2000, 0, 0x3000, 0, 0x2800, 0⟩
    [(0x2000, hex 4 0xa10c4100), (0x2800, hex 2 0x1100)] []) .system 0x3000 2 = hex 2 0xe60a := by decide +kernel

/-- spec/44_rsa.md R255 b: a zero modulus is fatal under the default policy, and `head` stays. -/
theorem test_rsa_zero :
    let t := run ⟨0x00400200, 4, 0x2000, 0, 0x3000, 0, 0x2800, 0⟩ [(0x2000, hex 4 0x00004100)] []
    t.fatal = some .rsaZeroModulus ∧ t.queues.q0 = queue0 := by decide +kernel

/-- spec/45_passthrough.md R263, into the SB, with `ioc` and the completion enable set: the event and the mirrors. -/
theorem test_ptCopy :
    let t := run ⟨0x00500012, 4, 0x2000, 0, 0xffc, 0x00010000, 0, 0⟩ [(0x2000, hex 4 0x01020304)] []
    readBytes t .scratchBuffer 0xffc 4 = hex 4 0x01020304 ∧ t.irq = true ∧
      t.queues.q0 = { queue0 with head := 0x1020, interruptStatus := 1, intStatus := 1 } := by decide +kernel

/-- spec/45_passthrough.md R265: overlapping operands behave as a copy through a buffer. -/
theorem test_ptCopy_overlap : readBytes (run ⟨0x00500010, 4, 0x2000, 0, 0x2001, 0, 0, 0⟩
    [(0x2000, hex 4 0x01020304)] []) .system 0x2000 5 = hex 5 0x0101020304 := by decide +kernel

/-- spec/45_passthrough.md R264 -/
theorem test_ptSwap256 : readBytes (run ⟨0x00500050, 64, 0x2000, 0, 0x3000, 0, 0, 0⟩
    [(0x2000, hex 32 0x000102030405060708090a0b0c0d0e0f101112131415161718191a1b1c1d1e1f),
      (0x2020, hex 32 0x202122232425262728292a2b2c2d2e2f303132333435363738393a3b3c3d3e3f)] []) .system 0x3000 64 =
    hex 32 0x1f1e1d1c1b1a191817161514131211100f0e0d0c0b0a09080706050403020100 ++
      hex 32 0x3f3e3d3c3b3a393837363534333231302f2e2d2c2b2a29282726252423222120 := by decide +kernel

/-- spec/46_zlib.md R273: "hello", and the queue halts (R270). -/
theorem test_zlib :
    let t := run ⟨0x00600019, 10, 0x2000, 0, 0x3000, 0, 0, 0⟩ [(0x2000, hex 10 0x010500faff68656c6c6f)] []
    readBytes t .system 0x3000 5 = hex 5 0x68656c6c6f ∧ t.draining = false ∧
      t.queues.q0 = { queue0 with head := 0x1020, run := false, halt := true, intStatus := 1 } := by decide +kernel

/-- spec/46_zlib.md R275: a stored block whose two lengths disagree. -/
theorem test_zlib_data_error :
    (run ⟨0x00600019, 10, 0x2000, 0, 0x3000, 0, 0, 0⟩ [(0x2000, hex 10 0x010500fbff68656c6c6f)] []).fatal =
      some .zlibDataError := by decide +kernel

/-- RFC 1951 3.2.7, encoded by hand: a block with 32 distance code lengths (`HDIST` 31) that holds "a" and a match of length 3 at
distance 1. -/
theorem test_inflate_hdist : inflate (hex 18 0x0ddf0501002000c0b0aceb5fe2c7dddd3108) = some (hex 4 0x61616161, 18) := by
  decide +kernel

/-- FIPS 180-4 4.2.3: each round constant is the first 64 bits of the fractional part of the cube root of a prime. -/
theorem test_sha_constants : ((List.range 410).filter Nat.Prime).length = 80 ∧
    (((List.range 410).filter Nat.Prime).zip sha512Constants).all (fun (p, k) =>
      let c := (Nat.findGreatest (fun r => r ^ 3 ≤ p) 8) * 2 ^ 64 + k.toNat
      c ^ 3 ≤ p * 2 ^ 192 && p * 2 ^ 192 < (c + 1) ^ 3) = true := by decide +kernel

/-- spec/41_register_interface.md R188: one pending bit of two cleared leaves the line up, the other lowers it. -/
theorem test_acknowledge :
    let s := { waiting [.regWrite 0x1010 32 1, .regWrite 0x1010 32 2] with
      queues := { (waiting []).queues with q0 := { queue0 with interruptStatus := 3 } }, irq := true }
    (after (step s)).queues.q0.interruptStatus = 2 ∧ (after (step s)).irq = true ∧
      (after (step (after (step s)))).queues.q0.interruptStatus = 0 ∧ (after (step (after (step s)))).irq = false := by
  decide +kernel

/-- spec/41_register_interface.md R180: `RegWrite(qb(0), 0x11)`. -/
theorem test_control_write :
    let t := after (step (waiting [.regWrite 0x1000 32 0x11]))
    t.queues.q0.run = true ∧ t.queues.q0.halt = false ∧ t.queues.q0.sizeCode = 2 ∧ t.draining = true := by decide +kernel

/-- spec/95_test_vectors.md V-REG-2, the masks of the control register, with the largest size code that is not refused; and the
refusal of its own value (spec/93_implementation_defined.md U7). -/
theorem test_control_masks :
    let t := after (step (waiting [.regWrite 0x2000 32 0xFFFFFFF7, .regRead 0x2000 32]))
    t.queues.q1.sizeCode = 30 ∧ readRegister t (registerAt params0 0x2000) = 0xF3 ∧ (after (step t)).draining = false ∧
      step (waiting [.regWrite 0x2000 32 0xFFFFFFFF]) = .refused .ringSizeCode :=
  ⟨by decide +kernel, by decide +kernel, by decide +kernel, rfl⟩

/-- spec/00_scope.md R10: the Host writes guest memory and reads it. -/
theorem test_host_memory :
    (after (step (after (step (waiting [.memWrite 0x2000 [1, 2], .memRead 0x1FFF 4]))))).hostReply =
      some (.bytes [0, 1, 2, 0]) := by decide +kernel

/-- The machine of the host's interface, from its reset state: the descriptor placed is the one that runs. -/
theorem test_withFetchWord :
    let t := after (step (State.reset.withFetchWord 32 0x00500010))
    t.fatal = none ∧ t.queues.q0.head = 0x20 := by decide +kernel
/-! ## Witnesses: for every statement with hypotheses, a state and operands that meet all of them -/

/-- A block about to execute the descriptor `d`. -/
def at1000 (p : Params) (q : Queue) (d : DescWords) (mem : List (Nat × List Byte)) : State :=
  block p q (memory ((0x1000, desc d) :: mem)) []

def copyWords : DescWords := ⟨0x00500010, 4, 0x2000, 0, 0x3000, 0, 0, 0⟩

/-- A block about to execute a PT.COPY. -/
def copying : State := at1000 params0 queue0 copyWords [(0x2000, hex 4 0x01020304)]

theorem storesWf_of (s : State) (h : (Memory.wf s.mem && cellsWf s.sb) = true) : StoresWf s := by
  rw [Bool.and_eq_true] at h
  exact ⟨h.1, h.2⟩

theorem executing_of (s : State) (h : (s.fatal == none && s.draining && (s.queue s.active).run &&
    (checkSanity (s.queue s.active) == none) &&
    (ringIndex (s.queue s.active) (s.queue s.active).head != ringIndex (s.queue s.active) (s.queue s.active).tail)) = true) :
    Executing s := by
  simp only [Bool.and_eq_true, beq_iff_eq, bne_iff_ne] at h
  exact ⟨h.1.1.1.1, h.1.1.1.2, h.1.1.2, h.1.2, h.2⟩

theorem witness_EncodeDecodeRoundTrip :
    (Instr.rsa 4095 (gen noFlags 8190 255)).wf params0 = true ∧ (desc copyWords).length = 32 ∧
      decodeFields (wordsOfBytes (desc copyWords)) = .ok (.ptCopy { gen eomFlags 4 0 with key := ⟨.system, 0⟩ }) := by
  decide +kernel

theorem witness_DecodeIsSound :
    decode params0 copyWords = .ok (.ptCopy { gen eomFlags 4 0 with key := ⟨.system, 0⟩ }) ∧
      decode params0 ⟨0x00100010, 0, 0, 0, 0, 0, 0, 0⟩ = .error .badEngine := by decide +kernel

/-- One word for each branch, the last branch in the SHA variant, where words 4 and 5 are no destination. -/
theorem witness_DecodeNamesTheFirstFailedCheck :
    decode params0 ⟨0x01F00014, 0, 0, 0x80030000, 0, 0, 0, 0⟩ = .error .badEngine ∧
    decode params0 ⟨0x01500014, 0, 0, 0x80030000, 0, 0, 0, 0⟩ = .error .protectedBit ∧
    decode params0 ⟨0x00500014, 0, 0, 0x80030000, 0, 0, 0, 0⟩ = .error .reservedBits ∧
    decode params0 ⟨0x00500010, 0, 0, 0, 0, 0x40000000, 0, 0⟩ = .error .reservedBits ∧
    decode params0 ⟨0x00500010, 0, 0, 0x80030000, 0, 0, 0, 0⟩ = .error .fixedAddress ∧
    decode params0 ⟨0x00500010, 0, 0, 0, 0, 0x80000000, 0, 0⟩ = .error .fixedAddress ∧
    decode params0 ⟨0x00500010, 0, 0, 0x00030000, 0, 0, 0, 0⟩ = .error .badMemSpace ∧
    decode params0 ⟨0x00500010, 0, 0, 0, 0, 0x00030000, 0, 0⟩ = .error .badMemSpace ∧
    decode params0 ⟨0x00308010, 0, 0, 0, 0, 0, 0, 0x00030000⟩ = .error .badMemSpace ∧
    decode params0 ⟨0x00500010, 0, 0, 0, 0, 0, 0, 0⟩ = .ok (.ptCopy ⟨eomFlags, 0, ⟨.system, 0⟩, 0, ⟨.system, 0⟩, ⟨.system, 0⟩⟩) := by
  decide +kernel

/-- The last SB byte and the one after it. -/
theorem witness_RouterReadGivesTheBytes :
    memRead copying .scratchBuffer 4095 1 = .ok [0] ∧ memRead copying .scratchBuffer 4096 0 = .ok [] ∧
      memRead copying .scratchBuffer 4096 1 = .error (.fatal .sbOutOfRange) ∧
      memRead copying .system 0x2000 4 = .ok (hex 4 0x01020304) := by decide +kernel

theorem witness_RouterWriteChangesExactlyTheRange : StoresWf copying ∧
    memWrite copying .scratchBuffer 4096 [1] = .error (.fatal .sbOutOfRange) ∧
      (match memWrite copying .scratchBuffer 4095 [1] with
        | .ok t => t.sb == [(4095, 1)]
        | .error _ => false) = true :=
  ⟨storesWf_of _ (by decide +kernel), by decide +kernel, by decide +kernel⟩

/-- The examples of spec/40_queue_engine.md R144, one for each branch: Halted, misaligned head, head out of range, misaligned tail, tail
one ring past the base (index 0, so Idle), tail further, tail below the base, Idle, pending. -/
theorem witness_DrainPassTests :
    let s (q : Queue) : State := at1000 params0 q copyWords []
    let f (q : Queue) : Option Cause := (after (step (s q))).fatal
    (∀ q, (s q).fatal = none ∧ (s q).draining = true) ∧
    (after (step (s { queue0 with run := false, head := 1 }))).draining = false ∧
    f { queue0 with head := 0x1010 } = some .ringMisaligned ∧ f { queue0 with head := 0x1120 } = some .ringIndexRange ∧
    f { queue0 with tail := 0x1010 } = some .ringMisaligned ∧
    f { queue0 with tail := 0x1100 } = none ∧ (after (step (s { queue0 with tail := 0x1100 }))).draining = false ∧
    f { queue0 with tail := 0x1120 } = some .ringIndexRange ∧ f { queue0 with tail := 0x0FE0 } = some .ringIndexRange ∧
    (after (step (s { queue0 with tail := 0x1000 }))).draining = false ∧
    (after (step (s queue0))).queues.q0.head = 0x1020 := by
  refine ⟨fun q => ⟨rfl, rfl⟩, ?_⟩
  decide +kernel

theorem executing_copying : Executing copying := executing_of _ (by decide +kernel)

theorem witness_StepRunsTheDecodedInstruction : Executing copying ∧
    decode copying.params (fetchWords copying (copying.queue copying.active)) =
      .ok (.ptCopy { gen eomFlags 4 0 with key := ⟨.system, 0⟩ }) := ⟨executing_copying, by decide +kernel⟩

/-- spec/40_queue_engine.md R147: from the last ring entry to the base; the largest size code of the second clause. -/
theorem witness_HeadAdvanceWrapsAtTheRingSize :
    nextHead { queue0 with head := 0x10E0 } = 0x1000 ∧ (26#5).toNat ≤ 26 ∧
      nextHead { queue0 with sizeCode := 26, base := 0xFFFFFFE0, head := 0xFFFFFFE0 } = 0 := by decide +kernel

theorem step_copying : step copying = .next (after (step copying)) := after_eq _ (by decide +kernel)

theorem witness_EachDescriptorMovesTheHeadByOne : Executing copying ∧
    (copying.queue copying.active).sizeCode.toNat ≤ 26 ∧ step copying = .next (after (step copying)) ∧
      (after (step copying)).fatal = none := ⟨executing_copying, by decide, step_copying, by decide +kernel⟩

theorem witness_DrainPassEnds : copying.fatal = none ∧ copying.draining = true ∧
    pendingCount (copying.queue copying.active) = 2 := by decide +kernel

theorem witness_DrainPassFrame : copying.draining = true ∧ step copying = .next (after (step copying)) :=
  ⟨rfl, step_copying⟩

/-- The same memory and SB behind two different queues. -/
theorem witness_HandlerCannotSeeTheQueue :
    let i := Instr.ptCopy (gen eomFlags 4 0)
    let s₂ : State := { copying with active := .q3, queuePriority := 7 }
    copying.mem = s₂.mem ∧ copying.sb = s₂.sb ∧ copying.params = s₂.params ∧ copying.fatal = s₂.fatal ∧ copying.active ≠ s₂.active ∧
      exec i copying = .next (after (exec i copying)) ∧ exec i s₂ = .next (after (exec i s₂)) :=
  ⟨rfl, rfl, rfl, rfl, by decide, after_eq _ (by decide +kernel), after_eq _ (by decide +kernel)⟩

/-- Both branches: a stopping descriptor, also one that fails, and one that does not stop. -/
theorem witness_StopOnCompletionHalts :
    let stop := Instr.ptCopy (gen ⟨true, false, false, true⟩ 4 0)
    let go := Instr.ptCopy (gen eomFlags 4 0)
    let bad := Instr.ptCopy (gen ⟨true, false, false, false⟩ 4 0)
    let s : State := { copying with params := paramsErr }
    s.fatal = none ∧ exec stop s = .next (after (exec stop s)) ∧ (after (exec stop s)).fatal = none ∧
      exec go s = .next (after (exec go s)) ∧ (after (exec go s)).fatal = none ∧
      exec bad s = .next (after (exec bad s)) ∧ (after (exec bad s)).fatal = none ∧
      (after (exec bad s)).queues.q0.halt = true ∧ (after (exec bad s)).queues.q0.status = 1 :=
  ⟨rfl, after_eq _ (by decide +kernel), by decide +kernel, after_eq _ (by decide +kernel), by decide +kernel,
    after_eq _ (by decide +kernel), by decide +kernel, by decide +kernel, by decide +kernel⟩

def badWords : DescWords := ⟨0x00700013, 4, 0x2000, 0, 0x3000, 0, 0, 0⟩

/-- Under both policies; with `soc` and `ioc` set the failed descriptor signals and halts. -/
theorem witness_UndecodableDescriptorOutcome :
    let s := at1000 params0 queue0 badWords []
    let s' := at1000 paramsErr queue0 badWords []
    Executing s ∧ decode s.params (fetchWords s (s.queue s.active)) = .error .badEngine ∧ Executing s' ∧
      decode s'.params (fetchWords s' (s'.queue s'.active)) = .error .badEngine ∧
      (after (step s)).fatal = some .badEngine ∧ (after (step s')).queues.q0 =
        { queue0 with head := 0x1020, run := false, halt := true, interruptStatus := 2, status := 1, intStatus := 2 } :=
  ⟨executing_of _ (by decide +kernel), by decide +kernel, executing_of _ (by decide +kernel), by decide +kernel,
    by decide +kernel, by decide +kernel⟩

theorem witness_IllegalInstructionOutcome :
    validate copying.params (.ptCopy (gen noFlags 4 0)) = some .ptNoEom := by decide +kernel

theorem witness_FatalIsTerminal :
    ({ copying with fatal := some .badEngine } : State).fatal = some .badEngine := rfl

theorem witness_FatalChangesNothingElse :
    let s := at1000 params0 queue0 badWords []
    s.draining = true ∧ step s = .next (after (step s)) ∧ (after (step s)).fatal ≠ none :=
  ⟨rfl, after_eq _ (by decide +kernel), by decide +kernel⟩

theorem witness_SbOutOfRangeCannotOccur : step copying = .next (after (step copying)) := step_copying

/-- One step for each cause the statement allows. -/
theorem witness_FatalCausesUnderErrorInterrupt :
    let f (s : State) (c : Cause) : Bool :=
      s.params.violationPolicy == .errorInterrupt && isNext (step s) && (after (step s)).fatal == some c
    f (at1000 paramsErr { queue0 with tail := 0x1010 } copyWords []) .ringMisaligned = true ∧
    f (at1000 paramsErr { queue0 with tail := 0x1120 } copyWords []) .ringIndexRange = true ∧
    f { waiting [.regWrite 8 32 1] with params := paramsErr } .reqIdNonZero = true ∧
    f (at1000 paramsErr queue0 ⟨0x00600019, 0, 0, 0, 0, 0, 0, 0⟩ []) .zlibDataError = true := by decide +kernel

/-- Both clauses for both results. -/
theorem witness_EventIsMaskedAtTheSource :
    (copying.queue .q0).interruptEnable.getLsbD 0 = true ∧ (copying.queue .q0).interruptEnable.getLsbD 1 = true ∧
      (copying.queue .q1).interruptEnable.getLsbD 0 = false ∧ (copying.queue .q1).interruptEnable.getLsbD 1 = false := by
  decide

/-- The first and the last queue. -/
theorem witness_AcknowledgeClearsWrittenOnes :
    HostWrites (waiting [.regWrite 0x1010 32 3]) (queueBase .q0 + 0x010) 3 [] ∧
      HostWrites (waiting [.regWrite 0x5010 32 3]) (queueBase .q4 + 0x010) 3 [] :=
  ⟨⟨rfl, rfl, rfl⟩, ⟨rfl, rfl, rfl⟩⟩

/-- The line up with a pending bit, before an action of the Host. -/
theorem witness_IrqIsTheOrOfPendingBits :
    let s : State := { waiting [.regWrite 0x1010 32 3] with
      queues := { (waiting []).queues with q0 := { queue0 with interruptStatus := 1 } }, irq := true }
    (s.irq = true ↔ ∃ q, (s.queue q).interruptStatus ≠ 0) ∧ step s = .next (after (step s)) :=
  ⟨⟨fun _ => ⟨.q0, by decide⟩, fun _ => rfl⟩, after_eq _ (by decide +kernel)⟩

theorem witness_RegisterReadChangesNothing :
    HostReads (waiting [.regRead 0x6FFC 32]) 0x6FFC [] ∧ 0x6FFC % 4 = 0 ∧ 0x6FFC < regWindowSize params0 :=
  ⟨⟨rfl, rfl, rfl⟩, by decide, by decide⟩

theorem witness_GlobalRegisterReads : ∀ o ∈ [0x0000, 0x0004, 0x0008, 0x000C, 0x0018, 0x001C, 0x0020, 0x0024],
    HostReads (waiting [.regRead o 32]) o [] := fun _ _ => ⟨rfl, rfl, rfl⟩

/-- Every offset of the first and the last queue. -/
theorem witness_QueueRegisterReads : ∀ o ∈ [0x000, 0x004, 0x008, 0x00C, 0x010, 0x100, 0x104],
    HostReads (waiting [.regRead (0x1000 + o) 32]) (queueBase .q0 + o) [] ∧
      HostReads (waiting [.regRead (0x5000 + o) 32]) (queueBase .q4 + o) [] :=
  fun _ _ => ⟨⟨rfl, rfl, rfl⟩, ⟨rfl, rfl, rfl⟩⟩

/-- Each offset; the largest size code that a control write may carry, and the refused one. -/
theorem witness_RingRegisterWritesStartAPass :
    (∀ o ∈ [0x000, 0x004, 0x008], ∀ v, HostWrites (waiting [.regWrite (0x2000 + o) 32 v]) (queueBase .q1 + o) v []) ∧
      (0xF1 : Word).extractLsb' 3 5 = 30 ∧ (0xF9 : Word).extractLsb' 3 5 = 31 :=
  ⟨fun _ _ _ => ⟨rfl, rfl, rfl⟩, by decide, by decide⟩

theorem witness_InterruptEnableWrite :
    HostWrites (waiting [.regWrite 0x300C 32 3]) (queueBase .q2 + 0x00C) 3 [] := ⟨rfl, rfl, rfl⟩

/-- Every offset, and the request-id with 0 and with another value. -/
theorem witness_WritesOfRegistersThatStoreNothing :
    (∀ o ∈ [0x0000, 0x0008, 0x000C, 0x0018, 0x001C, 0x0020, 0x0024, queueBase .q0 + 0x100, queueBase .q4 + 0x104],
      HostWrites (waiting [.regWrite o 32 0]) o 0 []) ∧
    HostWrites (waiting [.regWrite 0x0008 32 1]) 0x0008 1 [] ∧ (1 : Word) ≠ 0 :=
  ⟨fun _ _ => ⟨rfl, rfl, rfl⟩, ⟨rfl, rfl, rfl⟩, by decide⟩

/-- The first and the last word of the misc region, read back as themselves and as the other. -/
theorem witness_PassThroughRegisters :
    let s := waiting [.regWrite 0x6000 32 5, .regRead 0x6FFC 32]
    let s' := waiting [.regWrite 0x6FFC 32 5, .regRead 0x6FFC 32]
    s.fatal = none ∧ s.draining = false ∧ cellsWf s.misc = true ∧ 0x6000 % 4 = 0 ∧ 0x6FFC % 4 = 0 ∧
      0x6FFC < regWindowSize s.params ∧ s'.fatal = none ∧ s'.draining = false ∧
      HostWrites (waiting [.regWrite 0x0004 32 5]) 0x0004 5 [] ∧ HostReads (waiting [.regRead 0x0004 32]) 0x0004 [] :=
  ⟨rfl, rfl, rfl, rfl, rfl, by decide, rfl, rfl, ⟨rfl, rfl, rfl⟩, ⟨rfl, rfl, rfl⟩⟩

/-- The ends of each range, read and written. -/
theorem witness_UnimplementedOffsets : ∀ o ∈ [0x0010, 0x0014, 0x0028, 0x0FFC, 0x1014, 0x1108, 0x5FFC],
    o % 4 = 0 ∧ o ≠ params0.scratchRegOffset ∧ unnamedOffset o := by decide

theorem witness_PassThroughRegisters_scratch :
    params0.scratchRegOffset % 4 = 0 ∧ unnamedOffset params0.scratchRegOffset ∧
      HostWrites (waiting [.regWrite 0x30 32 5]) params0.scratchRegOffset 5 [] ∧
      HostReads (waiting [.regRead 0x30 32]) params0.scratchRegOffset [] :=
  ⟨rfl, by decide, ⟨rfl, rfl, rfl⟩, ⟨rfl, rfl, rfl⟩⟩

theorem witness_UnimplementedOffsets_host : ∀ o,
    HostReads (waiting [.regRead o 32]) o [] ∧ HostWrites (waiting [.regWrite o 32 1]) o 1 [] :=
  fun _ => ⟨⟨rfl, rfl, rfl⟩, ⟨rfl, rfl, rfl⟩⟩

/-- Each of the three other shapes, of a read and of a write. -/
theorem witness_OtherAccessShapesAreRefused :
    (waiting [.regRead 0 16]).fatal = none ∧ (waiting [.regRead 0 16]).draining = false ∧
      (16 ≠ 32 ∧ 0x1002 % 4 ≠ 0 ∧ regWindowSize params0 ≤ 0x7000) ∧
      (waiting [.regRead 0 16]).host = .regRead 0 16 :: [] ∧
      (waiting [.regWrite 0x1002 32 1]).host = .regWrite 0x1002 32 1 :: [] ∧
      (waiting [.regRead 0x7000 32]).host = .regRead 0x7000 32 :: [] :=
  ⟨rfl, rfl, by decide, rfl, rfl, rfl⟩

/-- An action that marks a pass, and one that does not. -/
theorem witness_HostCannotReachTheSb :
    let s := waiting [.regWrite 0x1004 32 0x40]
    let s' := waiting [.memRead 0 8]
    s.draining = false ∧ step s = .next (after (step s)) ∧ (after (step s)).draining = true ∧
      s'.draining = false ∧ step s' = .next (after (step s')) ∧ (after (step s')).draining = false :=
  ⟨rfl, after_eq _ (by decide +kernel), rfl, rfl, after_eq _ (by decide +kernel), rfl⟩

/-- Up to the last address, and one byte past it. -/
theorem witness_HostReadsGuestMemory :
    let s := waiting [.memRead (2 ^ 64 - 2) 2]
    let s' := waiting [.memRead (2 ^ 64 - 2) 3]
    s.fatal = none ∧ s.draining = false ∧ s.host = .memRead (2 ^ 64 - 2) 2 :: [] ∧ 2 ^ 64 - 2 + 2 ≤ 2 ^ 64 ∧
      s'.host = .memRead (2 ^ 64 - 2) 3 :: [] ∧ 2 ^ 64 < 2 ^ 64 - 2 + 3 := ⟨rfl, rfl, rfl, by decide, rfl, by decide⟩

/-- Up to the last address, and one byte past it. -/
theorem witness_HostWritesGuestMemory :
    let s := waiting [.memWrite (2 ^ 64 - 2) [1, 2]]
    let s' := waiting [.memWrite (2 ^ 64 - 2) [1, 2, 3]]
    StoresWf s ∧ s.fatal = none ∧ s.draining = false ∧ s.host = .memWrite (2 ^ 64 - 2) [1, 2] :: [] ∧
      2 ^ 64 - 2 + [1, 2].length ≤ 2 ^ 64 ∧ StoresWf s' ∧ s'.host = .memWrite (2 ^ 64 - 2) [1, 2, 3] :: [] ∧
      2 ^ 64 < 2 ^ 64 - 2 + [1, 2, 3].length :=
  ⟨⟨rfl, rfl⟩, rfl, rfl, rfl, by decide, ⟨rfl, rfl⟩, rfl, by decide⟩

theorem storesWf_copying : StoresWf copying := storesWf_of _ (by decide +kernel)

/-- Two blocks, and no block at all; both directions. -/
theorem witness_AesEcbCompletes : StoresWf copying ∧
    (Instr.aesEcb true .k192 0 (gen noFlags 32 0)).wf copying.params = true ∧
    (Instr.aesEcb false .k128 0 (gen noFlags 0 255)).wf copying.params = true :=
  ⟨storesWf_copying, by decide +kernel, by decide +kernel⟩

theorem witness_AesCbcCompletes : StoresWf copying ∧
    (Instr.aesCbc true .k128 0 (gen noFlags 32 127)).wf copying.params = true ∧
    (Instr.aesCbc false .k256 0 (gen noFlags 0 0)).wf copying.params = true :=
  ⟨storesWf_copying, by decide +kernel, by decide +kernel⟩

theorem witness_AesCfbCompletes : StoresWf copying ∧
    (Instr.aesCfb true .k128 0 (gen noFlags 32 127)).wf copying.params = true ∧
    (Instr.aesCfb false .k256 0 (gen noFlags 0 0)).wf copying.params = true :=
  ⟨storesWf_copying, by decide +kernel, by decide +kernel⟩

/-- The destination over the context slot itself. -/
theorem witness_AesOfbCompletes : StoresWf copying ∧
    (Instr.aesOfb true .k128 0 { gen noFlags 32 127 with dest := ⟨.scratchBuffer, 4064⟩ }).wf copying.params = true :=
  ⟨storesWf_copying, by decide +kernel⟩

theorem witness_AesDecryptUndoesEncrypt :
    (hex 16 1).length = 16 ∧ (hex 24 1).length = 24 ∧ (hex 32 1).length = 32 := by decide +kernel

/-- From System to System and back to 0x4000, the key at 0x2800 below the ciphertext; and from Local to the SB past slot 1 and back
to Local, the key in the SB below the ciphertext. -/
theorem witness_AesRoundTrip :
    let d := gen noFlags 32 1
    let e : GenDesc := { d with source := d.dest, dest := ⟨.system, 0x4000⟩ }
    let d' : GenDesc :=
      { d with source := ⟨.localMem, 0x2000⟩, dest := ⟨.scratchBuffer, 0x100⟩, key := ⟨.scratchBuffer, 0xF0⟩ }
    let e' : GenDesc := { d' with source := d'.dest, dest := ⟨.localMem, 0x4000⟩ }
    StoresWf copying ∧ (∀ mode ∈ [Instr.aesEcb, Instr.aesCbc, Instr.aesCfb, Instr.aesOfb],
      (mode true .k128 0 d).wf copying.params = true ∧ (mode false .k128 0 e).wf copying.params = true ∧
        (mode true .k128 0 d').wf copying.params = true ∧ (mode false .k128 0 e').wf copying.params = true) ∧
      Apart .system 0x3000 32 .system 0x2800 16 ∧ Apart .system 0x3000 32 .scratchBuffer 32 16 ∧
      Apart .system 0x4000 32 .scratchBuffer 32 16 ∧ Apart .scratchBuffer 0x100 32 .scratchBuffer 0xF0 16 ∧
      Apart .scratchBuffer 0x100 32 .scratchBuffer 32 16 ∧ Apart .localMem 0x4000 32 .scratchBuffer 32 16 := by
  refine ⟨storesWf_copying, ?_, .inr (.inr (by decide)), .inl rfl, .inl rfl, .inr (.inr (by decide)),
    .inr (.inr (by decide)), .inl rfl⟩
  intro mode hm
  simp only [List.mem_cons, List.not_mem_nil, or_false] at hm
  rcases hm with rfl | rfl | rfl | rfl <;> decide +kernel

/-- Both values of `eom`. -/
theorem witness_ShaCompletes : StoresWf copying ∧
    (∀ i ∈ [Instr.sha1 (sha true 3 24), .sha224 (sha true 3 24), .sha256 (sha true 3 24), .sha384 (sha true 3 24),
      .sha512 (sha true 3 24), .sha1 (sha false 128 1024), .sha512 (sha false 128 1024)], i.wf copying.params = true) :=
  ⟨storesWf_copying, by decide +kernel⟩

/-- 128 bytes, then 3, in the SB just past the context area of slot 2. -/
theorem witness_ShaChaining :
    let src : Operand := ⟨.scratchBuffer, 0x80⟩
    let d₁ : ShaDesc := { sha false 128 1024 with source := src }
    let d₂ : ShaDesc := { sha true 3 1048 with source := ⟨.scratchBuffer, 0x100⟩ }
    let d : ShaDesc := { sha true 131 1048 with source := src }
    StoresWf copying ∧ sameStore d₁.source.space d.source.space = true ∧ sameStore d₂.source.space d.source.space = true ∧
      d₁.source.address = d.source.address ∧
      d₂.source.address.toNat = d.source.address.toNat + 128 ∧ d₁.length.toNat = 128 ∧ d₂.length.toNat = 3 ∧
      d.length.toNat = 128 + 3 ∧ d₁.shaLen.toNat = 8 * 128 ∧ d₂.shaLen.toNat = 8 * (128 + 3) ∧
      d.shaLen.toNat = 8 * (128 + 3) ∧ d₁.flags.eom = false ∧ d₂.flags.eom = true ∧ d.flags.eom = true ∧
      d₁.contextId = d.contextId ∧ d₂.contextId = d.contextId ∧
      (∀ x ∈ [(ShaAlg.sha1, Instr.sha1), (.sha224, .sha224), (.sha256, .sha256), (.sha384, .sha384), (.sha512, .sha512)],
        128 % shaBlockBytes x.1 = 0 ∧ (x.2 d).wf copying.params = true ∧
          Apart d.source.space d.source.address.toNat 131 .scratchBuffer (d.contextId.toNat * 32) (shaAreaBytes x.1)) := by
  refine ⟨storesWf_copying, rfl, rfl, rfl, rfl, rfl, rfl, rfl, rfl, rfl, rfl, rfl, rfl, rfl, rfl, rfl, ?_⟩
  intro x hx
  simp only [List.mem_cons, List.not_mem_nil, or_false] at hx
  rcases hx with rfl | rfl | rfl | rfl | rfl <;>
    exact ⟨by decide, by decide +kernel, .inr (.inr (by decide))⟩

def rsaState : State := at1000 params0 queue0 ⟨0x00400200, 4, 0x2000, 0, 0x3000, 0, 0x2800, 0⟩ [(0x2000, hex 4 0xa10c4100)]

theorem witness_RsaCompletes : StoresWf rsaState ∧ (Instr.rsa 2 (gen noFlags 4 0)).wf rsaState.params = true ∧
    leNat (readBytes rsaState .system 0x2000 2) ≠ 0 :=
  ⟨storesWf_of _ (by decide +kernel), by decide +kernel, by decide +kernel⟩

/-- The empty modulus, and a zero modulus of 2 bytes. -/
theorem witness_RsaZeroModulus : (Instr.rsa 0 (gen noFlags 0 0)).wf copying.params = true ∧
    leNat (readBytes copying .system 0x2000 0) = 0 ∧
    (Instr.rsa 2 { gen noFlags 4 0 with source := ⟨.system, 0x9000⟩ }).wf copying.params = true ∧
    leNat (readBytes copying .system 0x9000 2) = 0 := by decide +kernel

/-- spec/44_rsa.md R256: the toy pair of the worked example. -/
theorem witness_RsaExponentsUndoEachOther : (61).Prime ∧ (53).Prime ∧ 61 ≠ 53 ∧
    17 * 2753 % ((61 - 1) * (53 - 1)) = 1 % ((61 - 1) * (53 - 1)) ∧ 65 < 61 * 53 := by norm_num

theorem witness_PtCopyCompletes : StoresWf copying ∧ (Instr.ptCopy (gen eomFlags 4 0)).wf copying.params = true ∧
    (Instr.ptCopy (gen eomFlags 0 0)).wf copying.params = true :=
  ⟨storesWf_copying, by decide +kernel, by decide +kernel⟩

theorem witness_PtSwap256Completes : StoresWf copying ∧ (Instr.ptSwap256 (gen eomFlags 64 0)).wf copying.params = true :=
  ⟨storesWf_copying, by decide +kernel⟩

theorem witness_SwapTwiceRestores :
    let d := gen eomFlags 64 0
    let e : GenDesc := { d with source := d.dest, dest := d.source }
    StoresWf copying ∧ (Instr.ptSwap256 d).wf copying.params = true ∧ (Instr.ptSwap256 e).wf copying.params = true ∧
      e.length = d.length ∧ e.source = d.dest := ⟨storesWf_copying, by decide +kernel⟩

def zlibState : State := at1000 params0 queue0 copyWords [(0x2000, hex 10 0x010500faff68656c6c6f)]

theorem witness_ZlibCompletes : StoresWf zlibState ∧ (Instr.zlib (gen zlibFlags 10 0)).wf zlibState.params = true ∧
    inflate (readBytes zlibState .system 0x2000 10) = some (hex 5 0x68656c6c6f, 10) ∧
    ¬ pastSb (gen zlibFlags 10 0).dest (hex 5 0x68656c6c6f).length :=
  ⟨storesWf_of _ (by decide +kernel), by decide +kernel, by decide +kernel, by decide +kernel⟩

/-- An empty input, and an output whose last byte is the first past the SB. -/
theorem witness_ZlibStops : (Instr.zlib (gen zlibFlags 0 0)).wf zlibState.params = true ∧
    inflate (readBytes zlibState .system 0x2000 0) = none ∧
    (Instr.zlib { gen zlibFlags 10 0 with dest := ⟨.scratchBuffer, 4092⟩ }).wf zlibState.params = true ∧
    inflate (readBytes zlibState .system 0x2000 10) = some (hex 5 0x68656c6c6f, 10) ∧
    pastSb ⟨.scratchBuffer, 4092⟩ 5 ∧ ¬ pastSb ⟨.scratchBuffer, 4091⟩ 5 := by decide +kernel

theorem witness_InflateStoredBlock : (hex 5 0x68656c6c6f).length < 65536 := by decide +kernel

theorem witness_InflateStopsAtTheEndOfStream :
    inflate (hex 10 0x010500faff68656c6c6f) = some (hex 5 0x68656c6c6f, 10) := by decide +kernel

/-- An SB and a guest memory with bytes in them, the last SB byte among them. -/
theorem witness_InvariantHoldsAfterReset : cellsWf [(0, 1#8), (4095, 2#8)] = true ∧
    (∀ c ∈ [(0, 1#8), (4095, 2#8)], c.1 < 4096) ∧ Memory.wf [(0x2000, 3#8)] = true := by decide

/-- A block in the middle of a pass, with a pending interrupt. -/
theorem witness_InvariantIsKept :
    let s : State := { copying with queues := { copying.queues with q0 := { queue0 with interruptStatus := 1 } }, irq := true }
    Inv s ∧ step s = .next (after (step s)) := by
  refine ⟨⟨by decide +kernel, rfl, rfl, ?_, ?_, rfl, fun q => by cases q <;> decide, fun h => absurd rfl h, ?_⟩, after_eq _ (by decide +kernel)⟩
  · intro c hc; cases hc
  · intro c hc; cases hc
  · intro q; cases q <;> decide +kernel

end Sys2Proof.Tests
end

