-- ==== Sys2Proof/Proofs/HostMemory.lean ====
section
/-! The Host's accesses to guest memory. -/

namespace Sys2Proof.Machine

/-- Index `i` of the bytes read holds the byte at address `a + i` (R62). -/
theorem readBytes_getElem? (s : State) (sp : MemSpace) {a n i : Nat} (h : i < n) :
    (readBytes s sp a n)[i]? = some (readByte s sp (a + i)) := by
  have hi : i < (readBytes s sp a n).length := by rwa [readBytes_length]
  rw [← readBytes_getD s sp a n i h, List.getD_eq_getElem _ _ hi, List.getElem?_eq_getElem hi]

/-- The actions still pending have no part in what memory holds. -/
@[simp] theorem readBytes_withHost (s : State) (ops : List HostOp) (sp : MemSpace) (a n : Nat) :
    readBytes { s with host := ops } sp a n = readBytes s sp a n :=
  readBytes_congr _ _ _ _ _ _ fun x _ _ => by cases sp <;> rfl

/-- Settles O60: `step_memRead` with the bytes read before the action is taken off the list, index by index. -/
theorem hostReadsGuestMemory : Obligations.HostReadsGuestMemory := by
  intro s a n rest hfatal hidle hhost
  have hstep := step_memRead hfatal hidle hhost
  rw [readBytes_withHost] at hstep
  refine ⟨fun hin => ⟨readBytes s .system a n, ?reply, readBytes_length .., fun i hi => readBytes_getElem? s .system hi⟩,
    fun hpast => ?fault⟩
  case reply => rw [hstep, if_pos hin]
  case fault => rw [hstep, if_neg (Nat.not_le.mpr hpast)]

end Sys2Proof.Machine
end

/-! What one iteration of a drain pass leaves behind, and what it does not touch. -/

namespace Sys2Proof.Machine

/-- A violation is a fatal end or a descriptor that retires with result `fail` (R283). -/
theorem State.violate_cases (s : State) (f : Flags) (c : Cause) :
    s.violate f c = s.raiseFatal c ∨ s.violate f c = s.retire f .fail := by
  cases hp : s.params.violationPolicy with
  | fatal => exact .inl (s.violate_fatal f c hp)
  | errorInterrupt => exact .inr (s.violate_errorInterrupt f c hp)

/-- The three ends of one iteration: the pass ends, the block dies, or a descriptor retires after the stores it made. A descriptor
that fails its checks retires with no store made (R142, R292). -/
theorem drainStep_next_cases {s t : State} (h : drainStep s = .next t) :
    t = s.endPass ∨ (∃ c, t = s.raiseFatal c) ∨ (∃ f r u, StoredBy s u ∧ t = u.retire f r) := by
  have hviolate : ∀ f c, t = s.violate f c →
      t = s.endPass ∨ (∃ c, t = s.raiseFatal c) ∨ (∃ f r u, StoredBy s u ∧ t = u.retire f r) := by
    rintro f c rfl
    rcases s.violate_cases f c with hv | hv
    · exact .inr (.inl ⟨c, hv⟩)
    · exact .inr (.inr ⟨f, .fail, s, .refl, hv⟩)
  rcases drainStep_cases s with ⟨-, hd⟩ | ⟨-, c, -, hd⟩ | ⟨-, -, -, hd⟩ | ⟨-, -, -, ⟨c, -, hd⟩ | ⟨i, -, hd⟩⟩ <;>
    rw [hd] at h
  case inl => cases h; exact .inl rfl
  case inr.inl => cases h; exact .inr (.inl ⟨c, rfl⟩)
  case inr.inr.inl => cases h; exact .inl rfl
  case inr.inr.inr.inl => cases h; exact hviolate _ c rfl
  case inr.inr.inr.inr =>
    rcases exec_cases h with ⟨c, hv⟩ | hfatal | ⟨u, hu, hr⟩
    · exact hviolate _ c hv
    · exact .inr (.inl hfatal)
    · exact .inr (.inr ⟨i.flags, .ok, u, hu, hr⟩)

/-- What follows a descriptor does not depend on the stores its handler made. -/
theorem StoredBy.retired {s u t : State} {f : Flags} {r : Result} (h : StoredBy s u) (hr : Retired u t f r) :
    Retired s t f r := by
  induction h with
  | refl => exact hr
  | store sp a bs _ _ ih => exact ih hr.of_writeBytes

/-- Settles O15: the end of the pass and a fatal end touch none of these fields, and for a descriptor that retires they are fields
of `Retired`. -/
theorem drainPassFrame : Obligations.DrainPassFrame := by
  intro s t hdraining hstep
  obtain ⟨-, ⟨-, hd⟩ | ⟨hidle, -⟩⟩ := step_cases hstep
  case inr => rw [hdraining] at hidle; cases hidle
  rcases drainStep_next_cases hd with rfl | ⟨c, rfl⟩ | ⟨f, r, u, hu, rfl⟩
  case inl | inr.inl => simp
  case inr.inr =>
    have ht := hu.retired (u.retire_retired f r)
    exact ⟨ht.base, ht.tail, ht.sizeCode, ht.interruptEnable, ht.others, ht.queuePriority, ht.misc, ht.scratch, ht.active,
      ht.host, ht.hostReply, ht.params⟩

end Sys2Proof.Machine

/-! The invariant of the machine: each update of the state keeps it, so every step does. -/

namespace Sys2Proof.Machine

/-! ## Updates of one queue and of the line -/

/-- A queue record replaced and the line set: the new record meets the two clauses on a queue, and the new line meets the one on
the line. -/
theorem Inv.setQueue_irq {s : State} (h : Inv s) {q : QueueId} {v : Queue} {level : Bool} (hsize : v.sizeCode ≠ 31)
    (haligned : (v.head - v.base).toNat % 32 = 0) (hlevel : level = anyPending (s.setQueue q v).queues) :
    Inv { s.setQueue q v with irq := level } where
  memWf := h.memWf
  sbWf := h.sbWf
  miscWf := h.miscWf
  sbKeys := h.sbKeys
  miscKeys := h.miscKeys
  irqLevel := hlevel
  ringSizes p := by
    change ((s.setQueue q v).queue p).sizeCode ≠ 31
    by_cases hp : p = q
    · subst hp; rwa [State.setQueue_queue_same]
    · rw [State.setQueue_queue_other _ _ _ _ hp]; exact h.ringSizes p
  deadIdle := h.deadIdle
  ringAligned p := by
    change (((s.setQueue q v).queue p).head - ((s.setQueue q v).queue p).base).toNat % 32 = 0
    by_cases hp : p = q
    · subst hp; rwa [State.setQueue_queue_same]
    · rw [State.setQueue_queue_other _ _ _ _ hp]; exact h.ringAligned p

/-- Some queue is pending after one record is replaced: that one, or another as before. -/
theorem anyPending_setQueue_iff (s : State) (q : QueueId) (v : Queue) :
    anyPending (s.setQueue q v).queues = true ↔
      v.interruptStatus ≠ 0 ∨ ∃ p, p ≠ q ∧ (s.queue p).interruptStatus ≠ 0 := by
  rw [anyPending_iff]
  constructor
  · rintro ⟨p, hp⟩
    by_cases hpq : p = q
    · subst hpq; exact .inl (by rwa [State.setQueue_queue_same] at hp)
    · exact .inr ⟨p, hpq, by rwa [State.setQueue_queue_other _ _ _ _ hpq] at hp⟩
  · rintro (hv | ⟨p, hpq, hp⟩)
    · exact ⟨q, by rwa [State.setQueue_queue_same]⟩
    · exact ⟨p, by rwa [State.setQueue_queue_other _ _ _ _ hpq]⟩

/-- The pending bits of a queue kept, the OR of all of them is kept. -/
theorem anyPending_setQueue (s : State) (q : QueueId) (v : Queue) (h : v.interruptStatus = (s.queue q).interruptStatus) :
    anyPending (s.setQueue q v).queues = anyPending s.queues := by
  rw [Bool.eq_iff_iff, anyPending_setQueue_iff, anyPending_iff, h]
  constructor
  · rintro (hq | ⟨p, -, hp⟩)
    exacts [⟨q, hq⟩, ⟨p, hp⟩]
  · rintro ⟨p, hp⟩
    by_cases hpq : p = q
    · exact .inl (hpq ▸ hp)
    · exact .inr ⟨p, hpq, hp⟩

/-- A queue record replaced by a sound one with the same pending bits. -/
theorem Inv.setQueue {s : State} (h : Inv s) (q : QueueId) (v : Queue)
    (hpending : v.interruptStatus = (s.queue q).interruptStatus) (hsize : v.sizeCode ≠ 31)
    (haligned : (v.head - v.base).toNat % 32 = 0) : Inv (s.setQueue q v) :=
  h.setQueue_irq (level := s.irq) hsize haligned (by rw [anyPending_setQueue s q v hpending, h.irqLevel])

/-- Taking an event raises the line together with a pending bit (R288). -/
theorem Inv.signal {s : State} (h : Inv s) (q : QueueId) (r : Result) : Inv (s.signal q r) := by
  have hbit : eventBit r ≠ 0 := by cases r <;> decide
  rw [State.signal]
  split
  case isTrue => exact h
  case isFalse =>
    refine h.setQueue_irq (h.ringSizes q) (h.ringAligned q) (Eq.symm ?_)
    rw [anyPending_setQueue_iff]
    exact .inl fun h0 => hbit (BitVec.or_eq_zero_iff.mp h0).2

/-- The record of a queue after its pending bits are acknowledged (R289). -/
def Queue.acknowledged (q : Queue) (v : BitVec 2) : Queue := { q with interruptStatus := q.interruptStatus &&& ~~~v }

/-- An acknowledge as one update of the queue and of the line: a line that is up stays up while a bit is pending. -/
theorem State.acknowledge_eq (s : State) (q : QueueId) (v : BitVec 2) :
    s.acknowledge q v = { s.setQueue q ((s.queue q).acknowledged v) with
      irq := s.irq && anyPending (s.setQueue q ((s.queue q).acknowledged v)).queues } := by
  rw [State.acknowledge, ← Queue.acknowledged]
  cases hany : anyPending (s.setQueue q ((s.queue q).acknowledged v)).queues
  case false => rw [Bool.and_false]; rfl
  case true => rw [Bool.and_true]; rfl

/-- An acknowledge sets no pending bit, and takes the line down when it clears the last one (R289). -/
theorem Inv.acknowledge {s : State} (h : Inv s) (q : QueueId) (v : BitVec 2) : Inv (s.acknowledge q v) := by
  have hup : anyPending (s.setQueue q ((s.queue q).acknowledged v)).queues = true → s.irq = true := by
    rw [anyPending_setQueue_iff, h.irqLevel, anyPending_iff]
    rintro (hq | ⟨p, -, hp⟩)
    · exact ⟨q, fun h0 => hq (by simp [Queue.acknowledged, h0])⟩
    · exact ⟨p, hp⟩
  rw [State.acknowledge_eq]
  exact h.setQueue_irq (h.ringSizes q) (h.ringAligned q) (Bool.and_eq_right_iff_imp.mpr hup)

/-! ## Ends and starts of a pass -/

theorem Inv.endPass {s : State} (h : Inv s) : Inv s.endPass := { h with deadIdle := fun _ => rfl }

theorem Inv.raiseFatal {s : State} (h : Inv s) (c : Cause) : Inv (s.raiseFatal c) := { h with deadIdle := fun _ => rfl }

/-- Only a block that is alive starts a pass. -/
theorem Inv.startPass {s : State} (h : Inv s) (halive : s.fatal = none) (q : QueueId) : Inv (s.startPass q) :=
  { h with deadIdle := fun hdead => absurd halive hdead }

/-! ## A descriptor -/

theorem Inv.advanceHead {s : State} (h : Inv s) (q : QueueId) : Inv (s.advanceHead q) :=
  h.setQueue q _ rfl (h.ringSizes q) (nextHead_aligned (s.queue q))

theorem Inv.mirror {s : State} (h : Inv s) (q : QueueId) (r : Result) : Inv (s.mirror q r) :=
  h.setQueue q _ rfl (h.ringSizes q) (h.ringAligned q)

theorem Inv.stopQueue {s : State} (h : Inv s) (q : QueueId) : Inv (s.stopQueue q) :=
  (h.setQueue q { s.queue q with run := false, halt := true } rfl (h.ringSizes q) (h.ringAligned q)).endPass

/-- What follows a descriptor is a row of updates that each keep the invariant (R142). -/
theorem Inv.retire {s : State} (h : Inv s) (f : Flags) (r : Result) : Inv (s.retire f r) := by
  have hmirror := (h.advanceHead s.active).mirror s.active r
  have hsignal := hmirror.signal s.active r
  rw [State.retire]
  cases f.ioc <;> cases f.soc
  case false.false => exact hmirror
  case false.true => exact hmirror.stopQueue _
  case true.false => exact hsignal
  case true.true => exact hsignal.stopQueue _

/-- The stores a handler makes keep the canonical form and the size of the SB, and touch nothing else. -/
theorem Inv.storedBy {s u : State} (h : Inv s) (hu : StoredBy s u) : Inv u := by
  have hwf := hu.storesWf ⟨h.memWf, h.sbWf⟩
  have hkeys := hu.sbKeys h.sbKeys
  rw [hu.eq]
  exact { h with memWf := hwf.mem, sbWf := hwf.sb, sbKeys := hkeys }

theorem Inv.drainStep {s t : State} (h : Inv s) (hd : drainStep s = .next t) : Inv t := by
  rcases drainStep_next_cases hd with rfl | ⟨c, rfl⟩ | ⟨f, r, u, hu, rfl⟩
  · exact h.endPass
  · exact h.raiseFatal c
  · exact (h.storedBy hu).retire f r

/-! ## An action of the Host -/

/-- A misc word written at an offset of the misc region. -/
theorem Inv.writeMisc {s : State} (h : Inv s) (o : Nat) (v : Word)
    (ho : 0x6000 ≤ o ∧ o < regWindowSize s.params ∧ o % 4 = 0) : Inv { s with misc := cellsWrite s.misc o v } :=
  { h with
    miscWf := cellsWf_cellsWrite _ _ _ h.miscWf
    miscKeys := fun c hc => (mem_cellsWrite _ _ _ _ hc).elim (h.miscKeys c) fun e => by rw [e]; exact ho }

/-- A register write that is not refused, of a misc word inside the window where it is one. -/
theorem Inv.writeRegister {s : State} (h : Inv s) (halive : s.fatal = none) {v : Word} {r : RegName}
    (hsize : refusedWrite v r = false)
    (hmisc : ∀ o, r = .misc o → 0x6000 ≤ o ∧ o < regWindowSize s.params ∧ o % 4 = 0) : Inv (writeRegister s v r) := by
  cases r with
  | queueMask | trng | lsbMask | status | intStatus | unimplemented => exact h
  | queuePriority | scratch => exact { h with }
  | requestId =>
    simp only [Machine.writeRegister]
    split
    · exact h
    · exact h.raiseFatal _
  | control q =>
    have hcode : v.extractLsb' 3 5 ≠ 31 := by simpa [refusedWrite] using hsize
    exact (h.setQueue q { s.queue q with run := v.getLsbD 0, halt := v.getLsbD 1, sizeCode := v.extractLsb' 3 5 } rfl hcode
      (h.ringAligned q)).startPass halive q
  | tail q =>
    exact (h.setQueue q { s.queue q with tail := v } rfl (h.ringSizes q) (h.ringAligned q)).startPass halive q
  | head q =>
    have hzero : (v - v).toNat % 32 = 0 := by simp
    exact (h.setQueue q { s.queue q with head := v, base := v } rfl (h.ringSizes q) hzero).startPass halive q
  | interruptEnable q => exact h.setQueue q _ rfl (h.ringSizes q) (h.ringAligned q)
  | interruptStatus q => exact h.acknowledge q _
  | misc o => exact h.writeMisc o v (hmisc o rfl)

/-- An access with a meaning that names a misc word is at an aligned offset of the misc region (R76, R194). -/
theorem misc_bounds_of_accessDefined {p : Params} {o x : Nat} (hdef : accessDefined p o 32 = true)
    (hname : registerAt p o = .misc x) : 0x6000 ≤ x ∧ x < regWindowSize p ∧ x % 4 = 0 := by
  obtain ⟨rfl, hlow⟩ := registerAt_eq_misc p o x hname
  simp only [accessDefined, Bool.and_eq_true, Bool.or_eq_true, beq_iff_eq, decide_eq_true_eq] at hdef
  obtain ⟨⟨-, haligned⟩, hin⟩ := hdef
  exact ⟨hlow, by omega, haligned⟩

/-- The Host's pending actions and the answer of its last read have no part in the invariant. -/
theorem Inv.withHost {s : State} (h : Inv s) (ops : List HostOp) (reply : Option HostReply) :
    Inv { s with host := ops, hostReply := reply } := { h with }

theorem Inv.hostStep {s t : State} (h : Inv s) (halive : s.fatal = none) (hs : hostStep s = .next t) : Inv t := by
  rcases hostStep_cases hs with ⟨-, rfl⟩ | ⟨o, rest, -, -, rfl⟩ | ⟨o, v, rest, -, hdef, hsize, rfl⟩ |
    ⟨a, n, rest, -, -, rfl⟩ | ⟨a, bs, rest, -, -, rfl⟩
  · exact h
  · exact h.withHost rest _
  · exact (h.withHost rest s.hostReply).writeRegister halive hsize fun x hx => misc_bounds_of_accessDefined hdef hx
  · exact h.withHost rest _
  · exact { h with memWf := cellsWf_cellsWriteBytes _ _ _ h.memWf }

/-- Settles O59: a step is one iteration of a drain pass or one action of the Host, and both are made of updates that keep the
invariant. -/
theorem invariantIsKept : Obligations.InvariantIsKept := by
  intro s t h hstep
  obtain ⟨halive, ⟨-, hd⟩ | ⟨-, hs⟩⟩ := step_cases hstep
  · exact h.drainStep hd
  · exact h.hostStep halive hs

/-! ## Reset -/

@[simp] theorem State.resetWith_queue (p : Params) (halt : Bool) (sb mem : List Host.Cell) (q : QueueId) :
    (State.resetWith p halt sb mem).queue q = Queue.resetWith halt := by cases q <;> rfl

/-- Settles O57: every queue is the one reset record, and the rest is read off `State.resetWith`. -/
theorem resetState : Obligations.ResetState := by
  intro p halt sb mem
  refine ⟨fun q => ?queue, rfl, fun _ => rfl, rfl, rfl, rfl, rfl⟩
  rw [State.resetWith_queue]
  exact ⟨rfl, rfl, rfl, rfl, rfl, rfl, rfl, rfl, rfl⟩

/-- Settles O58: the drawn stores meet their clauses by hypothesis, the misc words are none, and every queue is the one reset
record. -/
theorem invariantHoldsAfterReset : Obligations.InvariantHoldsAfterReset := by
  intro p halt sb mem hsb hkeys hmem
  exact {
    memWf := hmem
    sbWf := hsb
    miscWf := rfl
    sbKeys := hkeys
    miscKeys := fun c hc => absurd hc List.not_mem_nil
    irqLevel := rfl
    ringSizes := fun q => by simp [Queue.resetWith]
    deadIdle := fun _ => rfl
    ringAligned := fun q => by simp [Queue.resetWith] }

end Sys2Proof.Machine

/-! The Host and the SB: no action of the Host reads or writes it, and which actions mark a drain pass. -/

namespace Sys2Proof.Machine

/-! ## Register accesses beside the SB -/

@[simp] theorem writeRegister_sb (s : State) (v : Word) (r : RegName) : (writeRegister s v r).sb = s.sb := by
  cases r <;> simp only [writeRegister, State.acknowledge_sb, State.startPass_sb, State.setQueue_sb]
  case requestId => split <;> rfl

@[simp] theorem writeRegister_params (s : State) (v : Word) (r : RegName) : (writeRegister s v r).params = s.params := by
  cases r <;> simp only [writeRegister, State.acknowledge_params, State.startPass_params, State.setQueue_params]
  case requestId => split <;> rfl

theorem readRegister_withSb (s : State) (sb : List Host.Cell) (r : RegName) :
    readRegister { s with sb := sb } r = readRegister s r := by cases r <;> rfl

theorem State.acknowledge_withSb (s : State) (sb : List Host.Cell) (q : QueueId) (v : BitVec 2) :
    State.acknowledge { s with sb := sb } q v = { s.acknowledge q v with sb := sb } := by
  rw [State.acknowledge_eq, State.acknowledge_eq]; rfl

/-- A register write does the same whatever the SB holds. -/
theorem writeRegister_withSb (s : State) (sb : List Host.Cell) (v : Word) (r : RegName) :
    writeRegister { s with sb := sb } v r = { writeRegister s v r with sb := sb } := by
  cases r
  case requestId => simp only [writeRegister]; split <;> rfl
  case interruptStatus q => exact s.acknowledge_withSb sb q _
  all_goals rfl

/-! ## Which writes mark a pass -/

/-- The registers whose write starts a drain pass of queue `q` (R141). -/
def passRegisters (q : QueueId) : List RegName := [.control q, .tail q, .head q]

/-- A register write marks a pass exactly when it is of one of a queue's `passRegisters`, and then of that queue. -/
theorem writeRegister_pass_cases (s : State) (v : Word) (r : RegName) (hidle : s.draining = false) :
    ((writeRegister s v r).draining = false ∧ (writeRegister s v r).active = s.active) ∨
      ((writeRegister s v r).draining = true ∧ r ∈ passRegisters (writeRegister s v r).active) := by
  cases r
  case control | tail | head => exact .inr ⟨rfl, by simp [writeRegister, passRegisters]⟩
  case requestId =>
    simp only [writeRegister]
    split
    · exact .inl ⟨hidle, rfl⟩
    · exact .inl ⟨rfl, rfl⟩
  all_goals exact .inl (by simp [writeRegister, hidle])

/-- A register of queue `q` that starts a pass is on the page of that queue, at one of three offsets. -/
theorem queueRegister_mem_passRegisters {p : Params} {q q' : QueueId} {o : Nat}
    (h : queueRegister p q' o ∈ passRegisters q) : q' = q ∧ o % 0x1000 ∈ [0x000, 0x004, 0x008] := by
  simp only [queueRegister, unnamedRegister] at h
  repeat' split at h
  all_goals simp_all [passRegisters]

theorem globalRegister_not_mem_passRegisters (p : Params) (q : QueueId) (o : Nat) :
    globalRegister p o ∉ passRegisters q := by
  simp only [globalRegister, unnamedRegister]
  repeat' split
  all_goals simp [passRegisters]

/-- The pages of the window: the global registers, one page for each queue, the misc region (R39). -/
theorem registerAt_cases (p : Params) (o : Nat) :
    registerAt p o = globalRegister p o ∨ registerAt p o = .misc o ∨
      ∃ q r, o = queueBase q + r ∧ r < 0x1000 ∧ registerAt p o = queueRegister p q o := by
  by_cases hglobal : o < 0x1000
  · exact .inl (if_pos hglobal)
  by_cases hmisc : 0x6000 ≤ o
  · exact .inr (.inl (registerAt_misc p o hmisc))
  have hpage : ∃ q : QueueId, q.index = o / 0x1000 - 1 := by
    have hk : o / 0x1000 - 1 < 5 := by omega
    generalize o / 0x1000 - 1 = k at hk
    interval_cases k
    exacts [⟨.q0, rfl⟩, ⟨.q1, rfl⟩, ⟨.q2, rfl⟩, ⟨.q3, rfl⟩, ⟨.q4, rfl⟩]
  obtain ⟨q, hq⟩ := hpage
  have ho : o = queueBase q + o % 0x1000 := by rw [queueBase_add]; omega
  have hlt : o % 0x1000 < 0x1000 := Nat.mod_lt _ (by decide)
  refine .inr (.inr ⟨q, o % 0x1000, ho, hlt, ?_⟩)
  have hreg := registerAt_queue p q _ hlt
  rwa [← ho] at hreg

/-- The only offsets that name a register which starts a pass of queue `q` (R141). -/
theorem registerAt_mem_passRegisters {p : Params} {q : QueueId} {o : Nat} (h : registerAt p o ∈ passRegisters q) :
    ∃ r ∈ [0x000, 0x004, 0x008], o = queueBase q + r := by
  rcases registerAt_cases p o with hr | hr | ⟨q', r, rfl, hlt, hr⟩ <;> rw [hr] at h
  · exact absurd h (globalRegister_not_mem_passRegisters p q o)
  · simp [passRegisters] at h
  · obtain ⟨rfl, hmem⟩ := queueRegister_mem_passRegisters h
    rw [queueBase_mod q' r hlt] at hmem
    exact ⟨r, hmem, rfl⟩

/-! ## An action of the Host beside the SB -/

/-- Outside a pass, a step is an action of the Host on a block that is alive. -/
theorem hostStep_of_idle {s t : State} (hidle : s.draining = false) (h : step s = .next t) :
    s.fatal = none ∧ hostStep s = .next t := by
  obtain ⟨halive, ⟨hdraining, -⟩ | ⟨-, hs⟩⟩ := step_cases h
  · rw [hidle] at hdraining; cases hdraining
  · exact ⟨halive, hs⟩

/-- Outside a pass, a step does the same whatever the SB holds. -/
theorem step_withSb {s t : State} (hidle : s.draining = false) (h : step s = .next t) (sb : List Host.Cell) :
    step { s with sb := sb } = .next { t with sb := sb } := by
  obtain ⟨halive, hs⟩ := hostStep_of_idle hidle h
  rcases hostStep_cases hs with ⟨hh, rfl⟩ | ⟨o, rest, hh, hdef, rfl⟩ | ⟨o, v, rest, hh, hdef, hsize, rfl⟩ |
    ⟨a, n, rest, hh, hin, rfl⟩ | ⟨a, bs, rest, hh, hin, rfl⟩
  · simp [step, halive, hidle, hostStep, hh]
  · rw [step_regRead (s := { s with sb := sb }) ⟨halive, hidle, hh⟩ hdef]
    exact congrArg (fun w => Host.Outcome.next { s with sb := sb, host := rest, hostReply := some (.word w) })
      (readRegister_withSb { s with host := rest } sb _)
  · rw [step_regWrite (s := { s with sb := sb }) ⟨halive, hidle, hh⟩ hdef hsize]
    exact congrArg Host.Outcome.next (writeRegister_withSb { s with host := rest } sb v _)
  · rw [step_memRead (s := { s with sb := sb }) halive hidle hh, if_pos hin]; rfl
  · rw [step_memWrite (s := { s with sb := sb }) halive hidle hh, if_pos hin]; rfl

/-- An action of the Host leaves the SB and the parameters, and either marks no pass and leaves the active queue, or is a write of a
register that starts a pass of the queue it makes active. -/
theorem hostStep_frame {s t : State} (hidle : s.draining = false) (h : hostStep s = .next t) :
    t.sb = s.sb ∧ t.params = s.params ∧
      ((t.draining = false ∧ t.active = s.active) ∨
        (t.draining = true ∧ ∃ o v rest, s.host = .regWrite o 32 v :: rest ∧
          registerAt s.params o ∈ passRegisters t.active)) := by
  rcases hostStep_cases h with ⟨-, rfl⟩ | ⟨o, rest, -, -, rfl⟩ | ⟨o, v, rest, hh, -, -, rfl⟩ |
    ⟨a, n, rest, -, -, rfl⟩ | ⟨a, bs, rest, -, -, rfl⟩
  case inr.inr.inl =>
    refine ⟨writeRegister_sb _ _ _, writeRegister_params _ _ _, ?_⟩
    rcases writeRegister_pass_cases { s with host := rest } v (registerAt s.params o) hidle with hno | ⟨hmark, hmem⟩
    · exact .inl hno
    · exact .inr ⟨hmark, o, v, rest, hh, hmem⟩
  all_goals exact ⟨rfl, rfl, .inl ⟨hidle, rfl⟩⟩

/-- Settles O36: `step_withSb` for the SB, and `hostStep_frame` for the rest, the offset of a write that marks a pass read back from
the register it names. -/
theorem hostCannotReachTheSb : Obligations.HostCannotReachTheSb := by
  intro s t hidle hstep
  obtain ⟨-, hs⟩ := hostStep_of_idle hidle hstep
  obtain ⟨hsb, hparams, ⟨hnone, hactive⟩ | ⟨hmark, o, v, rest, hh, hmem⟩⟩ := hostStep_frame hidle hs
  · exact ⟨hsb, hparams, step_withSb hidle hstep, fun hm => (by simp [hnone] at hm), fun _ => hactive⟩
  · obtain ⟨r, hr, rfl⟩ := registerAt_mem_passRegisters hmem
    exact ⟨hsb, hparams, step_withSb hidle hstep, fun _ => ⟨r, hr, v, rest, hh⟩, fun hn => (by simp [hmark] at hn)⟩

end Sys2Proof.Machine

/-! The router and the fetch: what a read and a write answer inside and past the SB, and the words of a fetched descriptor. -/

namespace Sys2Proof.Machine

/-! ## The SB's end -/

/-- The router's own check, as the statements spell it (R64). -/
theorem outsideSb_iff (sp : MemSpace) (a n : Nat) :
    outsideSb sp a n = true ↔ sp = .scratchBuffer ∧ 0 < n ∧ 4096 < a + n := by
  simp [outsideSb, and_assoc]

theorem memRead_outsideSb (s : State) {sp : MemSpace} {a n : Nat} (h : outsideSb sp a n = true) :
    memRead s sp a n = .error (.fatal .sbOutOfRange) := if_pos h

theorem memWrite_outsideSb (s : State) {sp : MemSpace} {a : Nat} {v : List Byte} (h : outsideSb sp a v.length = true) :
    memWrite s sp a v = .error (.fatal .sbOutOfRange) := if_pos h

/-! ## Reads and writes -/

/-- A read of Local memory is the read of System memory, its check included (R63). -/
theorem memRead_localMem (s : State) (a n : Nat) : memRead s .localMem a n = memRead s .system a n := rfl

/-- Settles O8: `outsideSb` decides which of the two answers a read gives, and `readBytes` holds the bytes index by index. -/
theorem routerReadGivesTheBytes : Obligations.RouterReadGivesTheBytes := by
  intro s sp a n
  rw [← outsideSb_iff]
  exact ⟨memRead_outsideSb s, fun hin => ⟨readBytes s sp a n, memRead_ok s sp a n (Bool.eq_false_iff.mpr hin),
    readBytes_length .., fun i hi => readBytes_getElem? s sp hi⟩, memRead_localMem s a n⟩

/-- Settles O9: `outsideSb` decides which of the two answers a write gives; one store changes nothing but the two stores
(`StoredBy.eq`), keeps their canonical form, and leaves the bytes of `readByte_writeBytes`. -/
theorem routerWriteChangesExactlyTheRange : Obligations.RouterWriteChangesExactlyTheRange := by
  intro s sp a v hwf
  rw [← outsideSb_iff]
  refine ⟨memWrite_outsideSb s, fun hin => ?_⟩
  have hout : outsideSb sp a v.length = false := Bool.eq_false_iff.mpr hin
  have hstored : StoredBy s (writeBytes s sp a v) := .store sp a v .refl hout
  exact ⟨writeBytes s sp a v, memWrite_ok s sp a v hout, hstored.eq, hstored.storesWf hwf, readByte_writeBytes hwf sp a v⟩

/-! ## Words of memory -/

theorem readBytes_succ (s : State) (sp : MemSpace) (a n : Nat) :
    readBytes s sp a (n + 1) = readByte s sp a :: readBytes s sp (a + 1) n := by
  cases sp <;> rfl

/-- A slice of the bytes read from a range is the bytes read from the part of the range. -/
theorem readBytes_slice (s : State) (sp : MemSpace) (a : Nat) {i m n : Nat} (h : i + m ≤ n) :
    ((readBytes s sp a n).drop i).take m = readBytes s sp (a + i) m := by
  obtain ⟨k, rfl⟩ := Nat.exists_eq_add_of_le h
  rw [Nat.add_assoc, readBytes_append, List.drop_left' (readBytes_length ..), readBytes_append,
    List.take_left' (readBytes_length ..)]

/-- The value of four bytes of memory, the byte at the lowest address the least significant (R71). -/
theorem leNat_readBytes_four (s : State) (sp : MemSpace) (a : Nat) :
    leNat (readBytes s sp a 4) = (readByte s sp a).toNat + 256 * (readByte s sp (a + 1)).toNat +
      65536 * (readByte s sp (a + 2)).toNat + 16777216 * (readByte s sp (a + 3)).toNat := by
  have hempty : leNat (readBytes s sp (a + 4) 0) = 0 := by cases sp <;> rfl
  simp only [readBytes_succ, leNat, Nat.add_assoc, Nat.reduceAdd, hempty]
  omega

/-- Word `k` of bytes read from memory has the value of its four bytes: it loses none of them to its width. -/
theorem toNat_wordOfBytes_readBytes (s : State) (sp : MemSpace) (a : Nat) {k n : Nat} (h : 4 * k + 4 ≤ n) :
    (wordOfBytes (readBytes s sp a n) k).toNat = leNat (readBytes s sp (a + 4 * k) 4) := by
  have hlt : leNat (readBytes s sp (a + 4 * k) 4) < 2 ^ 32 := by
    simpa using leNat_lt (readBytes s sp (a + 4 * k) 4)
  rw [wordOfBytes, readBytes_slice s sp a h, BitVec.toNat_ofNat, Nat.mod_eq_of_lt hlt]

/-- Settles O7: each fetched word is `wordOfBytes` of the 32 System bytes at the head, so it has the value of its own four. -/
theorem fetchReadsLittleEndianWords : Obligations.FetchReadsLittleEndianWords := by
  intro s q b w
  have hword : ∀ k < 8, (wordOfBytes (readBytes s .system q.head.toNat 32) k).toNat = w k := fun k hk =>
    (toNat_wordOfBytes_readBytes s .system q.head.toNat (by omega)).trans (leNat_readBytes_four ..)
  exact ⟨hword 0 (by decide), hword 1 (by decide), hword 2 (by decide), hword 3 (by decide), hword 4 (by decide),
    hword 5 (by decide), hword 6 (by decide), hword 7 (by decide)⟩

/-! ## Register accesses of another shape -/

/-- The accesses with a meaning (R76). The window holds every offset below 0x6000, so its size alone bounds them. -/
theorem accessDefined_iff (p : Params) (offset width : Nat) :
    accessDefined p offset width = true ↔ width = 32 ∧ offset % 4 = 0 ∧ offset < regWindowSize p := by
  have hwindow : (offset < 0x6000 ∨ offset < regWindowSize p) ↔ offset < regWindowSize p := by
    rw [regWindowSize]; omega
  simp only [accessDefined, Bool.and_eq_true, Bool.or_eq_true, beq_iff_eq, decide_eq_true_eq, hwindow, and_assoc]

/-- Outside a pass, a step of a block that is alive is the oldest pending action of the Host. -/
theorem step_eq_hostAction {s : State} {op : HostOp} {rest : List HostOp} (halive : s.fatal = none)
    (hidle : s.draining = false) (hhost : s.host = op :: rest) : step s = hostAction op { s with host := rest } := by
  simp [step, halive, hidle, hostStep, hhost]

/-- Settles O35: a read and a write make the same test of the access before anything else. -/
theorem otherAccessShapesAreRefused : Obligations.OtherAccessShapesAreRefused := by
  intro s offset width v rest halive hidle hhost hshape
  have hundefined : ¬ accessDefined s.params offset width = true := by
    rw [accessDefined_iff]; omega
  rcases hhost with hread | hwrite
  · rw [step_eq_hostAction halive hidle hread]; exact if_neg hundefined
  · rw [step_eq_hostAction halive hidle hwrite]; exact if_neg hundefined

end Sys2Proof.Machine

/-! The codec of descriptors: the decoder said case by case, the encoder as its inverse, and what each rejection names. -/

namespace Sys2Proof

open Sys2Proof.Machine

/-! ## The bits of a word as numbers -/

theorem toNat_getLsbD {n : Nat} (w : BitVec n) (i : Nat) : (w.getLsbD i).toNat = w.toNat / 2 ^ i % 2 := by
  rw [BitVec.getLsbD, Nat.toNat_testBit]

theorem toNat_extract {n : Nat} (w : BitVec n) (lo len : Nat) :
    (w.extractLsb' lo len).toNat = w.toNat / 2 ^ lo % 2 ^ len := by
  rw [BitVec.extractLsb'_toNat, Nat.shiftRight_eq_div_pow]

theorem extract_eq_zero_iff {n : Nat} (w : BitVec n) (lo len : Nat) :
    w.extractLsb' lo len = 0 ↔ w.toNat / 2 ^ lo % 2 ^ len = 0 := by
  rw [← BitVec.toNat_inj, toNat_extract]; rfl

theorem getLsbD_eq_false_iff {n : Nat} (w : BitVec n) (i : Nat) : w.getLsbD i = false ↔ w.toNat / 2 ^ i % 2 = 0 := by
  rw [← toNat_getLsbD, Bool.toNat_eq_zero]

/-! ## The checks of a descriptor, in order -/

theorem firstCause_cons (b : Bool) (c : Cause) (l : List (Bool × Cause)) :
    firstCause ((b, c) :: l) = if b = true then some c else firstCause l := rfl

theorem firstCause_isViolation {l : List (Bool × Cause)} (hl : l.all (fun x => x.2.isViolation) = true) {c : Cause}
    (h : firstCause l = some c) : c.isViolation = true :=
  List.all_eq_true.mp hl _ (firstCause_some l c h)

theorem overrunsSb_iff (o : Operand) (n : Nat) : overrunsSb o n = true ↔ pastSb o n := by
  simp [overrunsSb, and_assoc]

theorem contextOverruns_iff (contextId : BitVec 8) (n : Nat) :
    contextOverruns contextId n = true ↔ 4096 < contextId.toNat * 32 + n := by
  simp [contextOverruns]

/-- Every operand check is of class `V` (spec/60_exceptions.md R282). -/
theorem validate_isViolation {p : Params} {i : Instr} {c : Cause} (h : validate p i = some c) : c.isViolation = true := by
  cases i <;> exact firstCause_isViolation rfl h

/-! ## Engines and memory spaces -/

/-- The engine code that selects an engine (R111): the inverse of `engineOf`. -/
def codeOfEngine : Engine → BitVec 4
  | .aes => 0
  | .sha => 3
  | .rsa => 4
  | .passthrough => 5
  | .zlib => 6

theorem engineOf_eq_some_iff (c : BitVec 4) (e : Engine) : engineOf c = some e ↔ c = codeOfEngine e := by
  cases e <;> revert c <;> decide

theorem engineOf_eq_none_iff (c : BitVec 4) : engineOf c = none ↔ c ≠ 0 ∧ c ≠ 3 ∧ c ≠ 4 ∧ c ≠ 5 ∧ c ≠ 6 := by
  revert c; decide

theorem codeOfEngine_eq_three_iff (e : Engine) : codeOfEngine e = 3 ↔ e = .sha := by cases e <;> decide

theorem memSpaceOf_eq_some_iff (c : BitVec 2) (sp : MemSpace) : memSpaceOf c = some sp ↔ c = codeOfMemSpace sp := by
  cases sp <;> revert c <;> decide

theorem memSpaceOf_eq_none_iff (c : BitVec 2) : memSpaceOf c = none ↔ c = 3 := by revert c; decide

theorem decodeGeneral_eq_none {d : DescWords} (h : fieldMem d.dw3 = 3 ∨ fieldMem d.dw5 = 3 ∨ fieldMem d.dw7 = 3) :
    decodeGeneral d = none := by
  simp only [← memSpaceOf_eq_none_iff] at h
  unfold decodeGeneral
  split
  next h3 h5 h7 => simp [h3, h5, h7] at h
  next => rfl

theorem decodeShaOperands_eq_none {d : DescWords} (h : fieldMem d.dw3 = 3 ∨ fieldMem d.dw7 = 3) :
    decodeShaOperands d = none := by
  simp only [← memSpaceOf_eq_none_iff] at h
  unfold decodeShaOperands
  split
  next h3 h7 => simp [h3, h7] at h
  next => rfl

/-! ## The decoder, case by case (R123) -/

theorem reservedSet_iff (sha : Bool) (d : DescWords) :
    reservedSet sha d = true ↔ d.dw0.getLsbD 2 = true ∨ d.dw0.extractLsb' 25 7 ≠ 0 ∨ d.dw3.extractLsb' 26 5 ≠ 0 ∨
      d.dw7.extractLsb' 18 14 ≠ 0 ∨ (sha = false ∧ d.dw5.extractLsb' 18 13 ≠ 0) := by
  simp [reservedSet, bitAt, or_assoc]

/-- Steps 2 to 4 of R123: the checks on the raw words of a descriptor whose engine is known. -/
def rawChecks (e : Engine) (d : DescWords) : List (Bool × Cause) :=
  [(fieldProt d, .protectedBit), (reservedSet (e == .sha) d, .reservedBits),
    (fieldSrcFixed d || (e != .sha && fieldDstFixed d), .fixedAddress)]

theorem firstCause_rawChecks (e : Engine) (d : DescWords) : firstCause (rawChecks e d) =
    if fieldProt d = true then some .protectedBit
    else if reservedSet (e == .sha) d = true then some .reservedBits
    else if (fieldSrcFixed d || (e != .sha && fieldDstFixed d)) = true then some .fixedAddress
    else none := rfl

/-- Steps 5 and 6 of R123 and the checks of `function`, for a descriptor whose engine is known. -/
def readOperation (d : DescWords) : Engine → Except Cause Instr
  | .aes => withGeneral d (decodeAes (fieldFunction d))
  | .sha => withShaOperands d (decodeSha (fieldFunction d))
  | .rsa => withGeneral d (decodeRsa (fieldFunction d))
  | .passthrough => withGeneral d (decodePt (fieldFunction d))
  | .zlib => withGeneral d (decodeZlib (fieldFunction d))

section
variable {d : DescWords} {e : Engine}

theorem decodeFields_of_noEngine (he : engineOf (fieldEngine d) = none) : decodeFields d = .error .badEngine := by
  rw [decodeFields, he]

theorem decodeFields_of_rawCheck (he : engineOf (fieldEngine d) = some e) {c : Cause}
    (hc : firstCause (rawChecks e d) = some c) : decodeFields d = .error c := by
  rw [firstCause_rawChecks] at hc
  rw [decodeFields, he]
  split_ifs at hc with hprot hreserved hfixed <;> cases hc
  · exact if_pos hprot
  · exact (if_neg hprot).trans (if_pos hreserved)
  · exact (if_neg hprot).trans ((if_neg hreserved).trans (if_pos hfixed))

theorem decodeFields_of_rawChecks_pass (he : engineOf (fieldEngine d) = some e)
    (hc : firstCause (rawChecks e d) = none) : decodeFields d = readOperation d e := by
  simp only [rawChecks, firstCause_cons_none] at hc
  obtain ⟨hprot, hreserved, hfixed, -⟩ := hc
  rw [decodeFields, he]
  simp only [hprot, hreserved, hfixed]
  cases e <;> rfl

end

/-- The three ways `decodeFields` can answer. -/
theorem decodeFields_cases (d : DescWords) :
    decodeFields d = .error .badEngine ∨
    (∃ e c, engineOf (fieldEngine d) = some e ∧ firstCause (rawChecks e d) = some c ∧ decodeFields d = .error c) ∨
    (∃ e, engineOf (fieldEngine d) = some e ∧ firstCause (rawChecks e d) = none ∧ decodeFields d = readOperation d e) := by
  cases he : engineOf (fieldEngine d) with
  | none => exact .inl (decodeFields_of_noEngine he)
  | some e =>
    cases hc : firstCause (rawChecks e d) with
    | some c => exact .inr (.inl ⟨e, c, rfl, hc, decodeFields_of_rawCheck he hc⟩)
    | none => exact .inr (.inr ⟨e, rfl, hc, decodeFields_of_rawChecks_pass he hc⟩)

theorem readOperation_of_badSpace {d : DescWords} {e : Engine}
    (h : fieldMem d.dw3 = 3 ∨ fieldMem d.dw7 = 3 ∨ (e ≠ .sha ∧ fieldMem d.dw5 = 3)) :
    readOperation d e = .error .badMemSpace := by
  by_cases hsha : e = .sha
  · subst hsha
    have hnone : decodeShaOperands d = none := decodeShaOperands_eq_none (by simpa using h)
    simp only [readOperation, withShaOperands, hnone]
  · have hnone : decodeGeneral d = none := decodeGeneral_eq_none (by tauto)
    cases e with
    | sha => exact absurd rfl hsha
    | aes | rsa | passthrough | zlib => simp only [readOperation, withGeneral, hnone]

theorem decode_of_decodeFields_error {d : DescWords} {c : Cause} (h : decodeFields d = .error c) (p : Params) :
    decode p d = .error c := by
  rw [decode, h]

theorem decode_eq_ok_iff (p : Params) (d : DescWords) (i : Instr) :
    decode p d = .ok i ↔ decodeFields d = .ok i ∧ i.wf p = true := by
  rw [decode]
  cases decodeFields d with
  | error c => simp
  | ok j =>
    cases hv : validate p j with
    | some c =>
      have hwf : ¬ j.wf p = true := by simp [← validate_eq_none, hv]
      simp only [hv, reduceCtorEq, Except.ok.injEq, false_iff]
      rintro ⟨rfl, h⟩
      exact hwf h
    | none =>
      have hwf : j.wf p = true := (validate_eq_none p j).mp hv
      simp only [hv, Except.ok.injEq]
      exact ⟨fun h => ⟨h, h ▸ hwf⟩, fun h => h.1⟩

theorem decode_eq_error_cases {p : Params} {d : DescWords} {c : Cause} (h : decode p d = .error c) :
    decodeFields d = .error c ∨ ∃ i, validate p i = some c := by
  rw [decode] at h
  cases hd : decodeFields d with
  | error c' => simp only [hd] at h; cases h; exact .inl rfl
  | ok i =>
    cases hv : validate p i with
    | some c' => simp only [hd, hv] at h; cases h; exact .inr ⟨i, hv⟩
    | none => simp only [hd, hv] at h; cases h

/-! ## The raw-word checks in order -/

theorem ne_sha_iff_of_engineOf {d : DescWords} {e : Engine} (he : engineOf (fieldEngine d) = some e) :
    e ≠ .sha ↔ d.dw0.extractLsb' 20 4 ≠ 3 := by
  have hcode : d.dw0.extractLsb' 20 4 = codeOfEngine e := (engineOf_eq_some_iff _ e).mp he
  rw [hcode, Ne, Ne, codeOfEngine_eq_three_iff]

theorem fixedSet_iff (e : Engine) (d : DescWords) : (fieldSrcFixed d || (e != .sha && fieldDstFixed d)) = true ↔
    d.dw3.getLsbD 31 = true ∨ (e ≠ .sha ∧ d.dw5.getLsbD 31 = true) := by
  simp [fieldSrcFixed, fieldDstFixed, bitAt]

/-- Settles O3: the first branch is a code with no engine, the next three are `rawChecks`, the last is step 5. -/
theorem decodeNamesTheFirstFailedCheck : Obligations.DecodeNamesTheFirstFailedCheck := by
  intro p d engine
  cases he : engineOf (fieldEngine d) with
  | none =>
    rw [if_pos ((engineOf_eq_none_iff engine).mp he)]
    exact decode_of_decodeFields_error (decodeFields_of_noEngine he) p
  | some e =>
    have hengine : ¬ (engine ≠ 0 ∧ engine ≠ 3 ∧ engine ≠ 4 ∧ engine ≠ 5 ∧ engine ≠ 6) := by
      rw [← engineOf_eq_none_iff, show engineOf engine = some e from he]; exact Option.some_ne_none e
    have hsha : e ≠ .sha ↔ engine ≠ 3 := ne_sha_iff_of_engineOf he
    have hreserved := reservedSet_iff (e == .sha) d
    have hfixed := fixedSet_iff e d
    rw [beq_eq_false_iff_ne, hsha] at hreserved
    rw [hsha] at hfixed
    rw [if_neg hengine, if_congr hreserved.symm rfl (if_congr hfixed.symm rfl rfl)]
    have hchecks := firstCause_rawChecks e d
    have hprot : fieldProt d = d.dw0.getLsbD 24 := rfl
    rw [← hprot]
    split_ifs at hchecks ⊢ with hp hr hf hspace
    · exact decode_of_decodeFields_error (decodeFields_of_rawCheck he hchecks) p
    · exact decode_of_decodeFields_error (decodeFields_of_rawCheck he hchecks) p
    · exact decode_of_decodeFields_error (decodeFields_of_rawCheck he hchecks) p
    · refine decode_of_decodeFields_error ((decodeFields_of_rawChecks_pass he hchecks).trans ?_) p
      exact readOperation_of_badSpace (by rwa [hsha])

/-! ## The readings of `function` -/

/-- The key size of a type code below 3 (R118): the inverse of `codeOfAesKey`. -/
def aesKeyOfCode (type : Nat) : AesKey := if type = 0 then .k128 else if type = 1 then .k192 else .k256

theorem codeOfAesKey_aesKeyOfCode {type : Nat} (h : type < 3) : codeOfAesKey (aesKeyOfCode type) = type := by
  interval_cases type <;> rfl

theorem aesKeyOfCode_codeOfAesKey (k : AesKey) : aesKeyOfCode (codeOfAesKey k) = k := by cases k <;> rfl

/-- The AES operation of a mode code below 4 (R117). -/
def aesOfMode (mode : Nat) (encrypt : Bool) (k : AesKey) (size : BitVec 7) (d : GenDesc) : Instr :=
  if mode = 0 then .aesEcb encrypt k size d else if mode = 1 then .aesCbc encrypt k size d
  else if mode = 2 then .aesOfb encrypt k size d else .aesCfb encrypt k size d

theorem encode_aesOfMode {mode : Nat} (h : mode < 4) (encrypt : Bool) (k : AesKey) (size : BitVec 7) (d : GenDesc) :
    encode (aesOfMode mode encrypt k size d) = packGeneral (packAes size encrypt mode k) 0 d := by
  interval_cases mode <;> rfl

/-- The SHA operation of a type code from 1 to 5 (R119). -/
def shaOfType (type : Nat) (d : ShaDesc) : Instr :=
  if type = 1 then .sha1 d else if type = 2 then .sha224 d else if type = 3 then .sha256 d
  else if type = 4 then .sha384 d else .sha512 d

theorem encode_shaOfType {type : Nat} (hpos : 0 < type) (h : type < 6) (d : ShaDesc) :
    encode (shaOfType type d) = packSha (BitVec.ofNat 15 (1024 * type)) d := by
  interval_cases type <;> rfl

/-- The AES `function` by the numbers of its sub-fields (R117, R118; spec/42_aes.md R211). -/
theorem decodeAes_eq (fn : BitVec 15) (d : GenDesc) : decodeAes fn d =
    if 4 ≤ (fn.extractLsb' 8 5).toNat then .error .aesBadMode
    else if (fn.extractLsb' 13 2).toNat = 3 then .error .aesBadKeySize
    else .ok (aesOfMode (fn.extractLsb' 8 5).toNat (fn.getLsbD 7) (aesKeyOfCode (fn.extractLsb' 13 2).toNat)
      (fn.extractLsb' 0 7) d) := by
  simp only [decodeAes, aesOfMode, aesKeyOfCode, ← BitVec.toNat_inj, BitVec.reduceToNat, apply_ite Except.ok]

/-- The SHA `function` by the numbers of its sub-fields (R119; spec/43_sha.md R231). -/
theorem decodeSha_eq (fn : BitVec 15) (d : ShaDesc) : decodeSha fn d =
    if (fn.extractLsb' 10 4).toNat = 0 ∨ 6 ≤ (fn.extractLsb' 10 4).toNat then .error .shaBadType
    else if fn.extractLsb' 0 10 ≠ 0 ∨ fn.getLsbD 14 = true then .error .reservedBits
    else .ok (shaOfType (fn.extractLsb' 10 4).toNat d) := by
  simp only [decodeSha, shaOfType, ← BitVec.toNat_inj, BitVec.reduceToNat, apply_ite Except.ok]

/-! ## Soundness -/

theorem withGeneral_eq_error {d : DescWords} {f : GenDesc → Except Cause Instr} {c : Cause}
    (h : withGeneral d f = .error c) : c = .badMemSpace ∨ ∃ g, f g = .error c := by
  rw [withGeneral] at h
  split at h
  · cases h; exact .inl rfl
  · next g _ => exact .inr ⟨g, h⟩

theorem withShaOperands_eq_error {d : DescWords} {f : ShaDesc → Except Cause Instr} {c : Cause}
    (h : withShaOperands d f = .error c) : c = .badMemSpace ∨ ∃ g, f g = .error c := by
  rw [withShaOperands] at h
  split at h
  · cases h; exact .inl rfl
  · next g _ => exact .inr ⟨g, h⟩

theorem decodeAes_isViolation {fn : BitVec 15} {d : GenDesc} {c : Cause} (h : decodeAes fn d = .error c) :
    c.isViolation = true := by
  rw [decodeAes_eq] at h; split_ifs at h <;> cases h <;> rfl

theorem decodeSha_isViolation {fn : BitVec 15} {d : ShaDesc} {c : Cause} (h : decodeSha fn d = .error c) :
    c.isViolation = true := by
  rw [decodeSha_eq] at h; split_ifs at h <;> cases h <;> rfl

theorem decodeRsa_isViolation {fn : BitVec 15} {d : GenDesc} {c : Cause} (h : decodeRsa fn d = .error c) :
    c.isViolation = true := by
  rw [decodeRsa] at h; split_ifs at h; cases h; rfl

theorem decodePt_isViolation {fn : BitVec 15} {d : GenDesc} {c : Cause} (h : decodePt fn d = .error c) :
    c.isViolation = true := by
  simp only [decodePt] at h; split_ifs at h <;> cases h <;> rfl

theorem decodeZlib_isViolation {fn : BitVec 15} {d : GenDesc} {c : Cause} (h : decodeZlib fn d = .error c) :
    c.isViolation = true := by
  rw [decodeZlib] at h; split_ifs at h; cases h; rfl

theorem readOperation_isViolation {d : DescWords} {e : Engine} {c : Cause} (h : readOperation d e = .error c) :
    c.isViolation = true := by
  cases e with
  | aes => obtain rfl | ⟨g, hg⟩ := withGeneral_eq_error h; exacts [rfl, decodeAes_isViolation hg]
  | sha => obtain rfl | ⟨g, hg⟩ := withShaOperands_eq_error h; exacts [rfl, decodeSha_isViolation hg]
  | rsa => obtain rfl | ⟨g, hg⟩ := withGeneral_eq_error h; exacts [rfl, decodeRsa_isViolation hg]
  | passthrough => obtain rfl | ⟨g, hg⟩ := withGeneral_eq_error h; exacts [rfl, decodePt_isViolation hg]
  | zlib => obtain rfl | ⟨g, hg⟩ := withGeneral_eq_error h; exacts [rfl, decodeZlib_isViolation hg]

theorem decodeFields_isViolation {d : DescWords} {c : Cause} (h : decodeFields d = .error c) : c.isViolation = true := by
  obtain hd | ⟨e, c', -, hc, hd⟩ | ⟨e, -, -, hd⟩ := decodeFields_cases d <;> rw [hd] at h
  · cases h; rfl
  · cases h; exact firstCause_isViolation rfl hc
  · exact readOperation_isViolation h

/-- Settles O2: an instruction is answered only where `validate` passes, and every cause comes from `decodeFields` or from
`validate`. -/
theorem decodeIsSound : Obligations.DecodeIsSound := by
  refine fun p d => ⟨fun i h => ((decode_eq_ok_iff p d i).mp h).2, fun c h => ?_⟩
  obtain hd | ⟨i, hv⟩ := decode_eq_error_cases h
  · exact decodeFields_isViolation hd
  · exact validate_isViolation hv

/-! ## The operand checks in order -/

theorem validateAes_eq (p : Params) (iv : Bool) (k : AesKey) (size : BitVec 7) (d : GenDesc) :
    validateAes p iv k size d =
      if p.aesSizeCheck = .mustBeZero ∧ size ≠ 0 then some .reservedBits
      else if d.length.toNat % 16 ≠ 0 then some .aesBadLength
      else if iv = true ∧ 4096 < d.contextId.toNat * 32 + 16 then some .contextRange
      else if pastSb d.source d.length.toNat ∨ pastSb d.dest d.length.toNat ∨ pastSb d.key k.bytes then
        some .sbOperandRange
      else none := by
  simp only [validateAes, firstCause_cons, firstCause_nil, Bool.and_eq_true, beq_iff_eq, bne_iff_ne, overrunsSb_iff,
    contextOverruns_iff, ite_or]

theorem validateSha_eq (area block : Nat) (d : ShaDesc) :
    validateSha area block d =
      if d.shaLen.toNat % 8 ≠ 0 then some .shaBadLength
      else if d.shaLen.toNat / 8 < d.length.toNat then some .shaBadLength
      else if (d.shaLen.toNat / 8 - d.length.toNat) % block ≠ 0 then some .shaUnaligned
      else if d.flags.eom = false ∧ d.length.toNat % block ≠ 0 then some .shaUnaligned
      else if 4096 < d.contextId.toNat * 32 + area then some .contextRange
      else if pastSb d.source d.length.toNat then some .sbOperandRange
      else none := by
  simp only [validateSha, firstCause_cons, firstCause_nil, Bool.and_eq_true, Bool.not_eq_true', bne_iff_ne,
    decide_eq_true_eq, overrunsSb_iff, contextOverruns_iff]

/-- Settles O5: the readings of `function` by numbers, and the operand checks of the two engines; ECB has no context slot. -/
theorem aesAndShaChecksInOrder : Obligations.AesAndShaChecksInOrder := by
  refine ⟨decodeAes_eq, decodeSha_eq, fun p encrypt k size d => ⟨?ecb, ?chained⟩, ?sha⟩
  case ecb =>
    have hecb := validateAes_eq p false k size d
    simp only [Bool.false_eq_true, false_and, if_false] at hecb
    exact hecb
  case chained =>
    have hiv := validateAes_eq p true k size d
    simp only [true_and] at hiv
    intro i hi
    fin_cases hi <;> exact hiv
  case sha =>
    intro p d x hx
    fin_cases hx <;> exact validateSha_eq _ _ d

/-! ## Encoding undoes decoding: word by word -/

theorem packControl_of_fields (d : DescWords) (h2 : bitAt d.dw0 2 = false) (hprot : fieldProt d = false)
    (htop : d.dw0.extractLsb' 25 7 = 0) : packControl (fieldFlags d) (fieldFunction d) (fieldEngine d) = d.dw0 := by
  apply BitVec.eq_of_toNat_eq
  rw [packControl_toNat]
  simp only [fieldProt, bitAt, getLsbD_eq_false_iff, extract_eq_zero_iff] at h2 hprot htop
  simp only [fieldFlags, fieldSoc, fieldIoc, fieldInit, fieldEom, fieldFunction, fieldEngine, bitAt, toNat_getLsbD,
    toNat_extract]
  have := d.dw0.isLt
  omega

theorem toNat_fieldAddr (hi lo : Word) : (fieldAddr hi lo).toNat = 4294967296 * (hi.toNat % 65536) + lo.toNat := by
  rw [fieldAddr, BitVec.toNat_append, ← Nat.shiftLeft_add_eq_or_of_lt lo.isLt, toNat_extract, Nat.shiftLeft_eq]
  omega

theorem packLo_of_fields (sp : MemSpace) (hi lo : Word) : packLo ⟨sp, fieldAddr hi lo⟩ = lo := by
  apply BitVec.eq_of_toNat_eq
  rw [packLo, toNat_extract, toNat_fieldAddr]
  have := lo.isLt
  omega

/-- The high word of an operand, whatever its bits above the space code stand for. -/
theorem packHi_of_fields {sp : MemSpace} {hi : Word} (lo : Word) {contextId : BitVec 8}
    (hsp : memSpaceOf (fieldMem hi) = some sp) (hc : hi.toNat / 262144 = contextId.toNat) :
    packHi ⟨sp, fieldAddr hi lo⟩ contextId = hi := by
  apply BitVec.eq_of_toNat_eq
  have hcode : (codeOfMemSpace sp).toNat = hi.toNat / 2 ^ 16 % 2 ^ 2 := by
    rw [← (memSpaceOf_eq_some_iff _ _).mp hsp, fieldMem, toNat_extract]
  rw [packHi_toNat, hcode, toNat_fieldAddr]
  have := lo.isLt
  omega

section
variable {d : DescWords} {sp : MemSpace} (lo : Word)

/-- Word 3: the context id and no reserved or fixed bit above it (R104). -/
theorem packHi_dw3 (hsp : memSpaceOf (fieldMem d.dw3) = some sp) (hreserved : d.dw3.extractLsb' 26 5 = 0)
    (hfixed : fieldSrcFixed d = false) : packHi ⟨sp, fieldAddr d.dw3 lo⟩ (fieldContextId d) = d.dw3 := by
  refine packHi_of_fields lo hsp ?_
  simp only [fieldSrcFixed, bitAt, getLsbD_eq_false_iff, extract_eq_zero_iff] at hreserved hfixed
  rw [fieldContextId, toNat_extract]
  have := d.dw3.isLt
  omega

/-- Word 5: no reserved or fixed bit above the space code (R105). -/
theorem packHi_dw5 (hsp : memSpaceOf (fieldMem d.dw5) = some sp) (hreserved : d.dw5.extractLsb' 18 13 = 0)
    (hfixed : fieldDstFixed d = false) : packHi ⟨sp, fieldAddr d.dw5 lo⟩ 0 = d.dw5 := by
  refine packHi_of_fields lo hsp ?_
  simp only [fieldDstFixed, bitAt, getLsbD_eq_false_iff, extract_eq_zero_iff] at hreserved hfixed
  change d.dw5.toNat / 262144 = 0
  have := d.dw5.isLt
  omega

/-- Word 7: no reserved bit above the space code (R108). -/
theorem packHi_dw7 (hsp : memSpaceOf (fieldMem d.dw7) = some sp) (hreserved : d.dw7.extractLsb' 18 14 = 0) :
    packHi ⟨sp, fieldAddr d.dw7 lo⟩ 0 = d.dw7 := by
  refine packHi_of_fields lo hsp ?_
  rw [extract_eq_zero_iff] at hreserved
  change d.dw7.toNat / 262144 = 0
  have := d.dw7.isLt
  omega

end

theorem reservedSet_eq_false_iff (sha : Bool) (d : DescWords) :
    reservedSet sha d = false ↔ bitAt d.dw0 2 = false ∧ d.dw0.extractLsb' 25 7 = 0 ∧ d.dw3.extractLsb' 26 5 = 0 ∧
      d.dw7.extractLsb' 18 14 = 0 ∧ (sha = false → d.dw5.extractLsb' 18 13 = 0) := by
  cases sha <;> simp [reservedSet, and_assoc]

theorem decodeGeneral_eq_some {d : DescWords} {g : GenDesc} (h : decodeGeneral d = some g) :
    ∃ src dst key, memSpaceOf (fieldMem d.dw3) = some src ∧ memSpaceOf (fieldMem d.dw5) = some dst ∧
      memSpaceOf (fieldMem d.dw7) = some key ∧
      g = ⟨fieldFlags d, fieldLength d, ⟨src, fieldAddr d.dw3 d.dw2⟩, fieldContextId d, ⟨dst, fieldAddr d.dw5 d.dw4⟩,
        ⟨key, fieldAddr d.dw7 d.dw6⟩⟩ := by
  rw [decodeGeneral] at h
  split at h
  next src dst key hsrc hdst hkey => cases h; exact ⟨src, dst, key, hsrc, hdst, hkey, rfl⟩
  next => cases h

theorem decodeShaOperands_eq_some {d : DescWords} {g : ShaDesc} (h : decodeShaOperands d = some g) :
    ∃ src key, memSpaceOf (fieldMem d.dw3) = some src ∧ memSpaceOf (fieldMem d.dw7) = some key ∧
      g = ⟨fieldFlags d, fieldLength d, ⟨src, fieldAddr d.dw3 d.dw2⟩, fieldContextId d, fieldShaLen d,
        ⟨key, fieldAddr d.dw7 d.dw6⟩⟩ := by
  rw [decodeShaOperands] at h
  split at h
  next src key hsrc hkey => cases h; exact ⟨src, key, hsrc, hkey, rfl⟩
  next => cases h

theorem packGeneral_of_fields {d : DescWords} {e : Engine} {code : BitVec 4} {g : GenDesc}
    (he : engineOf (fieldEngine d) = some e) (hcode : engineOf code = some e) (hsha : e ≠ .sha)
    (hc : firstCause (rawChecks e d) = none) (hg : decodeGeneral d = some g) :
    packGeneral (fieldFunction d) code g = d := by
  obtain ⟨src, dst, key, hsrc, hdst, hkey, rfl⟩ := decodeGeneral_eq_some hg
  simp only [rawChecks, firstCause_cons_none, beq_false_of_ne hsha, bne, Bool.not_false, Bool.true_and,
    Bool.or_eq_false_iff, reservedSet_eq_false_iff] at hc
  obtain ⟨hprot, ⟨h2, htop, h3, h7, h5⟩, ⟨hsrcFixed, hdstFixed⟩, -⟩ := hc
  rw [(engineOf_eq_some_iff _ _).mp hcode, ← (engineOf_eq_some_iff _ _).mp he]
  simp only [packGeneral, packControl_of_fields d h2 hprot htop, packLo_of_fields,
    packHi_dw3 _ hsrc h3 hsrcFixed, packHi_dw5 _ hdst (h5 trivial) hdstFixed, packHi_dw7 _ hkey h7, fieldLength]

theorem packSha_of_fields {d : DescWords} {g : ShaDesc} (he : engineOf (fieldEngine d) = some .sha)
    (hc : firstCause (rawChecks .sha d) = none) (hg : decodeShaOperands d = some g) : packSha (fieldFunction d) g = d := by
  obtain ⟨src, key, hsrc, hkey, rfl⟩ := decodeShaOperands_eq_some hg
  simp only [rawChecks, firstCause_cons_none, Bool.or_eq_false_iff, reservedSet_eq_false_iff] at hc
  obtain ⟨hprot, ⟨h2, htop, h3, h7, -⟩, ⟨hsrcFixed, -⟩, -⟩ := hc
  have hengine : fieldEngine d = 3 := (engineOf_eq_some_iff _ _).mp he
  have hhigh : (fieldShaLen d).extractLsb' 32 32 = d.dw5 := BitVec.extractLsb'_append_eq_left
  have hlow : (fieldShaLen d).extractLsb' 0 32 = d.dw4 := BitVec.extractLsb'_append_eq_right
  simp only [packSha, ← hengine, packControl_of_fields d h2 hprot htop, packLo_of_fields,
    packHi_dw3 _ hsrc h3 hsrcFixed, packHi_dw7 _ hkey h7, hhigh, hlow, fieldLength]

/-! ## Encoding undoes decoding: `function` -/

theorem packAes_toNat (size : BitVec 7) (encrypt : Bool) {mode : Nat} (hmode : mode < 4) (k : AesKey) :
    (packAes size encrypt mode k).toNat = size.toNat + 128 * encrypt.toNat + 256 * mode + 8192 * codeOfAesKey k := by
  have hk : codeOfAesKey k < 3 := by cases k <;> decide
  have := size.isLt
  have := encrypt.toNat_lt
  rw [packAes, BitVec.toNat_ofNat]
  omega

theorem encode_of_decodeAes {fn : BitVec 15} {d : GenDesc} {i : Instr} (h : decodeAes fn d = .ok i) :
    encode i = packGeneral fn 0 d := by
  rw [decodeAes_eq] at h
  split_ifs at h with hmode htype
  cases h
  rw [Nat.not_le] at hmode
  rw [encode_aesOfMode hmode]
  congr
  apply BitVec.eq_of_toNat_eq
  have htype' := (fn.extractLsb' 13 2).isLt
  rw [packAes_toNat _ _ hmode, codeOfAesKey_aesKeyOfCode (by omega)]
  simp only [toNat_extract, toNat_getLsbD] at *
  have := fn.isLt
  omega

theorem encode_of_decodeSha {fn : BitVec 15} {d : ShaDesc} {i : Instr} (h : decodeSha fn d = .ok i) :
    encode i = packSha fn d := by
  rw [decodeSha_eq] at h
  split_ifs at h with htype hreserved
  cases h
  simp only [not_or, not_not, Bool.not_eq_true, extract_eq_zero_iff, getLsbD_eq_false_iff] at hreserved
  rw [encode_shaOfType (by omega) (by omega)]
  congr
  apply BitVec.eq_of_toNat_eq
  rw [BitVec.toNat_ofNat]
  simp only [toNat_extract] at *
  have := fn.isLt
  omega

theorem encode_of_decodeRsa {fn : BitVec 15} {d : GenDesc} {i : Instr} (h : decodeRsa fn d = .ok i) :
    encode i = packGeneral fn 4 d := by
  rw [decodeRsa] at h
  split_ifs at h with hreserved
  cases h
  rw [encode]
  congr
  apply BitVec.eq_of_toNat_eq
  simp only [not_not, extract_eq_zero_iff] at hreserved
  rw [BitVec.toNat_ofNat, toNat_extract]
  have := fn.isLt
  omega

/-- A Passthrough `function` whose other sub-fields are 0 is its `byteswap`. -/
theorem eq_of_byteswap {fn : BitVec 15} {v : BitVec 2} (h7 : fn.extractLsb' 7 8 = 0) (h2 : fn.extractLsb' 2 3 = 0)
    (h5 : fn.extractLsb' 5 2 = 0) (hv : fn.extractLsb' 0 2 = v) : fn = BitVec.ofNat 15 v.toNat := by
  apply BitVec.eq_of_toNat_eq
  subst hv
  simp only [extract_eq_zero_iff, toNat_extract, BitVec.toNat_ofNat] at *
  have := fn.isLt
  omega

theorem encode_of_decodePt {fn : BitVec 15} {d : GenDesc} {i : Instr} (h : decodePt fn d = .ok i) :
    encode i = packGeneral fn 5 d := by
  simp only [decodePt] at h
  split_ifs at h with h7 h2 h5 hcopy hswap <;> cases h
  · rw [eq_of_byteswap (not_not.mp h7) (not_not.mp h2) (not_not.mp h5) hcopy]; rfl
  · rw [eq_of_byteswap (not_not.mp h7) (not_not.mp h2) (not_not.mp h5) hswap]; rfl

theorem encode_of_decodeZlib {fn : BitVec 15} {d : GenDesc} {i : Instr} (h : decodeZlib fn d = .ok i) :
    encode i = packGeneral fn 6 d := by
  rw [decodeZlib] at h
  split_ifs at h with hfn
  cases h
  rw [not_not.mp hfn, encode]

theorem withGeneral_eq_ok {d : DescWords} {f : GenDesc → Except Cause Instr} {i : Instr}
    (h : withGeneral d f = .ok i) : ∃ g, decodeGeneral d = some g ∧ f g = .ok i := by
  rw [withGeneral] at h
  split at h
  next => cases h
  next g hg => exact ⟨g, hg, h⟩

theorem withShaOperands_eq_ok {d : DescWords} {f : ShaDesc → Except Cause Instr} {i : Instr}
    (h : withShaOperands d f = .ok i) : ∃ g, decodeShaOperands d = some g ∧ f g = .ok i := by
  rw [withShaOperands] at h
  split at h
  next => cases h
  next g hg => exact ⟨g, hg, h⟩

theorem encode_of_readOperation {d : DescWords} {e : Engine} {i : Instr} (he : engineOf (fieldEngine d) = some e)
    (hc : firstCause (rawChecks e d) = none) (h : readOperation d e = .ok i) : encode i = d := by
  cases e with
  | sha =>
    obtain ⟨g, hg, hi⟩ := withShaOperands_eq_ok h
    exact (encode_of_decodeSha hi).trans (packSha_of_fields he hc hg)
  | aes =>
    obtain ⟨g, hg, hi⟩ := withGeneral_eq_ok h
    exact (encode_of_decodeAes hi).trans (packGeneral_of_fields he rfl (by decide) hc hg)
  | rsa =>
    obtain ⟨g, hg, hi⟩ := withGeneral_eq_ok h
    exact (encode_of_decodeRsa hi).trans (packGeneral_of_fields he rfl (by decide) hc hg)
  | passthrough =>
    obtain ⟨g, hg, hi⟩ := withGeneral_eq_ok h
    exact (encode_of_decodePt hi).trans (packGeneral_of_fields he rfl (by decide) hc hg)
  | zlib =>
    obtain ⟨g, hg, hi⟩ := withGeneral_eq_ok h
    exact (encode_of_decodeZlib hi).trans (packGeneral_of_fields he rfl (by decide) hc hg)

/-- Encoding the instruction that eight words stand for gives the words back (R129). -/
theorem encode_of_decodeFields {d : DescWords} {i : Instr} (h : decodeFields d = .ok i) : encode i = d := by
  obtain hd | ⟨e, c, -, -, hd⟩ | ⟨e, he, hc, hd⟩ := decodeFields_cases d <;> rw [hd] at h
  · cases h
  · cases h
  · exact encode_of_readOperation he hc h

/-! ## Decoding undoes encoding -/

theorem decodeFields_packGeneral {c : BitVec 4} {e : Engine} (he : engineOf c = some e) (hsha : e ≠ .sha)
    (fn : BitVec 15) (d : GenDesc) : decodeFields (packGeneral fn c d) = readOperation (packGeneral fn c d) e := by
  obtain ⟨hengine, hprot, hreserved, hsrcFixed, hdstFixed, -⟩ := packGeneral_checks fn c d
  refine decodeFields_of_rawChecks_pass (hengine.symm ▸ he) ?_
  simp [rawChecks, firstCause_cons_none, beq_false_of_ne hsha, hprot, hreserved, hsrcFixed, hdstFixed]

theorem withGeneral_packGeneral (fn : BitVec 15) (c : BitVec 4) (d : GenDesc)
    (f : BitVec 15 → GenDesc → Except Cause Instr) :
    withGeneral (packGeneral fn c d) (f (fieldFunction (packGeneral fn c d))) = f fn d := by
  obtain ⟨-, -, -, -, -, hfn⟩ := packGeneral_checks fn c d
  rw [withGeneral, decodeGeneral_packGeneral, hfn]

theorem decodeFields_packGeneral_aes (fn : BitVec 15) (d : GenDesc) :
    decodeFields (packGeneral fn 0 d) = decodeAes fn d :=
  (decodeFields_packGeneral (e := .aes) rfl (by decide) fn d).trans (withGeneral_packGeneral fn 0 d decodeAes)

theorem decodeFields_packGeneral_rsa (fn : BitVec 15) (d : GenDesc) :
    decodeFields (packGeneral fn 4 d) = decodeRsa fn d :=
  (decodeFields_packGeneral (e := .rsa) rfl (by decide) fn d).trans (withGeneral_packGeneral fn 4 d decodeRsa)

theorem decodeFields_packGeneral_pt (fn : BitVec 15) (d : GenDesc) :
    decodeFields (packGeneral fn 5 d) = decodePt fn d :=
  (decodeFields_packGeneral (e := .passthrough) rfl (by decide) fn d).trans (withGeneral_packGeneral fn 5 d decodePt)

theorem decodeFields_packGeneral_zlib (fn : BitVec 15) (d : GenDesc) :
    decodeFields (packGeneral fn 6 d) = decodeZlib fn d :=
  (decodeFields_packGeneral (e := .zlib) rfl (by decide) fn d).trans (withGeneral_packGeneral fn 6 d decodeZlib)

theorem decodeFields_packSha (fn : BitVec 15) (d : ShaDesc) : decodeFields (packSha fn d) = decodeSha fn d := by
  obtain ⟨hengine, hprot, hreserved, hsrcFixed, hfn⟩ := packSha_checks fn d
  have hpass : firstCause (rawChecks .sha (packSha fn d)) = none := by
    simp [rawChecks, firstCause_cons_none, hprot, hreserved, hsrcFixed]
  rw [decodeFields_of_rawChecks_pass ((engineOf_eq_some_iff _ .sha).mpr hengine) hpass, readOperation, withShaOperands,
    decodeShaOperands_packSha, hfn]

theorem decodeAes_packAes (size : BitVec 7) (encrypt : Bool) {mode : Nat} (hmode : mode < 4) (k : AesKey) (d : GenDesc) :
    decodeAes (packAes size encrypt mode k) d = .ok (aesOfMode mode encrypt k size d) := by
  have hk : codeOfAesKey k < 3 := by cases k <;> decide
  have hn := packAes_toNat size encrypt hmode k
  have := size.isLt
  have := encrypt.toNat_lt
  have hmodeField : ((packAes size encrypt mode k).extractLsb' 8 5).toNat = mode := by rw [toNat_extract, hn]; omega
  have htypeField : ((packAes size encrypt mode k).extractLsb' 13 2).toNat = codeOfAesKey k := by
    rw [toNat_extract, hn]; omega
  have hsizeField : (packAes size encrypt mode k).extractLsb' 0 7 = size := by
    apply BitVec.eq_of_toNat_eq; rw [toNat_extract, hn]; omega
  have hencryptField : (packAes size encrypt mode k).getLsbD 7 = encrypt := by
    rw [Bool.eq_iff_iff, ← Bool.toNat_eq_one, ← Bool.toNat_eq_one, toNat_getLsbD, hn]; omega
  rw [decodeAes_eq, hmodeField, htypeField, hsizeField, hencryptField, if_neg (by omega), if_neg (by omega),
    aesKeyOfCode_codeOfAesKey]

theorem decodeRsa_pack (size : BitVec 12) (d : GenDesc) :
    decodeRsa (BitVec.ofNat 15 (8 * size.toNat)) d = .ok (.rsa size d) := by
  have := size.isLt
  have hn : (BitVec.ofNat 15 (8 * size.toNat)).toNat = 8 * size.toNat := by rw [BitVec.toNat_ofNat]; omega
  have hlow : (BitVec.ofNat 15 (8 * size.toNat)).extractLsb' 0 3 = 0 := by
    apply (extract_eq_zero_iff _ _ _).mpr; rw [hn]; omega
  have hsize : (BitVec.ofNat 15 (8 * size.toNat)).extractLsb' 3 12 = size := by
    apply BitVec.eq_of_toNat_eq; rw [toNat_extract, hn]; omega
  rw [decodeRsa, hlow, hsize, if_neg (by simp)]

/-- The fields decoded from the words of an instruction are the instruction (R129). -/
theorem decodeFields_encode (i : Instr) : decodeFields (encode i) = .ok i := by
  cases i with
  | aesEcb encrypt k size d =>
    exact (decodeFields_packGeneral_aes _ d).trans (decodeAes_packAes size encrypt (mode := 0) (by decide) k d)
  | aesCbc encrypt k size d =>
    exact (decodeFields_packGeneral_aes _ d).trans (decodeAes_packAes size encrypt (mode := 1) (by decide) k d)
  | aesOfb encrypt k size d =>
    exact (decodeFields_packGeneral_aes _ d).trans (decodeAes_packAes size encrypt (mode := 2) (by decide) k d)
  | aesCfb encrypt k size d =>
    exact (decodeFields_packGeneral_aes _ d).trans (decodeAes_packAes size encrypt (mode := 3) (by decide) k d)
  | sha1 d | sha224 d | sha256 d | sha384 d | sha512 d => exact (decodeFields_packSha _ d).trans rfl
  | rsa size d => exact (decodeFields_packGeneral_rsa _ d).trans (decodeRsa_pack size d)
  | ptCopy d | ptSwap256 d => exact (decodeFields_packGeneral_pt _ d).trans rfl
  | zlib d => exact (decodeFields_packGeneral_zlib _ d).trans rfl

/-- A well-formed instruction passes every check of the decoder (R123, R129). -/
theorem decode_encode {p : Params} {i : Instr} (h : i.wf p = true) : decode p (encode i) = .ok i :=
  (decode_eq_ok_iff p _ i).mpr ⟨decodeFields_encode i, h⟩

/-! ## The 32 bytes of a descriptor -/

theorem toLe_wordOfBytes (bs : List Byte) {k : Nat} (h : 4 * k + 4 ≤ bs.length) :
    toLe (wordOfBytes bs k).toNat 4 = (bs.drop (4 * k)).take 4 := by
  have hlen : ((bs.drop (4 * k)).take 4).length = 4 := by rw [List.length_take, List.length_drop]; omega
  have hlt : leNat ((bs.drop (4 * k)).take 4) < 2 ^ 32 := (leNat_lt _).trans_eq (by rw [hlen]; rfl)
  rw [wordOfBytes, BitVec.toNat_ofNat, Nat.mod_eq_of_lt hlt]
  simpa only [hlen] using toLe_leNat ((bs.drop (4 * k)).take 4)

/-- The bytes of the words of 32 bytes are the 32 bytes (R100). -/
theorem bytesOfWords_wordsOfBytes {bs : List Byte} (h : bs.length = 32) : bytesOfWords (wordsOfBytes bs) = bs := by
  have hword : ∀ k < 8, toLe (wordOfBytes bs k).toNat 4 = (bs.drop (4 * k)).take 4 := fun k hk =>
    toLe_wordOfBytes bs (by omega)
  have happend : ∀ n, bs.take n ++ (bs.drop n).take 4 = bs.take (n + 4) := fun n => (List.take_add ..).symm
  simp only [bytesOfWords, wordsOfBytes, hword, Nat.reduceLT, Nat.reduceMul, List.drop_zero, happend, Nat.reduceAdd]
  exact List.take_of_length_le h.le

/-- Settles O1: `decodeFields` and `encode` are inverse on words, and bytes and words are the same thing. -/
theorem encodeDecodeRoundTrip : Obligations.EncodeDecodeRoundTrip := by
  refine ⟨fun i => ?fields, fun p i hwf => ?checked, fun bs i hlen h => ?bytes⟩
  case fields => rw [wordsOfBytes_bytesOfWords, decodeFields_encode]
  case checked => rw [wordsOfBytes_bytesOfWords, decode_encode hwf]
  case bytes => rw [encode_of_decodeFields h, bytesOfWords_wordsOfBytes hlen]

theorem decode_of_encode_eq {p : Params} {d : DescWords} {i : Instr} (henc : encode i = d) (hwf : i.wf p = true) :
    decode p d = .ok i :=
  henc ▸ decode_encode hwf

/-- Settles O4: each group of words is the encoding of its instruction, which is well-formed whatever the parameters. -/
theorem writtenOutWordsDecode : Obligations.WrittenOutWordsDecode := by
  intro p
  exact ⟨decode_of_encode_eq (by decide) (show wfPt false _ = true by decide),
    decode_of_encode_eq (by decide) (show wfPt true _ = true by decide),
    decode_of_encode_eq (by decide) (show wfRsa 2 _ = true by decide),
    decode_of_encode_eq (by decide) (show wfZlib _ = true by decide)⟩

end Sys2Proof

/-! The drain pass: its tests, the descriptor it runs, and why it ends. -/

namespace Sys2Proof.Machine

/-! ## The tests of an iteration -/

/-- The sanity checks of a ring as a chain in the order of R144. -/
theorem checkSanity_eq (q : Queue) :
    checkSanity q =
      if q.head.toNat % 32 ≠ 0 then some .ringMisaligned
      else if ringSize q < rawIndex q q.head then some .ringIndexRange
      else if q.tail.toNat % 32 ≠ 0 then some .ringMisaligned
      else if ringSize q < rawIndex q q.tail then some .ringIndexRange
      else none := by
  simp only [checkSanity, firstCause, bne_iff_ne, decide_eq_true_eq]

/-- A step of a block that is alive and in a pass is one iteration of the pass. -/
theorem step_eq_drainStep {s : State} (halive : s.fatal = none) (hdraining : s.draining = true) :
    step s = drainStep s := by simp [step, halive, hdraining]

theorem drainStep_halted {s : State} (hrun : (s.queue s.active).run = false) : drainStep s = .next s.endPass := if_pos hrun

theorem drainStep_insane {s : State} {c : Cause} (hrun : (s.queue s.active).run = true)
    (hc : checkSanity (s.queue s.active) = some c) : drainStep s = .next (s.raiseFatal c) := by
  simp [drainStep, hrun, hc]

theorem drainStep_idle {s : State} (hrun : (s.queue s.active).run = true) (hc : checkSanity (s.queue s.active) = none)
    (hidle : ringIndex (s.queue s.active) (s.queue s.active).head = ringIndex (s.queue s.active) (s.queue s.active).tail) :
    drainStep s = .next s.endPass := by simp [drainStep, hrun, hc, hidle]

/-- Where no test ends the pass, the step is the execution of the descriptor at the head. -/
theorem Executing.step_eq {s : State} (h : Executing s) : step s = executeNext s := by
  rw [step_eq_drainStep h.alive h.draining]
  simp [drainStep, h.running, h.sane, h.pending]

/-- Settles O10: the sanity checks are the chain of `checkSanity_eq`, and each branch is the iteration it leads to. -/
theorem drainPassTests : Obligations.DrainPassTests := by
  intro s halive hdraining q size raw
  have hsanity := checkSanity_eq q
  rw [step_eq_drainStep halive hdraining]
  split_ifs with hhalted hhead hheadRange htail htailRange hidle
  case pos => exact drainStep_halted hhalted
  all_goals have hrun : q.run = true := Bool.eq_true_of_not_eq_false hhalted
  case pos => exact drainStep_insane hrun (hsanity.trans (if_pos hhead))
  all_goals replace hsanity := hsanity.trans (if_neg hhead)
  case pos => exact drainStep_insane hrun (hsanity.trans (if_pos hheadRange))
  all_goals replace hsanity := hsanity.trans (if_neg hheadRange)
  case pos => exact drainStep_insane hrun (hsanity.trans (if_pos htail))
  all_goals replace hsanity := hsanity.trans (if_neg htail)
  case pos => exact drainStep_insane hrun (hsanity.trans (if_pos htailRange))
  all_goals replace hsanity := hsanity.trans (if_neg htailRange)
  case pos => exact drainStep_idle hrun hsanity hidle
  case neg =>
    have hexec : Executing s := ⟨halive, hdraining, hrun, hsanity, hidle⟩
    exact ⟨hexec, (step_eq_drainStep halive hdraining).symm.trans hexec.step_eq⟩

theorem executeNext_ok {s : State} {i : Instr} (h : decode s.params (fetchWords s (s.queue s.active)) = .ok i) :
    executeNext s = exec i s := by simp [executeNext, h]

theorem executeNext_error {s : State} {c : Cause} (h : decode s.params (fetchWords s (s.queue s.active)) = .error c) :
    executeNext s = .next (s.violate (fieldFlags (fetchWords s (s.queue s.active))) c) := by simp [executeNext, h]

/-- Settles O11: the step is `executeNext`, which dispatches what it decodes. -/
theorem stepRunsTheDecodedInstruction : Obligations.StepRunsTheDecodedInstruction :=
  fun _ _ hexec hdecode => hexec.step_eq.trans (executeNext_ok hdecode)

/-! ## The ends of a descriptor -/

/-- A violation kills the block or retires the descriptor. -/
theorem State.violate_ends (s : State) (f : Flags) (c : Cause) :
    s.violate f c = s.raiseFatal c ∨ Retired s (s.violate f c) f .fail := by
  rcases s.violate_cases f c with hv | hv
  · exact .inl hv
  · exact .inr (hv ▸ s.retire_retired f .fail)

/-- An instruction kills the block or retires with its own flags. -/
theorem exec_ends {i : Instr} {s t : State} (h : exec i s = .next t) :
    (∃ c, t = s.raiseFatal c) ∨ ∃ r, Retired s t i.flags r := by
  rcases exec_cases h with ⟨c, rfl⟩ | hfatal | ⟨u, hu, rfl⟩
  · exact (s.violate_ends i.flags c).imp (⟨c, ·⟩) (⟨.fail, ·⟩)
  · exact .inl hfatal
  · exact .inr ⟨.ok, hu.retired (u.retire_retired i.flags .ok)⟩

/-- So does whatever stands at the head of the ring. -/
theorem executeNext_ends {s t : State} (h : executeNext s = .next t) :
    (∃ c, t = s.raiseFatal c) ∨ ∃ f r, Retired s t f r := by
  cases hd : decode s.params (fetchWords s (s.queue s.active)) with
  | error c =>
    rw [executeNext_error hd] at h
    cases h
    exact (s.violate_ends _ c).imp (⟨c, ·⟩) (⟨_, .fail, ·⟩)
  | ok i =>
    rw [executeNext_ok hd] at h
    exact (exec_ends h).imp id (⟨i.flags, ·⟩)

/-- Executing a descriptor always answers a next state. -/
theorem executeNext_next (s : State) : ∃ t, executeNext s = .next t := by
  cases hd : decode s.params (fetchWords s (s.queue s.active)) with
  | error c => exact ⟨_, executeNext_error hd⟩
  | ok i => rw [executeNext_ok hd]; exact exec_next i s

/-- Settles O17: a block that is alive after an instruction has retired it, and `Retired` says what `soc` does. -/
theorem stopOnCompletionHalts : Obligations.StopOnCompletionHalts := by
  intro i s t _ hexec halive
  rcases exec_ends hexec with ⟨c, rfl⟩ | ⟨r, ht⟩
  case inl => cases halive
  case inr =>
    split
    case isTrue hsoc => exact ⟨ht.run.trans (if_pos hsoc), ht.halt.trans (if_pos hsoc), ht.draining.trans (if_pos hsoc)⟩
    case isFalse hsoc => exact ⟨ht.run.trans (if_neg hsoc), ht.halt.trans (if_neg hsoc), ht.draining.trans (if_neg hsoc)⟩

/-! ## The head advance as arithmetic -/

/-- The index after `i` in a ring of `n` entries. -/
theorem succ_mod_eq_ite {i n : Nat} (h : i < n) : (i + 1) % n = if i + 1 = n then 0 else i + 1 := by
  split
  case isTrue hlast => rw [hlast, Nat.mod_self]
  case isFalse hnot => exact Nat.mod_eq_of_lt (by omega)

/-- In a ring that fits the address space the advanced head has the next index (R147). -/
theorem ringIndex_nextHead {q : Queue} (h : q.sizeCode.toNat ≤ 26) :
    ringIndex q (nextHead q) = (ringIndex q q.head + 1) % ringSize q := by
  have hlt := Nat.mod_lt (ringIndex q q.head + 1) (ringSize_pos q)
  rw [ringIndex, rawIndex_nextHead, Nat.mod_eq_of_lt (hlt.trans_le (ringSize_le q h)), Nat.mod_eq_of_lt hlt]

/-- Settles O12: the first clause is `nextHead` as a number, the second `ringIndex_nextHead`. -/
theorem headAdvanceWrapsAtTheRingSize : Obligations.HeadAdvanceWrapsAtTheRingSize :=
  fun _ => ⟨BitVec.toNat_ofNat .., ringIndex_nextHead⟩

/-- A ring whose size code is above 26 is longer than the address space. -/
theorem lt_ringSize (q : Queue) (h : 26 < q.sizeCode.toNat) : 2 ^ 27 < ringSize q := by
  have : 2 ^ 27 ≤ 2 ^ q.sizeCode.toNat := Nat.pow_le_pow_right (by decide) h
  simp only [ringSize]
  omega

/-- In a ring longer than the address space the 32-bit truncation wraps first (R155). -/
theorem ringIndex_nextHead_of_long {q : Queue} (h : 26 < q.sizeCode.toNat) :
    ringIndex q (nextHead q) = (ringIndex q q.head + 1) % 2 ^ 27 := by
  have hsize := lt_ringSize q h
  have hhead := ringIndex_lt q q.head
  rw [ringIndex, rawIndex_nextHead, Nat.mod_eq_of_lt (b := ringSize q) (by omega),
    Nat.mod_eq_of_lt (b := ringSize q) (by omega)]

/-- The pending descriptors (R148): those up to the tail, or those up to the ring's end and from its start to the tail. -/
theorem pendingCount_eq_ite (q : Queue) :
    pendingCount q =
      if ringIndex q q.head ≤ ringIndex q q.tail then ringIndex q q.tail - ringIndex q q.head
      else ringIndex q q.tail + ringSize q - ringIndex q q.head := by
  have hhead := ringIndex_lt_ringSize q q.head
  have htail := ringIndex_lt_ringSize q q.tail
  rw [pendingCount]
  split
  case isTrue hle =>
    rw [Nat.sub_add_comm hle, Nat.add_mod_right]
    exact Nat.mod_eq_of_lt (by omega)
  case isFalse hlt => exact Nat.mod_eq_of_lt (by omega)

/-- The queue after a head advance, as far as the ring is concerned (R147). -/
structure Advanced (q q' : Queue) : Prop where
  head : q'.head = nextHead q
  base : q'.base = q.base
  tail : q'.tail = q.tail
  sizeCode : q'.sizeCode = q.sizeCode

theorem Retired.advanced {s t : State} {f : Flags} {r : Result} (h : Retired s t f r) :
    Advanced (s.queue s.active) (t.queue s.active) := ⟨h.head, h.base, h.tail, h.sizeCode⟩

section
variable {q q' : Queue}

theorem Advanced.ringSize_eq (h : Advanced q q') : ringSize q' = ringSize q := by rw [ringSize, ringSize, h.sizeCode]

/-- Base and size stay, so every pointer keeps its index. -/
theorem Advanced.ringIndex_eq (h : Advanced q q') (p : Word) : ringIndex q' p = ringIndex q p := by
  rw [ringIndex, ringIndex, rawIndex, rawIndex, h.ringSize_eq, h.base]

/-- In a ring that fits the address space an advance takes one descriptor off those pending (R148). -/
theorem Advanced.pendingCount_succ (h : Advanced q q') (hsize : q.sizeCode.toNat ≤ 26)
    (hpending : ringIndex q q.head ≠ ringIndex q q.tail) : pendingCount q' + 1 = pendingCount q := by
  have hhead := ringIndex_lt_ringSize q q.head
  have htail := ringIndex_lt_ringSize q q.tail
  have hnext := (ringIndex_nextHead hsize).trans (succ_mod_eq_ite hhead)
  rw [pendingCount_eq_ite, pendingCount_eq_ite, h.ringIndex_eq, h.ringIndex_eq, h.head, h.tail, h.ringSize_eq, hnext]
  split_ifs <;> omega

/-- In any ring it takes off at least one: the truncation of a longer ring only skips entries. -/
theorem Advanced.pendingCount_lt (h : Advanced q q') (hpending : ringIndex q q.head ≠ ringIndex q q.tail) :
    pendingCount q' < pendingCount q := by
  by_cases hsize : q.sizeCode.toNat ≤ 26
  case pos => exact Nat.lt_of_succ_le (h.pendingCount_succ hsize hpending).le
  case neg =>
    have hlong := Nat.lt_of_not_le hsize
    have hring := lt_ringSize q hlong
    have hhead := ringIndex_lt q q.head
    have htail := ringIndex_lt q q.tail
    have hnext := (ringIndex_nextHead_of_long hlong).trans (succ_mod_eq_ite hhead)
    rw [pendingCount_eq_ite, pendingCount_eq_ite, h.ringIndex_eq, h.ringIndex_eq, h.head, h.tail, h.ringSize_eq, hnext]
    split_ifs <;> omega
end

/-! ## A pass ends -/

/-- Settles O13: a descriptor that does not kill the block retires, and so advances the head of a ring that is not Idle. -/
theorem eachDescriptorMovesTheHeadByOne : Obligations.EachDescriptorMovesTheHeadByOne := by
  intro s t hexec hsize hstep halive
  rw [hexec.step_eq] at hstep
  rcases executeNext_ends hstep with ⟨c, rfl⟩ | ⟨f, r, ht⟩
  · cases halive
  · exact ht.advanced.pendingCount_succ hsize hexec.pending

/-- An iteration ends the pass, or executes a descriptor. -/
theorem step_ends_or_executing {s : State} (halive : s.fatal = none) (hdraining : s.draining = true) :
    (∃ t, step s = .next t ∧ t.draining = false ∧ t.host = s.host) ∨ Executing s := by
  rw [step_eq_drainStep halive hdraining]
  rcases drainStep_cases s with ⟨-, hd⟩ | ⟨-, c, -, hd⟩ | ⟨-, -, -, hd⟩ | ⟨hrun, hsane, hpending, -⟩
  · exact .inl ⟨_, hd, rfl, rfl⟩
  · exact .inl ⟨_, hd, rfl, rfl⟩
  · exact .inl ⟨_, hd, rfl, rfl⟩
  · exact .inr ⟨halive, hdraining, hrun, hsane, hpending⟩

/-- An iteration ends the pass, or leaves it alive with fewer descriptors pending. -/
theorem step_ends_or_progresses {s : State} (halive : s.fatal = none) (hdraining : s.draining = true) :
    ∃ t, step s = .next t ∧ t.host = s.host ∧ (t.draining = false ∨ (t.fatal = none ∧ t.draining = true ∧
      pendingCount (t.queue t.active) < pendingCount (s.queue s.active))) := by
  rcases step_ends_or_executing halive hdraining with ⟨t, hstep, hend, hhost⟩ | hexec
  case inl => exact ⟨t, hstep, hhost, .inl hend⟩
  case inr =>
    obtain ⟨t, hnext⟩ := executeNext_next s
    refine ⟨t, hexec.step_eq.trans hnext, ?_⟩
    rcases executeNext_ends hnext with ⟨c, rfl⟩ | ⟨f, r, ht⟩
    · exact ⟨rfl, .inl rfl⟩
    · cases hd : t.draining with
      | false => exact ⟨ht.host, .inl rfl⟩
      | true =>
        refine ⟨ht.host, .inr ⟨ht.fatal.trans halive, rfl, ?_⟩⟩
        rw [ht.active]
        exact ht.advanced.pendingCount_lt hexec.pending

/-- A pass with at most `k` descriptors pending ends within `k + 1` iterations, the Host not having moved. -/
theorem run_ends_of_pendingCount_le (k : Nat) (s : State) (halive : s.fatal = none) (hdraining : s.draining = true)
    (hk : pendingCount (s.queue s.active) ≤ k) :
    ∃ (n : Nat) (t : State), n ≤ k + 1 ∧ Host.Core.run Sys2Proof.core n s = .next t ∧ t.draining = false ∧
      t.host = s.host := by
  induction k generalizing s with
  | zero =>
    obtain ⟨t, hstep, hhost, hend | ⟨-, -, hlt⟩⟩ := step_ends_or_progresses halive hdraining
    · exact ⟨1, t, le_rfl, core_run_succ 0 hstep, hend, hhost⟩
    · omega
  | succ k ih =>
    obtain ⟨t, hstep, hhost, hend | ⟨halive', hdraining', hlt⟩⟩ := step_ends_or_progresses halive hdraining
    · exact ⟨1, t, by omega, core_run_succ 0 hstep, hend, hhost⟩
    · obtain ⟨n, t', hn, hrun, hend, hhost'⟩ := ih t halive' hdraining' (by omega)
      exact ⟨n + 1, t', by omega, (core_run_succ n hstep).trans hrun, hend, hhost'.trans hhost⟩

/-- Settles O14: the pending count is the variant of the pass. -/
theorem drainPassEnds : Obligations.DrainPassEnds :=
  fun s halive hdraining => run_ends_of_pendingCount_le _ s halive hdraining le_rfl

/-! ## Starting a pass -/

/-- A write of a register on a queue's page, with a value that is not refused. -/
theorem step_queueWrite {s : State} {q : QueueId} {r : Nat} {v : Word} {rest : List HostOp} {name : RegName}
    (hw : HostWrites s (queueBase q + r) v rest) (hlt : r < 0x1000) (haligned : r % 4 = 0)
    (hname : registerAt s.params (queueBase q + r) = name) (hv : refusedWrite v name = false) :
    step s = .next (writeRegister { s with host := rest } v name) := by
  subst hname
  exact step_regWrite hw (accessDefined_queue _ q r hlt haligned) hv

/-- Settles O30: each of the three offsets names its register, whose write is the state change and the start of the pass; of the
three only a control write can be refused. -/
theorem ringRegisterWritesStartAPass : Obligations.RingRegisterWritesStartAPass := by
  intro s q offset v rest hw started
  refine ⟨?control, ?refused, ?tail, ?head⟩
  case control =>
    rintro rfl hcode
    exact step_queueWrite hw (by decide) rfl (registerAt_control ..) (beq_false_of_ne hcode)
  case refused =>
    rintro rfl hcode
    refine step_regWrite_refused hw (accessDefined_queue _ q _ (by decide) rfl) ?_
    rw [registerAt_control]
    exact beq_iff_eq.mpr hcode
  case tail =>
    rintro rfl
    exact step_queueWrite hw (by decide) rfl (registerAt_tail ..) rfl
  case head =>
    rintro rfl
    exact step_queueWrite hw (by decide) rfl (registerAt_head ..) rfl

end Sys2Proof.Machine

/-! Two runs of one instruction over the same memory and SB: the queue and the registers have no part in it. -/

namespace Sys2Proof.Machine

/-! ## Handlers -/

/-- The handler that `exec` runs for each operation. -/
def handlerOf : Instr → State → Except Stop State
  | .aesEcb encrypt k _ d => aesEcbHandler encrypt k d
  | .aesCbc encrypt k _ d => aesIvHandler (cbcStep encrypt) k d
  | .aesCfb encrypt k _ d => aesIvHandler (cfbStep encrypt) k d
  | .aesOfb _ k _ d => aesIvHandler ofbStep k d
  | .sha1 d => shaHandler .sha1 d
  | .sha224 d => shaHandler .sha224 d
  | .sha256 d => shaHandler .sha256 d
  | .sha384 d => shaHandler .sha384 d
  | .sha512 d => shaHandler .sha512 d
  | .rsa size d => rsaHandler size.toNat d
  | .ptCopy d => ptHandler id d
  | .ptSwap256 d => ptHandler swapChunks d
  | .zlib d => zlibHandler d

/-- Every arm of the dispatch has one shape: the checks of `validate`, then the handler. -/
theorem exec_eq_runDescriptor (i : Instr) (s : State) :
    exec i s = runDescriptor i.flags (validate s.params i) (handlerOf i) s := by cases i <;> rfl

/-- Two states reached by stores from the starts `s₁` and `s₂` of two runs, with the same memory and the same SB. -/
structure Twins (s₁ s₂ u₁ u₂ : State) : Prop where
  stored₁ : StoredBy s₁ u₁
  stored₂ : StoredBy s₂ u₂
  mem : u₁.mem = u₂.mem
  sb : u₁.sb = u₂.sb

/-- Two answers of a handler, one in each run: the same stop, or twins. -/
inductive TwinEnds (s₁ s₂ : State) : Except Stop State → Except Stop State → Prop where
  | stop (e : Stop) : TwinEnds s₁ s₂ (.error e) (.error e)
  | twins {u₁ u₂ : State} : Twins s₁ s₂ u₁ u₂ → TwinEnds s₁ s₂ (.ok u₁) (.ok u₂)

section
variable {s₁ s₂ u₁ u₂ : State}

theorem Twins.refl (hmem : s₁.mem = s₂.mem) (hsb : s₁.sb = s₂.sb) : Twins s₁ s₂ s₁ s₂ := ⟨.refl, .refl, hmem, hsb⟩

theorem Twins.memRead_eq (h : Twins s₁ s₂ u₁ u₂) (sp : MemSpace) (a n : Nat) : memRead u₁ sp a n = memRead u₂ sp a n := by
  cases sp <;> simp only [memRead, readBytes, h.mem, h.sb]

theorem Twins.readOperand_eq (h : Twins s₁ s₂ u₁ u₂) (o : Operand) (n : Nat) :
    readOperand u₁ o n = readOperand u₂ o n := h.memRead_eq ..

theorem Twins.readAesKey_eq (h : Twins s₁ s₂ u₁ u₂) (o : Operand) (k : AesKey) : readAesKey u₁ o k = readAesKey u₂ o k := by
  rw [readAesKey, readAesKey, h.readOperand_eq]

theorem Twins.readIv_eq (h : Twins s₁ s₂ u₁ u₂) (c : BitVec 8) : readIv u₁ c = readIv u₂ c := by
  rw [readIv, readIv, h.memRead_eq]

theorem Twins.readShaState_eq (h : Twins s₁ s₂ u₁ u₂) (alg : ShaAlg) (c : BitVec 8) :
    readShaState alg u₁ c = readShaState alg u₂ c := by rw [readShaState, readShaState, h.memRead_eq]

/-- The same store in both runs. -/
theorem Twins.memWrite (h : Twins s₁ s₂ u₁ u₂) (sp : MemSpace) (a : Nat) (v : List Byte) :
    TwinEnds s₁ s₂ (memWrite u₁ sp a v) (memWrite u₂ sp a v) := by
  cases hout : outsideSb sp a v.length with
  | true => rw [memWrite_outsideSb _ hout, memWrite_outsideSb _ hout]; exact .stop _
  | false =>
    rw [memWrite_ok _ _ _ _ hout, memWrite_ok _ _ _ _ hout]
    refine .twins ⟨.store sp a v h.stored₁ hout, .store sp a v h.stored₂ hout, ?mem, ?sb⟩
    case mem => cases sp <;> simp only [writeBytes, h.mem]
    case sb => cases sp <;> simp only [writeBytes, h.sb]

/-- A part that both runs answer alike, such as a read, and then the rest. -/
theorem TwinEnds.bind_same {α : Type} (x : Except Stop α) {f₁ f₂ : α → Except Stop State}
    (h : ∀ a, TwinEnds s₁ s₂ (f₁ a) (f₂ a)) : TwinEnds s₁ s₂ (x >>= f₁) (x >>= f₂) := by
  cases x with
  | error e => exact .stop e
  | ok a => exact h a

/-- A part that makes stores, and then the rest. -/
theorem TwinEnds.bind {x₁ x₂ : Except Stop State} {f₁ f₂ : State → Except Stop State} (hx : TwinEnds s₁ s₂ x₁ x₂)
    (h : ∀ u₁ u₂, Twins s₁ s₂ u₁ u₂ → TwinEnds s₁ s₂ (f₁ u₁) (f₂ u₂)) : TwinEnds s₁ s₂ (x₁ >>= f₁) (x₂ >>= f₂) := by
  cases hx with
  | stop e => exact .stop e
  | twins hu => exact h _ _ hu

theorem Twins.writeShaWords (h : Twins s₁ s₂ u₁ u₂) (alg : ShaAlg) (c : BitVec 8) (k : Nat)
    (hs : List (BitVec (shaWordBits alg))) :
    TwinEnds s₁ s₂ (writeShaWords alg c k hs u₁) (writeShaWords alg c k hs u₂) := by
  induction hs generalizing k u₁ u₂ with
  | nil => exact .twins h
  | cons w ws ih => exact (h.memWrite ..).bind fun _ _ hu => ih hu _

theorem Twins.aesEcbHandler (h : Twins s₁ s₂ u₁ u₂) (encrypt : Bool) (k : AesKey) (d : GenDesc) :
    TwinEnds s₁ s₂ (aesEcbHandler encrypt k d u₁) (aesEcbHandler encrypt k d u₂) := by
  rw [Machine.aesEcbHandler, Machine.aesEcbHandler, h.readAesKey_eq, h.readOperand_eq]
  exact .bind_same _ fun _ => .bind_same _ fun _ => h.memWrite ..

theorem Twins.aesIvHandler (h : Twins s₁ s₂ u₁ u₂) (f : List Byte → BlockStep) (k : AesKey) (d : GenDesc) :
    TwinEnds s₁ s₂ (aesIvHandler f k d u₁) (aesIvHandler f k d u₂) := by
  rw [Machine.aesIvHandler, Machine.aesIvHandler, h.readAesKey_eq, h.readOperand_eq, h.readIv_eq]
  exact .bind_same _ fun _ => .bind_same _ fun _ => .bind_same _ fun _ =>
    .bind (h.memWrite ..) fun _ _ hu => hu.memWrite ..

theorem Twins.shaHandler (h : Twins s₁ s₂ u₁ u₂) (alg : ShaAlg) (d : ShaDesc) :
    TwinEnds s₁ s₂ (shaHandler alg d u₁) (shaHandler alg d u₂) := by
  rw [Machine.shaHandler, Machine.shaHandler, h.readShaState_eq, h.readOperand_eq]
  exact .bind_same _ fun _ => .bind_same _ fun _ => h.writeShaWords ..

theorem Twins.rsaHandler (h : Twins s₁ s₂ u₁ u₂) (size : Nat) (d : GenDesc) :
    TwinEnds s₁ s₂ (rsaHandler size d u₁) (rsaHandler size d u₂) := by
  rw [Machine.rsaHandler, Machine.rsaHandler, h.readOperand_eq, h.readOperand_eq]
  refine .bind_same _ fun _ => .bind_same _ fun _ => ?_
  dsimp only
  split
  · exact .stop _
  · exact h.memWrite ..

theorem Twins.ptHandler (h : Twins s₁ s₂ u₁ u₂) (f : List Byte → List Byte) (d : GenDesc) :
    TwinEnds s₁ s₂ (ptHandler f d u₁) (ptHandler f d u₂) := by
  rw [Machine.ptHandler, Machine.ptHandler, h.readOperand_eq]
  exact .bind_same _ fun _ => h.memWrite ..

theorem Twins.zlibHandler (h : Twins s₁ s₂ u₁ u₂) (d : GenDesc) :
    TwinEnds s₁ s₂ (zlibHandler d u₁) (zlibHandler d u₂) := by
  rw [Machine.zlibHandler, Machine.zlibHandler, h.readOperand_eq]
  refine .bind_same _ fun x => ?_
  cases inflate x with
  | none => exact .stop _
  | some r =>
    dsimp only
    split
    · exact .stop _
    · exact h.memWrite ..

/-- Every handler does the same to the two stores in both runs. -/
theorem Twins.handlerOf (h : Twins s₁ s₂ u₁ u₂) (i : Instr) :
    TwinEnds s₁ s₂ (handlerOf i u₁) (handlerOf i u₂) := by
  cases i with
  | aesEcb => exact h.aesEcbHandler ..
  | aesCbc | aesCfb | aesOfb => exact h.aesIvHandler ..
  | sha1 | sha224 | sha256 | sha384 | sha512 => exact h.shaHandler ..
  | rsa => exact h.rsaHandler ..
  | ptCopy | ptSwap256 => exact h.ptHandler ..
  | zlib => exact h.zlibHandler ..

/-! ## Whole descriptors -/

/-- Two runs of a descriptor end alike: both kill the block with one cause, or both retire from twins with one result. -/
def EndAlike (s₁ s₂ : State) (f : Flags) (t₁ t₂ : State) : Prop :=
  (∃ c, t₁ = s₁.raiseFatal c ∧ t₂ = s₂.raiseFatal c) ∨
    ∃ r u₁ u₂, Twins s₁ s₂ u₁ u₂ ∧ t₁ = u₁.retire f r ∧ t₂ = u₂.retire f r

theorem Twins.violate (h : Twins s₁ s₂ s₁ s₂) (hparams : s₁.params = s₂.params) (f : Flags) (c : Cause) :
    EndAlike s₁ s₂ f (s₁.violate f c) (s₂.violate f c) := by
  cases hp : s₁.params.violationPolicy with
  | fatal => exact .inl ⟨c, s₁.violate_fatal f c hp, s₂.violate_fatal f c (hparams ▸ hp)⟩
  | errorInterrupt =>
    exact .inr ⟨.fail, s₁, s₂, h, s₁.violate_errorInterrupt f c hp, s₂.violate_errorInterrupt f c (hparams ▸ hp)⟩

theorem Twins.runDescriptor {t₁ t₂ : State} (h : Twins s₁ s₂ s₁ s₂) (hparams : s₁.params = s₂.params) {f : Flags}
    {check : Option Cause} {handler : State → Except Stop State} (hends : TwinEnds s₁ s₂ (handler s₁) (handler s₂))
    (h₁ : runDescriptor f check handler s₁ = .next t₁) (h₂ : runDescriptor f check handler s₂ = .next t₂) :
    EndAlike s₁ s₂ f t₁ t₂ := by
  cases check with
  | some c => cases h₁; cases h₂; exact h.violate hparams f c
  | none =>
    simp only [Machine.runDescriptor] at h₁ h₂
    generalize handler s₁ = x₁, handler s₂ = x₂ at hends h₁ h₂
    cases hends with
    | stop e =>
      cases e with
      | violation c => cases h₁; cases h₂; exact h.violate hparams f c
      | fatal c => cases h₁; cases h₂; exact .inl ⟨c, rfl, rfl⟩
    | twins hu => cases h₁; cases h₂; exact .inr ⟨.ok, _, _, hu, rfl, rfl⟩

/-- The checks see the parameters alone and the handler the stores alone, so an instruction ends alike in both runs. -/
theorem exec_endAlike {i : Instr} {t₁ t₂ : State} (h : Twins s₁ s₂ s₁ s₂) (hparams : s₁.params = s₂.params)
    (h₁ : exec i s₁ = .next t₁) (h₂ : exec i s₂ = .next t₂) : EndAlike s₁ s₂ i.flags t₁ t₂ := by
  rw [exec_eq_runDescriptor] at h₁ h₂
  rw [← hparams] at h₂
  exact h.runDescriptor hparams (h.handlerOf i) h₁ h₂
end

/-- Settles O16: two runs that end alike leave the same stores and the same fatal record, and a descriptor that retires leaves the status
mirrors of its result. -/
theorem handlerCannotSeeTheQueue : Obligations.HandlerCannotSeeTheQueue := by
  intro i s₁ s₂ t₁ t₂ hmem hsb hparams hfatal h₁ h₂
  rcases exec_endAlike (.refl hmem hsb) hparams h₁ h₂ with ⟨c, rfl, rfl⟩ | ⟨r, u₁, u₂, hu, rfl, rfl⟩
  case inl => exact ⟨hmem, hsb, rfl, fun halive => (by cases halive)⟩
  case inr =>
    have ht₁ := hu.stored₁.retired (u₁.retire_retired i.flags r)
    have ht₂ := hu.stored₂.retired (u₂.retire_retired i.flags r)
    refine ⟨?mem, ?sb, ?fatal, fun _ => ⟨?status, ?intStatus⟩⟩
    case mem => rw [State.retire_mem, State.retire_mem, hu.mem]
    case sb => rw [State.retire_sb, State.retire_sb, hu.sb]
    case fatal => rw [ht₁.fatal, ht₂.fatal, hfatal]
    case status => rw [ht₁.status, ht₂.status, hparams]
    case intStatus => rw [ht₁.intStatus, ht₂.intStatus]

end Sys2Proof.Machine

/-! The register interface: what a Host access of a register comes to, the words of `control`, the offsets that name no register;
and the Host's store into guest memory. -/

namespace Sys2Proof.Machine

/-! ## A register access as a step -/

/-- The actions still pending have no part in what a register reads as. -/
@[simp] theorem readRegister_withHost (s : State) (ops : List HostOp) (r : RegName) :
    readRegister { s with host := ops } r = readRegister s r := by cases r <;> rfl

/-- The registers below the misc region are inside every window (R39). -/
theorem accessDefined_of_lt (p : Params) {o : Nat} (h4 : o % 4 = 0) (hlow : o < 0x6000) : accessDefined p o 32 = true :=
  (accessDefined_iff p o 32).mpr ⟨rfl, h4, Nat.lt_add_right _ hlow⟩

/-- A read with a meaning, of the register that the offset names. -/
theorem step_readNamed {s : State} {o : Nat} {rest : List HostOp} {name : RegName} (hr : HostReads s o rest)
    (hdef : accessDefined s.params o 32 = true) (hname : registerAt s.params o = name) :
    step s = .next { s with host := rest, hostReply := some (.word (readRegister s name)) } := by
  rw [step_regRead hr hdef, hname, readRegister_withHost]

/-- A write with a meaning, of the register that the offset names and with a value that is not refused. -/
theorem step_writeNamed {s : State} {o : Nat} {v : Word} {rest : List HostOp} {name : RegName} (hw : HostWrites s o v rest)
    (hdef : accessDefined s.params o 32 = true) (hname : registerAt s.params o = name) (hv : refusedWrite v name = false) :
    step s = .next (writeRegister { s with host := rest } v name) := by
  subst hname
  exact step_regWrite hw hdef hv

/-- A read of a register on a queue's page. -/
theorem step_queueRead {s : State} {q : QueueId} {r : Nat} {rest : List HostOp} {name : RegName}
    (hr : HostReads s (queueBase q + r) rest) (hlt : r < 0x1000) (h4 : r % 4 = 0)
    (hname : registerAt s.params (queueBase q + r) = name) :
    step s = .next { s with host := rest, hostReply := some (.word (readRegister s name)) } :=
  step_readNamed hr (accessDefined_queue _ q r hlt h4) hname

/-! ## Registers that store nothing -/

/-- The registers whose write has no effect, whatever the value (R172, R175, R176, R190, R191, R195). -/
def RegName.storesNothing : RegName → Bool
  | .queueMask | .trng | .lsbMask | .status _ | .intStatus _ | .unimplemented => true
  | _ => false

theorem writeRegister_of_storesNothing {r : RegName} (h : r.storesNothing = true) (s : State) (v : Word) :
    writeRegister s v r = s := by
  cases r with
  | queueMask | trng | lsbMask | status | intStatus | unimplemented => rfl
  | _ => cases h

theorem refusedWrite_of_storesNothing {r : RegName} (h : r.storesNothing = true) (v : Word) : refusedWrite v r = false :=
  refusedWrite_eq_false v r fun q hq => by subst hq; cases h

theorem step_write_of_storesNothing {s : State} {o : Nat} {v : Word} {rest : List HostOp} (hw : HostWrites s o v rest)
    (hdef : accessDefined s.params o 32 = true) (h : (registerAt s.params o).storesNothing = true) :
    step s = .next { s with host := rest } := by
  rw [step_regWrite hw hdef (refusedWrite_of_storesNothing h v), writeRegister_of_storesNothing h]

/-! ## Offsets that only the scratch register can have -/

theorem unnamedOffset.lt {o : Nat} (h : unnamedOffset o) : o < 0x6000 := by
  rcases h with hglobal | ⟨-, hhigh, -⟩ <;> omega

theorem globalRegister_of_unnamedOffset (p : Params) {o : Nat} (h : unnamedOffset o) :
    globalRegister p o = unnamedRegister p o := by
  have hfree : o ≠ 0x0000 ∧ o ≠ 0x0004 ∧ o ≠ 0x0008 ∧ o ≠ 0x000C ∧ ¬ (o = 0x0018 ∨ o = 0x001C ∨ o = 0x0020 ∨ o = 0x0024) := by
    rcases h with hglobal | ⟨hlow, -, -⟩ <;> omega
  simp only [globalRegister, hfree, if_false]

theorem queueRegister_of_notMem (p : Params) (q : QueueId) {o : Nat}
    (h : o % 0x1000 ∉ [0x000, 0x004, 0x008, 0x00C, 0x010, 0x100, 0x104]) : queueRegister p q o = unnamedRegister p o := by
  simp only [List.mem_cons, List.not_mem_nil, or_false, not_or] at h
  simp only [queueRegister, h, if_false]

/-- At such an offset neither a global register nor a register of a queue answers (R194, R195). -/
theorem registerAt_of_unnamedOffset (p : Params) {o : Nat} (h : unnamedOffset o) : registerAt p o = unnamedRegister p o := by
  rcases registerAt_cases p o with hr | hr | ⟨q, r, rfl, -, hr⟩
  case inl => exact hr.trans (globalRegister_of_unnamedOffset p h)
  case inr.inl => exact absurd h.lt (Nat.not_lt.mpr (registerAt_eq_misc p o o hr).2)
  case inr.inr =>
    obtain ⟨-, -, hmod⟩ := h.resolve_left (by rw [queueBase_add]; omega)
    exact hr.trans (queueRegister_of_notMem p q hmod)

theorem registerAt_scratch (p : Params) (h : unnamedOffset p.scratchRegOffset) :
    registerAt p p.scratchRegOffset = .scratch := (registerAt_of_unnamedOffset p h).trans (if_pos rfl)

theorem registerAt_unimplemented (p : Params) {o : Nat} (h : unnamedOffset o) (hne : o ≠ p.scratchRegOffset) :
    registerAt p o = .unimplemented := (registerAt_of_unnamedOffset p h).trans (if_neg hne)

/-- Settles O34: such an offset names `.unimplemented`, which reads as 0 and stores nothing. -/
theorem unimplementedOffsets : Obligations.UnimplementedOffsets := by
  intro s offset rest h4 hne hunnamed
  have hdef := accessDefined_of_lt s.params h4 hunnamed.lt
  have hname := registerAt_unimplemented s.params hunnamed hne
  exact ⟨fun hr => step_readNamed hr hdef hname, fun v hw => step_write_of_storesNothing hw hdef (by rw [hname]; rfl)⟩

/-! ## Registers that only store -/

/-- A misc word written, then one read: the read sees the store after the write (R193). -/
theorem run_misc_write_read {s : State} {o o' : Nat} {v : Word} {rest : List HostOp}
    (hw : HostWrites s o v (.regRead o' 32 :: rest)) (hdef : accessDefined s.params o 32 = true) (ho : 0x6000 ≤ o)
    (hdef' : accessDefined s.params o' 32 = true) (ho' : 0x6000 ≤ o') :
    Host.Core.run Sys2Proof.core 2 s = .next { s with
      host := rest
      misc := cellsWrite s.misc o v
      hostReply := some (.word (cellsRead (cellsWrite s.misc o v) o')) } := by
  have hwrite := step_writeNamed hw hdef (registerAt_misc _ o ho) rfl
  have hread := step_readNamed (s := writeRegister { s with host := .regRead o' 32 :: rest } v (.misc o))
    ⟨hw.alive, hw.idle, rfl⟩ hdef' (registerAt_misc _ o' ho')
  rw [core_run_succ 1 hwrite, core_run_succ 0 hread]
  rfl

/-- Settles O33: a misc word reads back by the law of the sparse store (`cellsRead_cellsWrite`); the queue priority and the scratch
register are fields of their own. -/
theorem passThroughRegisters : Obligations.PassThroughRegisters := by
  refine ⟨?misc, ?priorityWrite, ?priorityRead, ?scratch⟩
  case misc =>
    intro s o o' v rest halive hidle hwf hhost h4 ho hin h4' ho' hin'
    have hcells := fun x => cellsRead_cellsWrite s.misc o x v hwf
    refine ⟨_, run_misc_write_read ⟨halive, hidle, hhost⟩ ((accessDefined_iff ..).mpr ⟨rfl, h4, hin⟩) ho
      ((accessDefined_iff ..).mpr ⟨rfl, h4', hin'⟩) ho', ?_, hcells⟩
    rw [hcells o']
  case priorityWrite =>
    intro s v rest hw
    exact step_writeNamed hw (accessDefined_of_lt _ rfl (by decide)) rfl rfl
  case priorityRead =>
    intro s rest hr
    exact step_readNamed hr (accessDefined_of_lt _ rfl (by decide)) rfl
  case scratch =>
    intro s v rest o h4 hunnamed
    have hdef := accessDefined_of_lt s.params h4 hunnamed.lt
    have hname := registerAt_scratch s.params hunnamed
    exact ⟨fun hw => step_writeNamed hw hdef hname rfl, fun hr => step_readNamed hr hdef hname⟩

/-! ## Guest memory -/

/-- The actions still pending have no part in what a byte of memory holds. -/
@[simp] theorem readByte_withHost (s : State) (ops : List HostOp) : readByte { s with host := ops } = readByte s := by
  funext sp x
  cases sp <;> rfl

/-- Settles O37: `step_memWrite`, with the bytes of a store from `readByte_writeBytes`; what is still pending has no part in either. -/
theorem hostWritesGuestMemory : Obligations.HostWritesGuestMemory := by
  intro s a bs rest hwf hfatal hidle hhost
  have hstep := step_memWrite hfatal hidle hhost
  have hwf' : StoresWf { s with host := rest } := ⟨hwf.mem, hwf.sb⟩
  refine ⟨fun hin => ⟨writeBytes { s with host := rest } .system a bs, ?step, rfl, fun sp x => ?bytes⟩, fun hpast => ?fault⟩
  case step => rw [hstep, if_pos hin]
  case bytes => rw [readByte_writeBytes hwf', readByte_withHost]
  case fault => rw [hstep, if_neg (Nat.not_le.mpr hpast)]

/-! ## What the registers read as -/

/-- Settles O27: every access with a meaning answers the value of the register that its offset names. -/
theorem registerReadChangesNothing : Obligations.RegisterReadChangesNothing := by
  intro s offset rest hr h4 hin
  exact ⟨_, step_readNamed hr ((accessDefined_iff ..).mpr ⟨rfl, h4, hin⟩) rfl⟩

theorem registerAt_lsbMask (p : Params) {o : Nat} (h : o ∈ [0x0018, 0x001C, 0x0020, 0x0024]) :
    registerAt p o = .lsbMask := by
  simp only [List.mem_cons, List.not_mem_nil, or_false] at h
  rcases h with rfl | rfl | rfl | rfl <;> rfl

/-- Settles O28: each of these offsets names its register, whose value is the one stated. -/
theorem globalRegisterReads : Obligations.GlobalRegisterReads := by
  intro s offset rest hr
  refine ⟨?mask, ?priority, ?requestId, ?trng, ?lsbMask⟩
  case lsbMask =>
    intro hmem
    have hdef : accessDefined s.params offset 32 = true := by
      simp only [List.mem_cons, List.not_mem_nil, or_false] at hmem
      exact accessDefined_of_lt _ (by omega) (by omega)
    exact step_readNamed hr hdef (registerAt_lsbMask _ hmem)
  all_goals
    rintro rfl
    exact step_readNamed hr (accessDefined_of_lt _ rfl (by decide)) rfl

/-- The value of the control word: its three fields side by side, none reaching into the next (R181). -/
theorem toNat_controlWord (q : Queue) :
    (controlWord q).toNat = q.run.toNat + 2 * q.halt.toNat + 8 * q.sizeCode.toNat := by
  have hrun := q.run.toNat_lt
  have hhalt := q.halt.toNat_lt
  have hsize := q.sizeCode.isLt
  rw [controlWord, BitVec.toNat_ofNat, Nat.mod_eq_of_lt (by omega)]

/-- A bit of the control word, by the value of the word. -/
theorem controlWord_getLsbD (q : Queue) (i : Nat) :
    (controlWord q).getLsbD i = decide ((q.run.toNat + 2 * q.halt.toNat + 8 * q.sizeCode.toNat) / 2 ^ i % 2 = 1) := by
  rw [← toNat_controlWord, ← Nat.testBit_eq_decide_div_mod_eq, BitVec.testBit_toNat]

/-- A part of the control word, by the value of the word. -/
theorem toNat_controlWord_extractLsb' (q : Queue) (i n : Nat) :
    ((controlWord q).extractLsb' i n).toNat = (q.run.toNat + 2 * q.halt.toNat + 8 * q.sizeCode.toNat) / 2 ^ i % 2 ^ n := by
  rw [BitVec.extractLsb'_toNat, toNat_controlWord, Nat.shiftRight_eq_div_pow]

/-- The control word, field by field (R181). -/
theorem controlWord_fields (q : Queue) :
    (controlWord q).getLsbD 0 = q.run ∧ (controlWord q).getLsbD 1 = q.halt ∧ (controlWord q).getLsbD 2 = false ∧
      (controlWord q).extractLsb' 3 5 = q.sizeCode ∧ (controlWord q).extractLsb' 8 24 = 0 := by
  simp only [controlWord_getLsbD]
  have hrun_lt := q.run.toNat_lt
  have hhalt_lt := q.halt.toNat_lt
  have hsize_lt := q.sizeCode.isLt
  generalize hw : q.run.toNat + 2 * q.halt.toNat + 8 * q.sizeCode.toNat = w
  have hrun : w / 2 ^ 0 % 2 = q.run.toNat := by omega
  have hhalt : w / 2 ^ 1 % 2 = q.halt.toNat := by omega
  have hbit2 : w / 2 ^ 2 % 2 = 0 := by omega
  have hsizeCode : w / 2 ^ 3 % 2 ^ 5 = q.sizeCode.toNat := by omega
  have hhigh : w / 2 ^ 8 % 2 ^ 24 = 0 := by omega
  rw [hrun, hhalt, hbit2]
  refine ⟨by simp, by simp, rfl, BitVec.eq_of_toNat_eq ?_, BitVec.eq_of_toNat_eq ?_⟩ <;>
    rw [toNat_controlWord_extractLsb', hw]
  · exact hsizeCode
  · exact hhigh

/-- Settles O29: each of the seven offsets names its register; the control word holds its fields by `controlWord_fields`, the others are
the stored values. -/
theorem queueRegisterReads : Obligations.QueueRegisterReads := by
  intro s q offset rest hr r
  refine ⟨?control, ?tail, ?head, ?enable, ?interruptStatus, ?status, ?intStatus⟩ <;> rintro rfl
  case control =>
    exact ⟨controlWord r, step_queueRead hr (by decide) rfl (registerAt_control ..), controlWord_fields r⟩
  case tail => exact step_queueRead hr (by decide) rfl (registerAt_tail ..)
  case head => exact step_queueRead hr (by decide) rfl (registerAt_head ..)
  case enable => exact step_queueRead hr (by decide) rfl (registerAt_interruptEnable ..)
  case interruptStatus => exact step_queueRead hr (by decide) rfl (registerAt_interruptStatus ..)
  case status => exact step_queueRead hr (by decide) rfl (registerAt_status ..)
  case intStatus => exact step_queueRead hr (by decide) rfl (registerAt_intStatus ..)

/-! ## Writes with little or no effect -/

/-- Settles O31: the offset names the register, whose write is the update of one field. -/
theorem interruptEnableWrite : Obligations.InterruptEnableWrite := by
  intro s q v rest hw
  exact step_queueWrite hw (by decide) rfl (registerAt_interruptEnable ..) rfl

/-- A write of the request-id register (R174). -/
theorem step_requestIdWrite {s : State} {v : Word} {rest : List HostOp} (hw : HostWrites s 0x0008 v rest) :
    step s = .next (if v = 0 then { s with host := rest } else State.raiseFatal { s with host := rest } .reqIdNonZero) :=
  step_writeNamed hw (accessDefined_of_lt _ rfl (by decide)) rfl rfl

/-- The global registers that store nothing, whatever the value written (R172, R175, R176). -/
theorem storesNothing_of_mem (p : Params) {o : Nat} (h : o ∈ [0x0000, 0x000C, 0x0018, 0x001C, 0x0020, 0x0024]) :
    accessDefined p o 32 = true ∧ (registerAt p o).storesNothing = true := by
  simp only [List.mem_cons, List.not_mem_nil, or_false] at h
  refine ⟨accessDefined_of_lt p (by omega) (by omega), ?_⟩
  rcases h with rfl | rfl | rfl | rfl | rfl | rfl <;> rfl

/-- Settles O32: all of these registers but the request-id store nothing, and a write of the request-id tests its value for 0. -/
theorem writesOfRegistersThatStoreNothing : Obligations.WritesOfRegistersThatStoreNothing := by
  intro s offset v rest hw
  refine ⟨?nothing, ?fatal⟩
  case nothing =>
    rintro (hmem | ⟨rfl, rfl⟩ | ⟨q, rfl | rfl⟩)
    · obtain ⟨hdef, hnothing⟩ := storesNothing_of_mem s.params hmem
      exact step_write_of_storesNothing hw hdef hnothing
    · rw [step_requestIdWrite hw, if_pos rfl]
    · exact step_queueWrite hw (by decide) rfl (registerAt_status ..) rfl
    · exact step_queueWrite hw (by decide) rfl (registerAt_intStatus ..) rfl
  case fatal =>
    rintro ⟨rfl, hv⟩
    rw [step_requestIdWrite hw, if_neg hv]
    rfl

end Sys2Proof.Machine

/-! The AES block cipher: each transformation is undone by its inverse, hence each round, hence the cipher (FIPS 197;
notes/assumptions/10.md). -/

namespace Sys2Proof.Machine

/-! ## Byte substitution and the rotation of rows -/

theorem invSubByte_subByte : ∀ b : Byte, invSubByte (subByte b) = b := by decide +kernel

@[simp] theorem invSubBytes_subBytes (st : List Byte) : invSubBytes (subBytes st) = st := by
  rw [invSubBytes, subBytes, List.map_map]
  exact List.map_id'' invSubByte_subByte st

@[simp] theorem subBytes_length (st : List Byte) : (subBytes st).length = st.length := List.length_map _

@[simp] theorem shiftRows_length (st : List Byte) : (shiftRows st).length = 16 := by simp [shiftRows]

theorem shiftRows_getD (st : List Byte) {i : Nat} (h : i < 16) :
    (shiftRows st).getD i 0 = st.getD ((i + 4 * (i % 4)) % 16) 0 := by
  simp [shiftRows, h]

/-- Row `r` rotated left, then right, by `r` columns: index `i` comes from index `i`. -/
theorem invShiftRows_shiftRows {st : List Byte} (h : st.length = 16) : invShiftRows (shiftRows st) = st := by
  have hindex : ∀ i < 16, ((i + 12 * (i % 4)) % 16 + 4 * ((i + 12 * (i % 4)) % 16 % 4)) % 16 = i := by decide
  refine List.ext_getElem (by simp [invShiftRows, h]) fun i hi hst => ?_
  have hi16 : i < 16 := h ▸ hst
  simp only [invShiftRows, List.getElem_map, List.getElem_range]
  rw [shiftRows_getD st (Nat.mod_lt _ (by decide)), hindex i hi16, List.getD_eq_getElem _ _ hst]

/-! ## The mixing of columns -/

/-- A shift, then the reduction that the top bit asks for. -/
theorem xtime_eq (b : Byte) : xtime b = (b <<< 1) ^^^ (if b.getLsbD 7 then 0x1B else 0) := by
  rw [xtime]
  split
  · rfl
  · exact BitVec.xor_zero.symm

/-- Multiplication by x is linear. -/
theorem xtime_xor (a b : Byte) : xtime (a ^^^ b) = xtime a ^^^ xtime b := by
  have hreduce : ∀ p q : Bool,
      (if p ^^ q then 0x1B else 0 : Byte) = (if p then 0x1B else 0) ^^^ (if q then 0x1B else 0) := by decide
  rw [xtime_eq, xtime_eq, xtime_eq, BitVec.getLsbD_xor, BitVec.shiftLeft_xor_distrib, hreduce]
  ac_rfl

theorem gfMul_xor (c : BitVec 4) (a b : Byte) : gfMul c (a ^^^ b) = gfMul c a ^^^ gfMul c b := by
  have hif : ∀ (p : Bool) (x y : Byte), (if p then x ^^^ y else 0) = (if p then x else 0) ^^^ (if p then y else 0) := by
    intro p x y; cases p <;> simp
  simp only [gfMul, xtime_xor, hif]
  ac_rfl

/-- The product of the inverse matrix and the matrix, both circulant, is the identity: its four coefficients, at a byte. -/
theorem gfMul_inverseMatrix : ∀ x : Byte,
    gfMul 14 (gfMul 2 x) ^^^ gfMul 11 (gfMul 1 x) ^^^ gfMul 13 (gfMul 1 x) ^^^ gfMul 9 (gfMul 3 x) = x ∧
    gfMul 14 (gfMul 3 x) ^^^ gfMul 11 (gfMul 2 x) ^^^ gfMul 13 (gfMul 1 x) ^^^ gfMul 9 (gfMul 1 x) = 0#8 ∧
    gfMul 14 (gfMul 1 x) ^^^ gfMul 11 (gfMul 3 x) ^^^ gfMul 13 (gfMul 2 x) ^^^ gfMul 9 (gfMul 1 x) = 0#8 ∧
    gfMul 14 (gfMul 1 x) ^^^ gfMul 11 (gfMul 1 x) ^^^ gfMul 13 (gfMul 3 x) ^^^ gfMul 9 (gfMul 2 x) = 0#8 := by
  decide +kernel

/-- One entry of a mixed and unmixed column: the entry itself, as the other three cancel. -/
theorem gfMul_inverseRow (a b c d : Byte) :
    gfMul 14 (gfMul 2 a ^^^ gfMul 3 b ^^^ gfMul 1 c ^^^ gfMul 1 d) ^^^
      gfMul 11 (gfMul 1 a ^^^ gfMul 2 b ^^^ gfMul 3 c ^^^ gfMul 1 d) ^^^
      gfMul 13 (gfMul 1 a ^^^ gfMul 1 b ^^^ gfMul 2 c ^^^ gfMul 3 d) ^^^
      gfMul 9 (gfMul 3 a ^^^ gfMul 1 b ^^^ gfMul 1 c ^^^ gfMul 2 d) = a := by
  obtain ⟨ha, -, -, -⟩ := gfMul_inverseMatrix a
  obtain ⟨-, hb, -, -⟩ := gfMul_inverseMatrix b
  obtain ⟨-, -, hc, -⟩ := gfMul_inverseMatrix c
  obtain ⟨-, -, -, hd⟩ := gfMul_inverseMatrix d
  have hsum : ∀ a₁ a₂ a₃ a₄ b₁ b₂ b₃ b₄ c₁ c₂ c₃ c₄ d₁ d₂ d₃ d₄ : Byte,
      (a₁ ^^^ b₁ ^^^ c₁ ^^^ d₁) ^^^ (a₂ ^^^ b₂ ^^^ c₂ ^^^ d₂) ^^^ (a₃ ^^^ b₃ ^^^ c₃ ^^^ d₃) ^^^ (a₄ ^^^ b₄ ^^^ c₄ ^^^ d₄) =
        (a₁ ^^^ a₂ ^^^ a₃ ^^^ a₄) ^^^ (b₁ ^^^ b₂ ^^^ b₃ ^^^ b₄) ^^^ (c₁ ^^^ c₂ ^^^ c₃ ^^^ c₄) ^^^
          (d₁ ^^^ d₂ ^^^ d₃ ^^^ d₄) := by intros; ac_rfl
  simp only [gfMul_xor]
  rw [hsum, ha, hb, hc, hd, BitVec.xor_zero, BitVec.xor_zero, BitVec.xor_zero]

/-- The rows of both matrices rotate, so each entry of a column is `gfMul_inverseRow` at the rotated column. -/
theorem mixColumn_inverse (a b c d : Byte) :
    mixColumn 14 11 13 9 (mixColumn 2 3 1 1 [a, b, c, d]) = [a, b, c, d] := by
  simp only [mixColumn, List.cons.injEq, and_true]
  refine ⟨gfMul_inverseRow a b c d, Eq.trans ?_ (gfMul_inverseRow b c d a), Eq.trans ?_ (gfMul_inverseRow c d a b),
    Eq.trans ?_ (gfMul_inverseRow d a b c)⟩ <;> simp only [gfMul_xor] <;> ac_rfl

theorem mixColumn_length {col : List Byte} (h : col.length = 4) (c0 c1 c2 c3 : BitVec 4) :
    (mixColumn c0 c1 c2 c3 col).length = 4 := by
  match col, h with
  | [_, _, _, _], _ => rfl

theorem mixColumn_inverse_of_length {col : List Byte} (h : col.length = 4) :
    mixColumn 14 11 13 9 (mixColumn 2 3 1 1 col) = col := by
  match col, h with
  | [a, b, c, d], _ => exact mixColumn_inverse a b c d

/-- Blocks put one after the other are cut apart again. -/
theorem blocks_flatten_of_forall {size : Nat} (hs : 0 < size) {l : List (List Byte)} (h : ∀ b ∈ l, b.length = size) :
    blocks size l.flatten = l := by
  induction l with
  | nil => simp [blocks, blocksOf]
  | cons b l ih =>
    have hb : b.length = size := h b List.mem_cons_self
    have hone : blocks size b = [b] := by
      rw [blocks, hb, Nat.div_self hs, blocksOf, ← hb, List.take_length, blocksOf]
    rw [List.flatten_cons, blocks_append size _ _ (by rw [hb, Nat.mod_self]) hs, hone,
      ih fun c hc => h c (List.mem_cons_of_mem _ hc), List.singleton_append]

theorem invMixColumns_mixColumns {st : List Byte} (h : st.length = 16) : invMixColumns (mixColumns st) = st := by
  have hcol := blocks_mem_length 4 st
  have hmix : ∀ b ∈ (blocks 4 st).map (mixColumn 2 3 1 1), b.length = 4 := by
    intro b hb
    obtain ⟨col, hmem, rfl⟩ := List.mem_map.1 hb
    exact mixColumn_length (hcol col hmem) ..
  have hinv : ((blocks 4 st).map (mixColumn 2 3 1 1)).map (mixColumn 14 11 13 9) = blocks 4 st := by
    rw [List.map_map]
    exact (List.map_congr_left fun col hmem => mixColumn_inverse_of_length (hcol col hmem)).trans (List.map_id _)
  rw [invMixColumns, mixColumns, List.flatMap_def, List.flatMap_def, blocks_flatten_of_forall (by decide) hmix, hinv,
    blocks_flatten 4 st (by rw [h])]

theorem mixColumns_length {st : List Byte} (h : st.length = 16) : (mixColumns st).length = 16 := by
  rw [mixColumns, List.flatMap_def, flatten_length_of_forall _ 4]
  · simp [blocks, h]
  · intro b hb
    obtain ⟨col, hmem, rfl⟩ := List.mem_map.1 hb
    exact mixColumn_length (blocks_mem_length 4 st col hmem) ..

/-! ## The rounds -/

theorem encryptRounds_cons {k : List Byte} {ks : List (List Byte)} (h : ks ≠ []) (st : List Byte) :
    encryptRounds (k :: ks) st = encryptRounds ks (xorBytes (mixColumns (shiftRows (subBytes st))) k) := by
  cases ks with
  | nil => exact absurd rfl h
  | cons k' ks => rfl

theorem decryptRounds_cons {k : List Byte} {ks : List (List Byte)} (h : ks ≠ []) (st : List Byte) :
    decryptRounds (k :: ks) st = decryptRounds ks (invMixColumns (xorBytes (invSubBytes (invShiftRows st)) k)) := by
  cases ks with
  | nil => exact absurd rfl h
  | cons k' ks => rfl

theorem invSubBytes_invShiftRows_round {st : List Byte} (h : st.length = 16) :
    invSubBytes (invShiftRows (shiftRows (subBytes st))) = st := by
  rw [invShiftRows_shiftRows (by rwa [subBytes_length]), invSubBytes_subBytes]

/-- An inverse round with column mixing takes back a round, up to the substitution and the rotation that the rounds before
it end with. -/
theorem invMixColumns_round {st k : List Byte} (hk : k.length = 16) :
    invMixColumns (xorBytes (xorBytes (mixColumns (shiftRows (subBytes st))) k) k) = shiftRows (subBytes st) := by
  have hlen : (mixColumns (shiftRows (subBytes st))).length = 16 := mixColumns_length (shiftRows_length _)
  rw [xorBytes_cancel _ _ (by rw [hlen, hk]), invMixColumns_mixColumns (shiftRows_length _)]

/-- The rounds of the keys `ks` and the last key are taken back by the inverse rounds, which go on with the earlier keys
`prior`. -/
theorem decryptRounds_encryptRounds {ks prior : List (List Byte)} {last st : List Byte} (hks : ∀ k ∈ ks, k.length = 16)
    (hlast : last.length = 16) (hst : st.length = 16) (hprior : prior ≠ []) :
    decryptRounds (ks.reverse ++ prior) (xorBytes (encryptRounds (ks ++ [last]) st) last) =
      decryptRounds prior (shiftRows (subBytes st)) := by
  induction ks generalizing st prior with
  | nil => rw [List.reverse_nil, List.nil_append, List.nil_append, encryptRounds,
      xorBytes_cancel _ _ (by rw [shiftRows_length, hlast])]
  | cons k ks ih =>
    have hk : k.length = 16 := hks k List.mem_cons_self
    have hround : (xorBytes (mixColumns (shiftRows (subBytes st))) k).length = 16 := by
      rw [xorBytes_length, mixColumns_length (shiftRows_length _), hk, Nat.min_self]
    rw [List.reverse_cons, List.append_assoc, List.singleton_append, List.cons_append, encryptRounds_cons (by simp),
      ih (fun x hx => hks x (List.mem_cons_of_mem _ hx)) hround (List.cons_ne_nil _ _), decryptRounds_cons hprior,
      invSubBytes_invShiftRows_round hround, invMixColumns_round hk]

/-- The inverse cipher undoes the cipher, whatever the number of round keys. -/
theorem aesDecrypt_aesEncrypt (key : List Byte) {block : List Byte} (h : block.length = 16) :
    aesDecrypt key (aesEncrypt key block) = block := by
  have hlen := roundKeys_mem_length key
  rw [aesEncrypt, aesDecrypt]
  generalize roundKeys key = keys at hlen
  cases keys with
  | nil => rfl
  | cons k ks =>
    have hk : k.length = 16 := hlen k List.mem_cons_self
    have hst : (xorBytes block k).length = 16 := by rw [xorBytes_length, h, hk, Nat.min_self]
    have hcancel : xorBytes (xorBytes block k) k = block := xorBytes_cancel _ _ (by rw [h, hk])
    rcases List.eq_nil_or_concat ks with rfl | ⟨mid, last, rfl⟩
    · exact hcancel
    · have hmid : ∀ x ∈ mid, x.length = 16 := fun x hx => hlen x (by simp [hx])
      have hlast : last.length = 16 := hlen last (by simp)
      simp only [List.concat_eq_append, List.reverse_cons, List.reverse_append, List.reverse_nil, List.nil_append,
        List.cons_append]
      rw [decryptRounds_encryptRounds hmid hlast hst (List.cons_ne_nil k []), decryptRounds, invSubBytes_invShiftRows_round hst,
        hcancel]

/-- Settles O42: the cipher is undone for every key, so for the three sizes. -/
theorem aesDecryptUndoesEncrypt : Obligations.AesDecryptUndoesEncrypt :=
  fun key _ _ hblock => aesDecrypt_aesEncrypt key hblock

end Sys2Proof.Machine

/-! The AES operations: each mode is a chain of block steps over the blocks of its source, and it stores its output and its new
IV. -/

namespace Sys2Proof.Machine

/-! ## A chain and what it stores -/

/-- The state after an AES operation stored its output `out` and then `slot` in its context slot, and retired. -/
def afterAes (d : GenDesc) (out slot : List Byte) (s : State) : State :=
  (writeBytes (writeBytes s d.dest.space d.dest.address.toNat out) .scratchBuffer (contextOffset d.contextId) slot).retire
    d.flags .ok

theorem afterAes_retired (d : GenDesc) (out slot : List Byte) (s : State) : Retired s (afterAes d out slot s) d.flags .ok :=
  (State.retire_retired _ _ _).of_writeBytes.of_writeBytes

theorem readByte_afterAes {s : State} (hs : StoresWf s) (d : GenDesc) (out slot : List Byte) (sp : MemSpace) (a : Nat) :
    readByte (afterAes d out slot s) sp a = afterStore .scratchBuffer (contextOffset d.contextId) slot
      (afterStore d.dest.space d.dest.address.toNat out (readByte s)) sp a := by
  rw [afterAes, readByte_retire, readByte_writeBytes (hs.writeBytes ..)]
  congr 1
  funext sp x
  exact readByte_writeBytes hs ..

theorem afterStore_nil (sp : MemSpace) (a : Nat) (old : MemSpace → Nat → Byte) : afterStore sp a [] old = old := by
  funext sp' x
  exact if_neg fun ⟨_, hlow, hhigh⟩ => absurd hhigh (Nat.not_lt.mpr hlow)

theorem StoresWf.retire {s : State} (h : StoresWf s) (f : Flags) (r : Result) : StoresWf (s.retire f r) :=
  ⟨by rw [State.retire_mem]; exact h.mem, by rw [State.retire_sb]; exact h.sb⟩

theorem afterAes_storesWf {s : State} (hs : StoresWf s) (d : GenDesc) (out slot : List Byte) :
    StoresWf (afterAes d out slot s) := ((hs.writeBytes ..).writeBytes ..).retire ..

/-- Whole blocks of output fill the destination. -/
theorem outputBlocks_length {n : Nat} {y : Nat → List Byte} (h : ∀ i < n, (y (i + 1)).length = 16) :
    (outputBlocks n y).length = 16 * n := by
  rw [outputBlocks, flatten_length_of_forall _ 16, List.length_map, List.length_range]
  intro b hb
  obtain ⟨i, hi, rfl⟩ := List.mem_map.1 hb
  exact h i (List.mem_range.1 hi)

theorem outputBlocks_eq {n : Nat} {y z : Nat → List Byte} (h : ∀ i < n, z i = y (i + 1)) :
    ((List.range n).map z).flatten = outputBlocks n y := by
  rw [outputBlocks, List.map_congr_left fun i hi => h i (List.mem_range.1 hi)]

theorem wfAes_length_mod {p : Params} {iv : Bool} {k : AesKey} {size : BitVec 7} {d : GenDesc}
    (h : wfAes p iv k size d = true) : d.length.toNat % 16 = 0 := by
  simp only [wfAes, Bool.and_eq_true, beq_iff_eq] at h
  obtain ⟨⟨⟨⟨⟨-, hl⟩, -⟩, -⟩, -⟩, -⟩ := h
  exact hl

theorem wfAes_length {p : Params} {iv : Bool} {k : AesKey} {size : BitVec 7} {d : GenDesc} (h : wfAes p iv k size d = true) :
    16 * (d.length.toNat / 16) = d.length.toNat :=
  Nat.mul_div_cancel' (Nat.dvd_of_mod_eq_zero (wfAes_length_mod h))

/-! ## ECB -/

theorem ecbBlock_length (enc : Bool) (key : List Byte) {x : List Byte} (h : x.length = 16) :
    (ecbBlock enc key x).length = 16 := by
  cases enc
  · exact aesDecrypt_length key x h
  · exact aesEncrypt_length key x h

theorem exec_aesEcb {enc : Bool} {k : AesKey} {size : BitVec 7} {d : GenDesc} {s : State}
    (h : wfAes s.params false k size d = true) :
    exec (.aesEcb enc k size d) s = .next (afterAes d ((List.range (d.length.toNat / 16)).map fun i =>
      ecbBlock enc (standardKey s d.key k) (inputBlock s d.source i)).flatten [] s) := by
  rw [afterAes, writeBytes_nil]
  exact runDescriptor_ok ((validateAes_eq_none ..).mpr h) (aesEcbHandler_ok _ enc k size d s h)

/-- Settles O38: the blocks that `aesEcbHandler_ok` names, and no store in the context slot. -/
theorem aesEcbCompletes : Obligations.AesEcbCompletes := by
  intro enc k size d s hs hwf n key y
  have hy : ∀ i < n, ecbBlock enc key (inputBlock s d.source i) = y (i + 1) := fun i _ => rfl
  have hlen : ∀ i < n, (y (i + 1)).length = 16 := fun i hi =>
    hy i hi ▸ ecbBlock_length enc key (inputBlock_length ..)
  refine ⟨(outputBlocks_length hlen).trans (wfAes_length hwf), afterAes d (outputBlocks n y) [] s, ?_,
    afterAes_retired .., fun sp x => ?_⟩
  · rw [exec_aesEcb hwf, outputBlocks_eq hy]
  · rw [readByte_afterAes hs, afterStore_nil]

/-! ## The modes with an IV -/

/-- The running IV of an operation: the IV before block `i` of its source. -/
def ivBefore (f : List Byte → BlockStep) (k : AesKey) (d : GenDesc) (s : State) : Nat → List Byte :=
  runningIv (f (standardKey s d.key k)) (standardIv s d.contextId) (inputBlock s d.source)

/-- Block `i` of the output of an operation. -/
def blockOut (f : List Byte → BlockStep) (k : AesKey) (d : GenDesc) (s : State) (i : Nat) : List Byte :=
  (f (standardKey s d.key k) (ivBefore f k d s i) (inputBlock s d.source i)).1

section

variable {f : List Byte → BlockStep} {k : AesKey} {size : BitVec 7} {d : GenDesc} {s : State}

theorem ivBefore_length (hf : ∀ key, Keeps16 (f key)) (i : Nat) : (ivBefore f k d s i).length = 16 :=
  runningIv_length _ (hf _) _ _ (standardIv_length ..) (fun _ => inputBlock_length ..) i

theorem blockOut_length (hf : ∀ key, Keeps16 (f key)) (i : Nat) : (blockOut f k d s i).length = 16 :=
  (hf _ _ _ (ivBefore_length hf i) (inputBlock_length ..)).1

theorem runDescriptor_aesIv (hf : ∀ key, Keeps16 (f key)) (h : wfAes s.params true k size d = true) :
    runDescriptor d.flags (validateAes s.params true k size d) (aesIvHandler f k d) s =
      .next (afterAes d ((List.range (d.length.toNat / 16)).map (blockOut f k d s)).flatten
        (ivBefore f k d s (d.length.toNat / 16)).reverse s) :=
  runDescriptor_ok ((validateAes_eq_none ..).mpr h) (aesIvHandler_ok _ f hf k size d s h)

/-- What an operation of a mode with an IV leaves behind: its output blocks `y`, then its new IV reversed in its context slot
(R220, R221). -/
structure StoresChain (d : GenDesc) (s t : State) (y : Nat → List Byte) (iv' : List Byte) : Prop where
  outLength : (outputBlocks (d.length.toNat / 16) y).length = d.length.toNat
  ivLength : iv'.length = 16
  retired : Retired s t d.flags .ok
  bytes : ∀ sp a, readByte t sp a = afterStore .scratchBuffer (d.contextId.toNat * 32) iv'.reverse
    (afterStore d.dest.space d.dest.address.toNat (outputBlocks (d.length.toNat / 16) y) (readByte s)) sp a

/-- An operation of a mode with an IV completes, with the last running IV as its new IV. -/
theorem aesIv_completes (hf : ∀ key, Keeps16 (f key)) (hs : StoresWf s) (hwf : wfAes s.params true k size d = true)
    {y : Nat → List Byte} (hy : ∀ i < d.length.toNat / 16, blockOut f k d s i = y (i + 1)) :
    ∃ t, runDescriptor d.flags (validateAes s.params true k size d) (aesIvHandler f k d) s = .next t ∧
      StoresChain d s t y (ivBefore f k d s (d.length.toNat / 16)) := by
  have hlen : ∀ i < d.length.toNat / 16, (y (i + 1)).length = 16 := fun i hi => hy i hi ▸ blockOut_length hf i
  refine ⟨_, runDescriptor_aesIv hf hwf, (outputBlocks_length hlen).trans (wfAes_length hwf), ivBefore_length hf _,
    afterAes_retired .., fun sp a => ?_⟩
  rw [readByte_afterAes hs, outputBlocks_eq hy]
  rfl

/-- The IV, then the input blocks: `X_i` of the spec from `i = 1` on. -/
def chainInput (d : GenDesc) (s : State) (i : Nat) : List Byte :=
  if i = 0 then standardIv s d.contextId else inputBlock s d.source (i - 1)

/-- A mode that feeds its output block back completes: the running IVs are the IV, then the output blocks. -/
theorem aesIv_completes_outputFeedback (hf : ∀ key, Keeps16 (f key)) (hsnd : ∀ key iv x, (f key iv x).2 = (f key iv x).1)
    (hs : StoresWf s) (hwf : wfAes s.params true k size d = true) :
    ∃ t y, y 0 = standardIv s d.contextId ∧
      (∀ i, 1 ≤ i → i ≤ d.length.toNat / 16 → y i = (f (standardKey s d.key k) (y (i - 1)) (chainInput d s i)).1) ∧
      runDescriptor d.flags (validateAes s.params true k size d) (aesIvHandler f k d) s = .next t ∧
      StoresChain d s t y (y (d.length.toNat / 16)) := by
  obtain ⟨t, hexec, ht⟩ := aesIv_completes hf hs hwf (y := ivBefore f k d s) fun i _ => (hsnd _ _ _).symm
  refine ⟨t, ivBefore f k d s, rfl, fun i hi _ => ?_, hexec, ht⟩
  obtain ⟨j, rfl⟩ := Nat.exists_eq_add_of_le' hi
  exact hsnd _ _ _

/-- A mode that feeds its input block back completes: the running IVs are the IV, then the input blocks. -/
theorem aesIv_completes_inputFeedback (hf : ∀ key, Keeps16 (f key)) (hsnd : ∀ key iv x, (f key iv x).2 = x)
    (hs : StoresWf s) (hwf : wfAes s.params true k size d = true) :
    ∃ t, runDescriptor d.flags (validateAes s.params true k size d) (aesIvHandler f k d) s = .next t ∧
      StoresChain d s t (fun i => (f (standardKey s d.key k) (chainInput d s (i - 1)) (chainInput d s i)).1)
        (chainInput d s (d.length.toNat / 16)) := by
  have hiv : ∀ i, ivBefore f k d s i = chainInput d s i := by
    intro i
    cases i with
    | zero => rfl
    | succ i => exact hsnd _ _ _
  rw [← hiv]
  exact aesIv_completes hf hs hwf fun i _ => by rw [blockOut, hiv]; rfl

end

/-- Settles O39: the ciphertext block is the output when encrypting and the input when decrypting. -/
theorem aesCbcCompletes : Obligations.AesCbcCompletes := by
  intro enc k size d s hs hwf n key iv x
  cases enc with
  | true =>
    obtain ⟨t, y, hzero, hy, hexec, h⟩ := aesIv_completes_outputFeedback (cbcStep_keeps16 true) (fun _ _ _ => rfl) hs hwf
    exact ⟨t, y, y n, ⟨hzero, hy, rfl⟩, h.outLength, h.ivLength, hexec, h.retired, h.bytes⟩
  | false =>
    obtain ⟨t, hexec, h⟩ := aesIv_completes_inputFeedback (cbcStep_keeps16 false) (fun _ _ _ => rfl) hs hwf
    exact ⟨t, _, x n, ⟨fun _ _ _ => rfl, rfl⟩, h.outLength, h.ivLength, hexec, h.retired, h.bytes⟩

/-- Settles O40: the ciphertext block is fed back as in CBC, through the forward cipher in both directions. -/
theorem aesCfbCompletes : Obligations.AesCfbCompletes := by
  intro enc k size d s hs hwf n key iv x
  cases enc with
  | true =>
    obtain ⟨t, y, hzero, hy, hexec, h⟩ := aesIv_completes_outputFeedback (cfbStep_keeps16 true) (fun _ _ _ => rfl) hs hwf
    exact ⟨t, y, y n, ⟨hzero, hy, rfl⟩, h.outLength, h.ivLength, hexec, h.retired, h.bytes⟩
  | false =>
    obtain ⟨t, hexec, h⟩ := aesIv_completes_inputFeedback (cfbStep_keeps16 false) (fun _ _ _ => rfl) hs hwf
    exact ⟨t, _, x n, ⟨fun _ _ _ => rfl, rfl⟩, h.outLength, h.ivLength, hexec, h.retired, h.bytes⟩

/-- Settles O41: the running IVs are the keystream, whatever the direction. -/
theorem aesOfbCompletes : Obligations.AesOfbCompletes := by
  intro enc k size d s hs hwf n key
  obtain ⟨t, hexec, h⟩ := aesIv_completes ofbStep_keeps16 hs hwf
    (y := fun i => xorBytes (inputBlock s d.source (i - 1)) (ivBefore ofbStep k d s i)) fun _ _ => rfl
  exact ⟨t, ivBefore ofbStep k d s, rfl, fun _ _ => rfl, h.ivLength, h.outLength, hexec, h.retired, h.bytes⟩

end Sys2Proof.Machine

/-! Decrypting what was encrypted: the inverse chain over the output of a chain gives back its input. -/

namespace Sys2Proof.Machine

/-! ## Chains -/

/-- A block step takes back the output of another and goes on with the same IV. -/
def Undoes (g f : BlockStep) : Prop :=
  ∀ iv x : List Byte, iv.length = 16 → x.length = 16 → g iv (f iv x).1 = (x, (f iv x).2)

theorem chainBlocks_undoes {f g : BlockStep} (hf : Keeps16 f) (h : Undoes g f) {iv : List Byte} (hiv : iv.length = 16)
    {xs : List (List Byte)} (hxs : ∀ x ∈ xs, x.length = 16) :
    chainBlocks g iv (chainBlocks f iv xs).1 = (xs, (chainBlocks f iv xs).2) := by
  induction xs generalizing iv with
  | nil => rfl
  | cons x xs ih =>
    have hx : x.length = 16 := hxs x List.mem_cons_self
    simp only [chainBlocks, h iv x hiv hx, ih (hf iv x hiv hx).2 fun y hy => hxs y (List.mem_cons_of_mem _ hy)]

theorem chainBlocks_mem_length {f : BlockStep} (hf : Keeps16 f) {iv : List Byte} (hiv : iv.length = 16)
    {xs : List (List Byte)} (hxs : ∀ x ∈ xs, x.length = 16) : ∀ y ∈ (chainBlocks f iv xs).1, y.length = 16 := by
  induction xs generalizing iv with
  | nil => exact fun y hy => absurd hy List.not_mem_nil
  | cons x xs ih =>
    obtain ⟨hout, hnext⟩ := hf iv x hiv (hxs x List.mem_cons_self)
    intro y hy
    rcases List.mem_cons.1 hy with rfl | hy
    · exact hout
    · exact ih hnext (fun z hz => hxs z (List.mem_cons_of_mem _ hz)) y hy

/-- ECB as a block step, which leaves the IV alone. -/
def ecbStep (encrypt : Bool) (key : List Byte) : BlockStep := fun iv x => (ecbBlock encrypt key x, iv)

theorem ecbStep_keeps16 (enc : Bool) (key : List Byte) : Keeps16 (ecbStep enc key) :=
  fun _ _ hiv hx => ⟨ecbBlock_length enc key hx, hiv⟩

theorem ecbStep_undoes (key : List Byte) : Undoes (ecbStep false key) (ecbStep true key) :=
  fun iv _ _ hx => congrArg (·, iv) (aesDecrypt_aesEncrypt key hx)

theorem cbcStep_undoes (key : List Byte) : Undoes (cbcStep false key) (cbcStep true key) := by
  intro iv x hiv hx
  have hxor : (xorBytes x iv).length = 16 := by rw [xorBytes_length, hx, hiv, Nat.min_self]
  simp only [cbcStep, if_true, Bool.false_eq_true, if_false]
  rw [aesDecrypt_aesEncrypt key hxor, xorBytes_cancel _ _ (by rw [hx, hiv])]

/-- The keystream block is the same in both directions (R218, R219). -/
theorem xorBytes_keystream_cancel (key : List Byte) {iv x : List Byte} (hiv : iv.length = 16) (hx : x.length = 16) :
    xorBytes (xorBytes x (aesEncrypt key iv)) (aesEncrypt key iv) = x :=
  xorBytes_cancel _ _ (by rw [hx, aesEncrypt_length key iv hiv])

theorem cfbStep_undoes (key : List Byte) : Undoes (cfbStep false key) (cfbStep true key) :=
  fun _ _ hiv hx => congrArg (·, _) (xorBytes_keystream_cancel key hiv hx)

theorem ofbStep_undoes (key : List Byte) : Undoes (ofbStep key) (ofbStep key) :=
  fun _ _ hiv hx => congrArg (·, _) (xorBytes_keystream_cancel key hiv hx)

/-! ## Operations as chains -/

/-- The source of an operation. -/
def sourceBytes (d : GenDesc) (s : State) : List Byte := readBytes s d.source.space d.source.address.toNat d.length.toNat

/-- The output blocks of an operation, as one chain over the blocks of its source. -/
def chainOutput (f : List Byte → BlockStep) (k : AesKey) (d : GenDesc) (s : State) : List (List Byte) :=
  (chainBlocks (f (standardKey s d.key k)) (standardIv s d.contextId) (blocks 16 (sourceBytes d s))).1

theorem chainOutput_eq_map (f : List Byte → BlockStep) (k : AesKey) (d : GenDesc) (s : State) :
    chainOutput f k d s = (List.range (d.length.toNat / 16)).map (blockOut f k d s) := by
  rw [chainOutput, sourceBytes, inputBlocks, chainBlocks_map_range]; rfl

theorem chainOutput_mem_length {f : List Byte → BlockStep} (hf : ∀ key, Keeps16 (f key)) (k : AesKey) (d : GenDesc)
    (s : State) : ∀ y ∈ chainOutput f k d s, y.length = 16 :=
  chainBlocks_mem_length (hf _) (standardIv_length ..) (blocks_mem_length _ _)

theorem chainOutput_flatten_length {f : List Byte → BlockStep} (hf : ∀ key, Keeps16 (f key)) (k : AesKey) {d : GenDesc}
    (s : State) (hd : d.length.toNat % 16 = 0) : (chainOutput f k d s).flatten.length = d.length.toNat := by
  rw [flatten_length_of_forall _ 16 (chainOutput_mem_length hf k d s), chainOutput_eq_map, List.length_map,
    List.length_range, Nat.mul_div_cancel' (Nat.dvd_of_mod_eq_zero hd)]

/-- An instruction stores the chain of `f` over its source at its destination, and at most 16 bytes in its context slot. -/
def RunsChain (f : List Byte → BlockStep) (k : AesKey) (d : GenDesc) (i : Instr) : Prop :=
  ∀ s, i.wf s.params = true → d.length.toNat % 16 = 0 ∧
    ∃ slot, slot.length ≤ 16 ∧ exec i s = .next (afterAes d (chainOutput f k d s).flatten slot s)

section

variable (enc : Bool) (k : AesKey) (size : BitVec 7) (d : GenDesc)

theorem runsChain_aesEcb : RunsChain (ecbStep enc) k d (.aesEcb enc k size d) := fun s hwf => by
  refine ⟨wfAes_length_mod hwf, [], Nat.zero_le _, ?_⟩
  rw [chainOutput_eq_map]
  exact exec_aesEcb hwf

theorem runsChain_of_aesIvHandler {f : List Byte → BlockStep} (hf : ∀ key, Keeps16 (f key)) {i : Instr}
    (hwf : ∀ p, i.wf p = wfAes p true k size d)
    (hexec : ∀ s, exec i s = runDescriptor d.flags (validateAes s.params true k size d) (aesIvHandler f k d) s) :
    RunsChain f k d i := by
  intro s h
  rw [hwf] at h
  have hslot : (ivBefore f k d s (d.length.toNat / 16)).reverse.length ≤ 16 := by
    rw [List.length_reverse, ivBefore_length hf]
  refine ⟨wfAes_length_mod h, _, hslot, ?_⟩
  rw [hexec, chainOutput_eq_map]
  exact runDescriptor_aesIv hf h

theorem runsChain_aesCbc : RunsChain (cbcStep enc) k d (.aesCbc enc k size d) :=
  runsChain_of_aesIvHandler k size d (cbcStep_keeps16 enc) (fun _ => rfl) fun _ => rfl

theorem runsChain_aesCfb : RunsChain (cfbStep enc) k d (.aesCfb enc k size d) :=
  runsChain_of_aesIvHandler k size d (cfbStep_keeps16 enc) (fun _ => rfl) fun _ => rfl

theorem runsChain_aesOfb : RunsChain ofbStep k d (.aesOfb enc k size d) :=
  runsChain_of_aesIvHandler k size d ofbStep_keeps16 (fun _ => rfl) fun _ => rfl

end

/-! ## The context slot put back -/

/-- The context slot of an operation as it was in `s`, stored in `t`. -/
def restoreSlot (d : GenDesc) (s t : State) : State :=
  writeBytes t .scratchBuffer (contextOffset d.contextId) (readBytes s .scratchBuffer (contextOffset d.contextId) 16)

theorem restoreSlot_storesWf (d : GenDesc) (s : State) {t : State} (h : StoresWf t) : StoresWf (restoreSlot d s t) :=
  h.writeBytes ..

theorem restoreSlot_afterAes_params (d : GenDesc) (s : State) (out slot : List Byte) :
    (restoreSlot d s (afterAes d out slot s)).params = s.params := by
  rw [restoreSlot, writeBytes_params, (afterAes_retired d out slot s).params]

theorem sameStore_scratchBuffer_iff {sp : MemSpace} : sameStore .scratchBuffer sp = true ↔ sp = .scratchBuffer := by
  cases sp <;> decide

theorem sameStore_refl (sp : MemSpace) : sameStore sp sp = true := by cases sp <;> rfl

section

variable {d : GenDesc} {s : State} {out slot : List Byte}

/-- With the slot put back, an operation whose destination lies apart from it has stored its output and nothing else. -/
theorem readByte_restoreSlot (hs : StoresWf s) (hslot : slot.length ≤ 16)
    (hapart : Apart d.dest.space d.dest.address.toNat out.length .scratchBuffer (contextOffset d.contextId) 16)
    (sp : MemSpace) (x : Nat) :
    readByte (restoreSlot d s (afterAes d out slot s)) sp x =
      readByte (writeBytes s d.dest.space d.dest.address.toNat out) sp x := by
  rw [restoreSlot, readByte_writeBytes (afterAes_storesWf hs d out slot), readByte_writeBytes hs, afterStore, readBytes_length]
  split
  case isTrue hin =>
    obtain ⟨hsame, hlow, hhigh⟩ := hin
    obtain rfl := sameStore_scratchBuffer_iff.mp hsame
    have hout : ¬ (sameStore d.dest.space .scratchBuffer = true ∧ d.dest.address.toNat ≤ x ∧
        x < d.dest.address.toNat + out.length) := by
      rintro ⟨hd, hge, hlt⟩
      rcases hapart with h | h | h
      · rw [hd] at h; cases h
      · omega
      · omega
    rw [readBytes_getD _ _ _ _ _ (by omega), Nat.add_sub_cancel' hlow, afterStore, if_neg hout]
  case isFalse hnot =>
    rw [readByte_afterAes hs, afterStore, if_neg fun ⟨hsame, hlow, hhigh⟩ => hnot ⟨hsame, hlow, by omega⟩]

theorem readBytes_restoreSlot (hs : StoresWf s) (hslot : slot.length ≤ 16)
    (hapart : Apart d.dest.space d.dest.address.toNat out.length .scratchBuffer (contextOffset d.contextId) 16)
    (sp : MemSpace) (a n : Nat) :
    readBytes (restoreSlot d s (afterAes d out slot s)) sp a n =
      readBytes (writeBytes s d.dest.space d.dest.address.toNat out) sp a n :=
  readBytes_congr _ _ _ _ _ _ fun x _ _ => readByte_restoreSlot hs hslot hapart sp x

/-- The output read back, from a destination that lies apart from the context slot. -/
theorem readBytes_afterAes_dest (hs : StoresWf s) (hslot : slot.length ≤ 16)
    (hapart : Apart d.dest.space d.dest.address.toNat out.length .scratchBuffer (contextOffset d.contextId) 16) :
    readBytes (afterAes d out slot s) d.dest.space d.dest.address.toNat out.length = out := by
  have hapart' : Apart .scratchBuffer (contextOffset d.contextId) slot.length d.dest.space d.dest.address.toNat out.length :=
    hapart.symm.imp id (Or.imp (fun h => by omega) id)
  rw [afterAes, readBytes_congr _ _ _ _ _ _ fun x _ _ => readByte_retire _ _ _ _ x,
    hapart'.readBytes_writeBytes (hs.writeBytes ..), readBytes_writeBytes_same hs _ _ _ _ (sameStore_refl _)]

end

/-! ## The round trip -/

section

variable {f g : List Byte → BlockStep} {k : AesKey} {d e : GenDesc} {s t : State}

/-- The inverse chain over a source that holds the output of a chain, under the same key and IV, gives back what it was made
from. -/
theorem chainOutput_undoes (hf : ∀ key, Keeps16 (f key)) (hundo : ∀ key, Undoes (g key) (f key))
    (hkey : standardKey t e.key k = standardKey s d.key k) (hiv : standardIv t e.contextId = standardIv s d.contextId)
    (hsource : sourceBytes e t = (chainOutput f k d s).flatten) :
    chainOutput g k e t = blocks 16 (sourceBytes d s) := by
  rw [chainOutput, hkey, hiv, hsource, blocks_flatten_of_forall (by decide) (chainOutput_mem_length hf k d s), chainOutput,
    chainBlocks_undoes (hf _) (hundo _) (standardIv_length ..) (blocks_mem_length _ _)]

/-- The inverse chain after the context slot is put back: the operation left nothing changed but its output, so the key and the IV
are those it had. -/
theorem chainOutput_restoreSlot {slot : List Byte} (hf : ∀ key, Keeps16 (f key)) (hundo : ∀ key, Undoes (g key) (f key))
    (hs : StoresWf s) (hslot : slot.length ≤ 16) (hwhole : d.length.toNat % 16 = 0) (hlength : e.length = d.length)
    (hcontext : e.contextId = d.contextId) (hkey : e.key = d.key) (hsource : e.source = d.dest)
    (hapartKey : Apart d.dest.space d.dest.address.toNat d.length.toNat d.key.space d.key.address.toNat k.bytes)
    (hapartSlot : Apart d.dest.space d.dest.address.toNat d.length.toNat .scratchBuffer (contextOffset d.contextId) 16) :
    chainOutput g k e (restoreSlot d s (afterAes d (chainOutput f k d s).flatten slot s)) =
      blocks 16 (sourceBytes d s) := by
  have hlen := chainOutput_flatten_length hf k s hwhole
  rw [← hlen] at hapartKey hapartSlot
  have hread := readBytes_restoreSlot hs hslot hapartSlot
  refine chainOutput_undoes hf hundo ?key ?iv ?source
  case key => rw [standardKey, standardKey, hread, hkey, hapartKey.readBytes_writeBytes hs]
  case iv => rw [standardIv, standardIv, hcontext, hread, hapartSlot.readBytes_writeBytes hs]
  case source =>
    rw [sourceBytes, hread, hsource, hlength, ← hlen]
    exact readBytes_writeBytes_same hs _ _ _ _ (sameStore_refl _)

/-- The round trip of two instructions that run a chain and its inverse. -/
theorem roundTrip_of_runsChain {i j : Instr} (hf : ∀ key, Keeps16 (f key)) (hundo : ∀ key, Undoes (g key) (f key))
    (hi : RunsChain f k d i) (hj : RunsChain g k e j) (hs : StoresWf s) (hwfi : i.wf s.params = true)
    (hwfj : j.wf s.params = true) (hlength : e.length = d.length) (hcontext : e.contextId = d.contextId)
    (hkey : e.key = d.key) (hsource : e.source = d.dest)
    (hapartKey : Apart d.dest.space d.dest.address.toNat d.length.toNat d.key.space d.key.address.toNat k.bytes)
    (hapartSlot : Apart d.dest.space d.dest.address.toNat d.length.toNat .scratchBuffer (contextOffset d.contextId) 16)
    (hapartBack : Apart e.dest.space e.dest.address.toNat d.length.toNat .scratchBuffer (contextOffset d.contextId) 16) :
    ∃ t u, exec i s = .next t ∧ exec j (restoreSlot d s t) = .next u ∧
      readBytes u e.dest.space e.dest.address.toNat d.length.toNat = sourceBytes d s := by
  obtain ⟨hwhole, slot, hslot, hexeci⟩ := hi s hwfi
  have hback := chainOutput_restoreSlot (f := f) (slot := slot) hf hundo hs hslot hwhole hlength hcontext hkey hsource hapartKey
    hapartSlot
  have ht := restoreSlot_storesWf d s (afterAes_storesWf hs d (chainOutput f k d s).flatten slot)
  have hparams := restoreSlot_afterAes_params d s (chainOutput f k d s).flatten slot
  obtain ⟨-, slot', hslot', hexecj⟩ := hj (restoreSlot d s (afterAes d (chainOutput f k d s).flatten slot s))
    (by rw [hparams]; exact hwfj)
  have hlen : (sourceBytes d s).length = d.length.toNat := readBytes_length ..
  have hplain : (blocks 16 (sourceBytes d s)).flatten = sourceBytes d s := blocks_flatten 16 _ (by rw [hlen, hwhole])
  rw [hback, hplain] at hexecj
  refine ⟨_, _, hexeci, hexecj, ?_⟩
  rw [← hlen, ← hcontext] at hapartBack
  rw [← hlen]
  exact readBytes_afterAes_dest ht hslot' hapartBack

end

/-- Settles O43: in each mode the decrypting step undoes the encrypting one. -/
theorem aesRoundTrip : Obligations.AesRoundTrip := by
  intro k size d e s mode hmode hs hwfd hwfe hlength hcontext hkey hsource n slot hapartKey hapartSlot hapartBack
  have main := fun {f g : List Byte → BlockStep} (hf : ∀ key, Keeps16 (f key)) (hundo : ∀ key, Undoes (g key) (f key))
    (hi : RunsChain f k d (mode true k size d)) (hj : RunsChain g k e (mode false k size e)) =>
      roundTrip_of_runsChain hf hundo hi hj hs hwfd hwfe hlength hcontext hkey hsource hapartKey hapartSlot hapartBack
  simp only [List.mem_cons, List.not_mem_nil, or_false] at hmode
  rcases hmode with rfl | rfl | rfl | rfl
  · exact main (ecbStep_keeps16 true) ecbStep_undoes (runsChain_aesEcb _ _ _ _) (runsChain_aesEcb _ _ _ _)
  · exact main (cbcStep_keeps16 true) cbcStep_undoes (runsChain_aesCbc _ _ _ _) (runsChain_aesCbc _ _ _ _)
  · exact main (cfbStep_keeps16 true) cfbStep_undoes (runsChain_aesCfb _ _ _ _) (runsChain_aesCfb _ _ _ _)
  · exact main ofbStep_keeps16 ofbStep_undoes (runsChain_aesOfb _ _ _ _) (runsChain_aesOfb _ _ _ _)

end Sys2Proof.Machine

/-! The SHA operations: what one of them stores, the padding, and a message hashed in two parts. -/

namespace Sys2Proof.Machine

/-! ## The five operations as one family -/

/-- The SHA instruction of an algorithm. -/
def shaInstr : ShaAlg → ShaDesc → Instr
  | .sha1 => .sha1
  | .sha224 => .sha224
  | .sha256 => .sha256
  | .sha384 => .sha384
  | .sha512 => .sha512

/-- A row of the table of the five algorithms is fixed by its algorithm. -/
theorem exists_eq_of_mem_shaTable {β : Type} (f : ShaAlg → β) {x : ShaAlg × β}
    (h : x ∈ [(.sha1, f .sha1), (.sha224, f .sha224), (.sha256, f .sha256), (.sha384, f .sha384), (.sha512, f .sha512)]) :
    ∃ alg, x = (alg, f alg) := by
  simp only [List.mem_cons, List.not_mem_nil, or_false] at h
  rcases h with rfl | rfl | rfl | rfl | rfl <;> exact ⟨_, rfl⟩

theorem exec_shaInstr_eq (alg : ShaAlg) (d : ShaDesc) (s : State) : exec (shaInstr alg d) s = runSha alg d s := by
  cases alg <;> rfl

theorem shaInstr_wf (alg : ShaAlg) (d : ShaDesc) (p : Params) :
    (shaInstr alg d).wf p = wfSha (shaAreaBytes alg) (shaBlockBytes alg) d := by cases alg <;> rfl

/-! ## What one operation stores -/

/-- The message bytes of a descriptor. -/
def shaInput (d : ShaDesc) (s : State) : List Byte := readBytes s d.source.space d.source.address.toNat d.length.toNat

/-- The state words that an operation writes back (R237, R241). -/
def shaWritten (alg : ShaAlg) (d : ShaDesc) (s : State) : List (BitVec (shaWordBits alg)) :=
  (shaResult alg d.flags.eom d.shaLen.toNat (contextWords alg s d.contextId) (shaInput d s)).take
    (shaWordsOut alg d.flags.eom)

/-- The state after a SHA operation wrote its words in its context area and retired. -/
def afterSha (alg : ShaAlg) (d : ShaDesc) (s : State) : State :=
  (writeBytes s .scratchBuffer (contextOffset d.contextId) (areaBytes alg (shaWritten alg d s))).retire d.flags .ok

theorem exec_shaInstr {alg : ShaAlg} {d : ShaDesc} {s : State} (h : (shaInstr alg d).wf s.params = true) :
    exec (shaInstr alg d) s = .next (afterSha alg d s) := by
  rw [shaInstr_wf] at h
  rw [exec_shaInstr_eq]
  exact runDescriptor_ok ((validateSha_eq_none ..).mpr h) (shaHandler_ok alg d s h)

theorem afterSha_retired (alg : ShaAlg) (d : ShaDesc) (s : State) : Retired s (afterSha alg d s) d.flags .ok :=
  (State.retire_retired _ _ _).of_writeBytes

theorem readByte_afterSha {s : State} (hs : StoresWf s) (alg : ShaAlg) (d : ShaDesc) (sp : MemSpace) (a : Nat) :
    readByte (afterSha alg d s) sp a =
      afterStore .scratchBuffer (contextOffset d.contextId) (areaBytes alg (shaWritten alg d s)) (readByte s) sp a := by
  rw [afterSha, readByte_retire, readByte_writeBytes hs]

theorem afterSha_storesWf {s : State} (hs : StoresWf s) (alg : ShaAlg) (d : ShaDesc) : StoresWf (afterSha alg d s) :=
  (hs.writeBytes ..).retire ..

theorem shaWordsOut_le (alg : ShaAlg) (eom : Bool) : shaWordsOut alg eom ≤ shaWords alg := by
  cases alg <;> cases eom <;> decide

theorem shaWritten_length (alg : ShaAlg) (d : ShaDesc) (s : State) :
    (shaWritten alg d s).length = shaWordsOut alg d.flags.eom := by
  rw [shaWritten, List.length_take, shaResult, shaAbsorb_length, contextWords_length, Nat.min_eq_left (shaWordsOut_le ..)]

theorem areaBytes_shaWritten_length (alg : ShaAlg) (d : ShaDesc) (s : State) :
    (areaBytes alg (shaWritten alg d s)).length = shaWordsOut alg d.flags.eom * shaWordBytes alg := by
  rw [areaBytes_length, shaWritten_length, Nat.mul_comm]

/-- Settles O44: the operation's one store, of the words that `shaHandler_ok` names. -/
theorem shaCompletes : Obligations.ShaCompletes := by
  intro d s hs x hx hwf
  obtain ⟨alg, rfl⟩ := exists_eq_of_mem_shaTable (fun alg => shaInstr alg d) hx
  exact ⟨areaBytes_shaWritten_length alg d s, afterSha alg d s, exec_shaInstr hwf, afterSha_retired ..,
    readByte_afterSha hs alg d⟩

/-! ## The padding -/

/-- The fewest bytes that fill `n` bytes up to whole blocks of `b`, as in `shaPad` (R238). -/
def blockFill (b n : Nat) : Nat := (b - n % b) % b

theorem add_blockFill_mod {b : Nat} (hb : 0 < b) (n : Nat) : (n + blockFill b n) % b = 0 := by
  rw [blockFill, Nat.add_mod_mod, ← Nat.mod_add_mod, Nat.add_sub_cancel' (Nat.mod_lt n hb).le, Nat.mod_self]

/-- Every other number of bytes that fills the block is the same modulo `b`, and `blockFill` is the remainder. -/
theorem blockFill_le {b n k : Nat} (hb : 0 < b) (h : (n + k) % b = 0) : blockFill b n ≤ k := by
  have hmod : blockFill b n ≡ k [MOD b] := Nat.ModEq.add_left_cancel' n ((add_blockFill_mod hb n).trans h.symm)
  have hlt : blockFill b n < b := Nat.mod_lt _ hb
  calc blockFill b n = k % b := (Nat.mod_eq_of_lt hlt).symm.trans hmod
    _ ≤ k := Nat.mod_le k b

/-- Whole blocks in front do not change the fill. -/
theorem blockFill_add_left {b m : Nat} (hm : m % b = 0) (n : Nat) : blockFill b (m + n) = blockFill b n := by
  rw [blockFill, Nat.add_mod, hm, Nat.zero_add, Nat.mod_mod, blockFill]

theorem shaBlockBytes_pos (alg : ShaAlg) : 0 < shaBlockBytes alg := by cases alg <;> decide

theorem shaPad_eq (alg : ShaAlg) (m : List Byte) (shaLen : Nat) :
    shaPad alg m shaLen = m ++ [0x80] ++
      List.replicate (blockFill (shaBlockBytes alg) (m.length + 1 + shaLengthBytes alg)) 0 ++
      toBe shaLen (shaLengthBytes alg) := rfl

/-- Settles O45: `shaPad` takes `blockFill` zero bytes. -/
theorem shaPaddingIsShortest : Obligations.ShaPaddingIsShortest := by
  intro alg m shaLen
  have hpos := shaBlockBytes_pos alg
  refine ⟨_, shaPad_eq alg m shaLen, ?whole, fun z' hz' => ?least⟩
  case whole => rw [Nat.add_right_comm]; exact add_blockFill_mod hpos _
  case least => rw [Nat.add_right_comm] at hz'; exact blockFill_le hpos hz'

/-- Whole blocks in front of a message stay outside its padding. -/
theorem shaPad_append (alg : ShaAlg) {m₁ : List Byte} (m₂ : List Byte) (shaLen : Nat)
    (hm : m₁.length % shaBlockBytes alg = 0) : shaPad alg (m₁ ++ m₂) shaLen = m₁ ++ shaPad alg m₂ shaLen := by
  have hfill : blockFill (shaBlockBytes alg) ((m₁ ++ m₂).length + 1 + shaLengthBytes alg) =
      blockFill (shaBlockBytes alg) (m₂.length + 1 + shaLengthBytes alg) := by
    rw [List.length_append, Nat.add_assoc, Nat.add_assoc, blockFill_add_left hm, ← Nat.add_assoc]
  rw [shaPad_eq, shaPad_eq, hfill]
  simp only [List.append_assoc]

/-! ## The words of a context area -/

/-- A state word as little-endian bytes (R236). -/
def wordOfLe (alg : ShaAlg) (b : List Byte) : BitVec (shaWordBits alg) := BitVec.ofNat _ (leNat b)

theorem wordOfLe_toLe (alg : ShaAlg) (h : BitVec (shaWordBits alg)) : wordOfLe alg (toLe h.toNat (shaWordBytes alg)) = h := by
  have hpow : 256 ^ shaWordBytes alg = 2 ^ shaWordBits alg := (Nat.pow_mul 2 8 _).symm
  rw [wordOfLe, leNat_toLe, hpow, Nat.mod_eq_of_lt h.isLt, BitVec.ofNat_toNat, BitVec.setWidth_eq]

theorem shaWordBytes_pos (alg : ShaAlg) : 0 < shaWordBytes alg := by cases alg <;> decide

theorem contextWords_eq_map_blocks (alg : ShaAlg) (s : State) (c : BitVec 8) :
    contextWords alg s c = (blocks (shaWordBytes alg)
      (readBytes s .scratchBuffer (contextOffset c) (shaWords alg * shaWordBytes alg))).map (wordOfLe alg) := by
  rw [blocks_readBytes, Nat.mul_div_cancel _ (shaWordBytes_pos alg), List.map_map]
  exact List.map_congr_left fun i _ => by rw [Function.comp, Nat.mul_comm]; rfl

/-- Words written as the bytes of a context area are read back from it. -/
theorem map_wordOfLe_blocks_areaBytes (alg : ShaAlg) (hs : List (BitVec (shaWordBits alg))) :
    (blocks (shaWordBytes alg) (areaBytes alg hs)).map (wordOfLe alg) = hs := by
  have hlen : ∀ b ∈ hs.map (fun h => toLe h.toNat (shaWordBytes alg)), b.length = shaWordBytes alg := by
    intro b hb
    obtain ⟨h, -, rfl⟩ := List.mem_map.1 hb
    exact toLe_length ..
  rw [areaBytes, blocks_flatten_of_forall (shaWordBytes_pos alg) hlen, List.map_map]
  exact List.map_id'' (wordOfLe_toLe alg) hs

@[simp] theorem readBytes_retire (s : State) (f : Flags) (r : Result) (sp : MemSpace) (a n : Nat) :
    readBytes (s.retire f r) sp a n = readBytes s sp a n := readBytes_congr _ _ _ _ _ _ fun _ _ _ => readByte_retire ..

/-- The context area after an operation, as far as it wrote. -/
theorem readBytes_afterSha_context {s : State} (hs : StoresWf s) (alg : ShaAlg) (d : ShaDesc) :
    readBytes (afterSha alg d s) .scratchBuffer (contextOffset d.contextId) (shaWordsOut alg d.flags.eom * shaWordBytes alg) =
      areaBytes alg (shaWritten alg d s) := by
  rw [afterSha, readBytes_retire, ← areaBytes_shaWritten_length alg d s]
  exact readBytes_writeBytes_same hs _ _ _ _ rfl

/-- Without `eom` an operation leaves the whole chaining state, the message absorbed (R240). -/
theorem contextWords_afterSha {s : State} (hs : StoresWf s) (alg : ShaAlg) {d : ShaDesc} (heom : d.flags.eom = false) :
    contextWords alg (afterSha alg d s) d.contextId = shaAbsorb alg (contextWords alg s d.contextId) (shaInput d s) := by
  have hread := readBytes_afterSha_context hs alg d
  simp only [heom, shaWordsOut, Bool.false_eq_true, if_false] at hread
  rw [contextWords_eq_map_blocks, hread, map_wordOfLe_blocks_areaBytes, shaWritten, heom]
  exact List.take_of_length_le (by simp [shaResult, shaAbsorb_length, shaWordsOut])

/-! ## A message in two parts -/

theorem readBytes_of_sameStore (s : State) {sp sp' : MemSpace} (h : sameStore sp sp' = true) (a n : Nat) :
    readBytes s sp a n = readBytes s sp' a n := by
  cases sp <;> cases sp' <;> cases h <;> rfl

theorem fits_iff (o : Operand) (n : Nat) :
    o.fits n = true ↔ (o.space = .scratchBuffer → 0 < n → o.address.toNat + n ≤ Config.sbBytes) := by
  simp only [Operand.fits, Bool.or_eq_true, bne_iff_ne, beq_iff_eq, decide_eq_true_eq, Nat.pos_iff_ne_zero]
  tauto

/-- A part of an operand that fits fits. -/
theorem fits_part {o o' : Operand} {n n' : Nat} (h : o.fits n = true) (hsame : sameStore o'.space o.space = true)
    (hlow : o.address.toNat ≤ o'.address.toNat) (hhigh : o'.address.toNat + n' ≤ o.address.toNat + n) :
    o'.fits n' = true := by
  rw [fits_iff] at h ⊢
  intro hspace hpos
  rw [hspace, sameStore_scratchBuffer_iff] at hsame
  have := h hsame (by omega)
  omega

theorem wfSha_iff (area block : Nat) (d : ShaDesc) :
    wfSha area block d = true ↔ d.shaLen.toNat % 8 = 0 ∧ d.length.toNat ≤ d.shaLen.toNat / 8 ∧
      (d.shaLen.toNat / 8 - d.length.toNat) % block = 0 ∧ (d.flags.eom = true ∨ d.length.toNat % block = 0) ∧
      contextFits d.contextId area = true ∧ d.source.fits d.length.toNat = true := by
  simp only [wfSha, Bool.and_eq_true, Bool.or_eq_true, beq_iff_eq, decide_eq_true_eq, and_assoc]

/-- A descriptor over a part of another's message, after `before` bytes of whole blocks. -/
theorem wfSha_of_part {area block before : Nat} {e d : ShaDesc} (hwf : wfSha area block d = true)
    (hspace : sameStore e.source.space d.source.space = true)
    (haddress : e.source.address.toNat = d.source.address.toNat + before)
    (hlength : before + e.length.toNat ≤ d.length.toNat) (hshaLen : e.shaLen.toNat = 8 * (before + e.length.toNat))
    (hbefore : before % block = 0) (hend : e.flags.eom = true ∨ e.length.toNat % block = 0)
    (hcontext : e.contextId = d.contextId) : wfSha area block e = true := by
  obtain ⟨-, -, -, -, hfitsContext, hfitsSource⟩ := (wfSha_iff ..).mp hwf
  have hbytes : e.shaLen.toNat / 8 = before + e.length.toNat := by omega
  refine (wfSha_iff ..).mpr ⟨by omega, by omega, ?_, hend, hcontext ▸ hfitsContext,
    fits_part hfitsSource hspace (by omega) (by omega)⟩
  rw [hbytes, Nat.add_sub_cancel, hbefore]

/-- Two descriptors over the two parts of the message of a third, with one context area; the second part ends the message. -/
structure SplitsMessage (d₁ d₂ d : ShaDesc) : Prop where
  space₁ : sameStore d₁.source.space d.source.space = true
  space₂ : sameStore d₂.source.space d.source.space = true
  address₁ : d₁.source.address = d.source.address
  address₂ : d₂.source.address.toNat = d.source.address.toNat + d₁.length.toNat
  length : d.length.toNat = d₁.length.toNat + d₂.length.toNat
  shaLen₁ : d₁.shaLen.toNat = 8 * d₁.length.toNat
  shaLen₂ : d₂.shaLen.toNat = 8 * (d₁.length.toNat + d₂.length.toNat)
  shaLen : d.shaLen.toNat = 8 * (d₁.length.toNat + d₂.length.toNat)
  eom₁ : d₁.flags.eom = false
  eom₂ : d₂.flags.eom = true
  eom : d.flags.eom = true
  context₁ : d₁.contextId = d.contextId
  context₂ : d₂.contextId = d.contextId

namespace SplitsMessage

variable {d₁ d₂ d : ShaDesc} (h : SplitsMessage d₁ d₂ d) {alg : ShaAlg} {s : State}

include h

theorem shaInput_eq (s : State) : shaInput d s = shaInput d₁ s ++ shaInput d₂ s := by
  simp only [shaInput, h.length, readBytes_append, readBytes_of_sameStore s h.space₁, readBytes_of_sameStore s h.space₂,
    h.address₁, h.address₂]

theorem wfSha_first {area block : Nat} (hwf : wfSha area block d = true) (hwhole : d₁.length.toNat % block = 0) :
    wfSha area block d₁ = true :=
  wfSha_of_part hwf h.space₁ (congrArg BitVec.toNat h.address₁) (by have := h.length; omega) (by rw [h.shaLen₁, Nat.zero_add])
    (Nat.zero_mod _) (.inr hwhole) h.context₁

theorem wfSha_second {area block : Nat} (hwf : wfSha area block d = true) (hwhole : d₁.length.toNat % block = 0) :
    wfSha area block d₂ = true :=
  wfSha_of_part hwf h.space₂ h.address₂ h.length.ge h.shaLen₂ hwhole (.inl h.eom₂) h.context₂

/-- The first operation leaves the second part of the message alone. -/
theorem shaInput_second (hs : StoresWf s)
    (hapart : Apart d.source.space d.source.address.toNat d.length.toNat .scratchBuffer (contextOffset d.contextId)
      (shaAreaBytes alg)) : shaInput d₂ (afterSha alg d₁ s) = shaInput d₂ s := by
  have harea : (areaBytes alg (shaWritten alg d₁ s)).length = shaAreaBytes alg := by
    rw [areaBytes_shaWritten_length, h.eom₁]; rfl
  rw [shaInput, readBytes_of_sameStore _ h.space₂, afterSha, readBytes_retire, shaInput, readBytes_of_sameStore _ h.space₂]
  refine Apart.readBytes_writeBytes hs (hapart.symm.imp id ?_)
  rw [harea, h.context₁, h.address₂, h.length]
  omega

/-- The second operation ends with the words that one operation over the whole message ends with (R240). -/
theorem shaWritten_eq (hs : StoresWf s) (hwhole : d₁.length.toNat % shaBlockBytes alg = 0)
    (hapart : Apart d.source.space d.source.address.toNat d.length.toNat .scratchBuffer (contextOffset d.contextId)
      (shaAreaBytes alg)) : shaWritten alg d₂ (afterSha alg d₁ s) = shaWritten alg d s := by
  have hblocks : (shaInput d₁ s).length % shaBlockBytes alg = 0 := by rw [shaInput, readBytes_length, hwhole]
  have hstate : contextWords alg (afterSha alg d₁ s) d.contextId =
      shaAbsorb alg (contextWords alg s d.contextId) (shaInput d₁ s) := h.context₁ ▸ contextWords_afterSha hs alg h.eom₁
  have hpad : shaPad alg (shaInput d s) d.shaLen.toNat = shaInput d₁ s ++ shaPad alg (shaInput d₂ s) d₂.shaLen.toNat := by
    rw [h.shaInput_eq, shaPad_append alg _ _ hblocks, h.shaLen, h.shaLen₂]
  simp only [shaWritten, shaResult, h.eom, h.eom₂, if_true]
  rw [h.context₂, hstate, h.shaInput_second hs hapart, hpad, shaAbsorb_append alg _ _ _ hblocks]

end SplitsMessage

/-- Settles O46: the padding and the absorbing both split at whole blocks. -/
theorem shaChaining : Obligations.ShaChaining := by
  intro d₁ d₂ d s n₁ n₂ hs hspace₁ hspace₂ haddress₁ haddress₂ hlength₁ hlength₂ hlength hshaLen₁ hshaLen₂ hshaLen heom₁
    heom₂ heom hcontext₁ hcontext₂ x hx ctx hwhole hwf hapart
  obtain ⟨alg, rfl⟩ := exists_eq_of_mem_shaTable shaInstr hx
  subst hlength₁ hlength₂
  have h : SplitsMessage d₁ d₂ d := ⟨hspace₁, hspace₂, haddress₁, haddress₂, hlength, hshaLen₁, hshaLen₂, hshaLen, heom₁,
    heom₂, heom, hcontext₁, hcontext₂⟩
  rw [← hlength] at hapart
  have hwf' := shaInstr_wf alg d _ ▸ hwf
  refine ⟨afterSha alg d₁ s, afterSha alg d₂ (afterSha alg d₁ s), afterSha alg d s,
    exec_shaInstr ((shaInstr_wf ..).trans (h.wfSha_first hwf' hwhole)),
    exec_shaInstr ((shaInstr_wf ..).trans (h.wfSha_second hwf' hwhole)), exec_shaInstr hwf, ?_⟩
  have htwo := readBytes_afterSha_context (afterSha_storesWf hs alg d₁) alg d₂
  have hone := readBytes_afterSha_context hs alg d
  rw [heom₂, hcontext₂] at htwo
  rw [heom] at hone
  exact htwo.trans ((congrArg _ (h.shaWritten_eq hs hwhole hapart)).trans hone.symm)

end Sys2Proof.Machine

/-! The operand checks of RSA, Passthrough and ZLIB, in order. -/

namespace Sys2Proof.Machine

theorem validateRsa_eq (size : BitVec 12) (d : GenDesc) :
    validateRsa size d =
      if d.length.toNat ≠ 2 * size.toNat then some .rsaBadLength
      else if pastSb d.source (2 * size.toNat) ∨ pastSb d.key size.toNat ∨ pastSb d.dest size.toNat then
        some .sbOperandRange
      else none := by
  simp only [validateRsa, firstCause_cons, firstCause_nil, bne_iff_ne, overrunsSb_iff, ite_or]

theorem validatePt_eq (swap : Bool) (d : GenDesc) :
    validatePt swap d =
      if d.flags.eom = false then some .ptNoEom
      else if swap = true ∧ d.length.toNat % 32 ≠ 0 then some .ptBadLength
      else if pastSb d.source d.length.toNat ∨ pastSb d.dest d.length.toNat then some .sbOperandRange
      else none := by
  simp only [validatePt, firstCause_cons, firstCause_nil, Bool.and_eq_true, Bool.not_eq_true', bne_iff_ne, overrunsSb_iff,
    ite_or]

theorem validateZlib_eq (d : GenDesc) :
    validateZlib d =
      if ¬ (d.flags.soc = true ∧ d.flags.init = true ∧ d.flags.eom = true ∧ d.flags.ioc = false) then some .zlibBadFlags
      else if pastSb d.source d.length.toNat then some .sbOperandRange
      else none := by
  simp only [validateZlib, firstCause_cons, firstCause_nil, Bool.not_eq_true', Bool.and_eq_true, ← Bool.not_eq_true,
    and_assoc, overrunsSb_iff]

/-- Settles O6: the readings of `function` are the decoder's own branches; PT.COPY is the Passthrough check without the length
of whole chunks. -/
theorem otherChecksInOrder : Obligations.OtherChecksInOrder := by
  refine ⟨fun _ => validateRsa_eq, fun fn d => ⟨rfl, rfl, rfl⟩, fun p d => ⟨?copy, ?swap, validateZlib_eq d⟩⟩
  case copy =>
    have hcopy := validatePt_eq false d
    simp only [Bool.false_eq_true, false_and, if_false] at hcopy
    exact hcopy
  case swap =>
    have hswap := validatePt_eq true d
    simp only [true_and] at hswap
    exact hswap

end Sys2Proof.Machine

/-! RSA: modular exponentiation by square and multiply, what the operation stores or reports, and a pair of exponents. -/

namespace Sys2Proof.Machine

/-! ## Modular exponentiation -/

/-- Square and multiply: with enough fuel for the bits of the exponent, the accumulator times the power. -/
theorem modExpLoop_eq (m : Nat) {fuel : Nat} (b : Nat) {e : Nat} (acc : Nat) (he : e < 2 ^ fuel) :
    modExpLoop m fuel b e (acc % m) = acc * b ^ e % m := by
  induction fuel generalizing b e acc with
  | zero =>
    obtain rfl : e = 0 := by simpa using he
    simp [modExpLoop]
  | succ fuel ih =>
    have hhalf : e / 2 < 2 ^ fuel := by omega
    have hsquare (a : Nat) : a * (b * b % m) ^ (e / 2) ≡ a * b ^ (2 * (e / 2)) [MOD m] := by
      rw [pow_mul, pow_two]
      exact ((Nat.mod_modEq _ m).pow _).mul_left a
    rw [modExpLoop]
    split
    case isTrue hzero => rw [hzero, pow_zero, mul_one]
    case isFalse =>
      split
      case isTrue hodd =>
        rw [Nat.mod_mul_mod, ih _ _ hhalf, hsquare, mul_assoc, ← pow_succ', show 2 * (e / 2) + 1 = e by omega]
      case isFalse heven =>
        rw [ih _ _ hhalf, hsquare, show 2 * (e / 2) = e by omega]

theorem modExp_eq (b e m : Nat) : modExp b e m = b ^ e % m := by
  rw [modExp, modExpLoop_eq m _ 1 Nat.lt_log2_self, one_mul, ← Nat.pow_mod]

/-! ## The operation -/

/-- Settles O47: the stored bytes are those `rsaHandler_ok` names; the power is below the modulus, so `size` bytes hold it. -/
theorem rsaCompletes : Obligations.RsaCompletes := by
  intro size d s hs hwf k n b e hn
  have hlt : b ^ e % n < 256 ^ k := by
    calc b ^ e % n < n := Nat.mod_lt _ (Nat.pos_of_ne_zero hn)
      _ < 256 ^ k := by simpa using leNat_lt (readBytes s d.source.space d.source.address.toNat k)
  refine ⟨_, toLe (modExp b e n) k, runDescriptor_ok ((validateRsa_eq_none ..).mpr hwf) (rsaHandler_ok size d s hwf hn),
    (State.retire_retired _ _ _).of_writeBytes, toLe_length .., ?value, fun sp x => ?frame⟩
  case value => rw [leNat_toLe, modExp_eq, Nat.mod_eq_of_lt hlt]
  case frame => rw [readByte_retire]; exact readByte_writeBytes hs ..

theorem runDescriptor_handlerViolation {f : Flags} {check : Option Cause} {handler : State → Except Stop State} {s : State}
    {c : Cause} (hc : check = none) (hv : handler s = .error (.violation c)) :
    runDescriptor f check handler s = .next (s.violate f c) := by
  simp [runDescriptor, hc, hv]

/-- A violation has the outcome its policy gives (spec/60_exceptions.md R283). -/
theorem State.violate_violationOutcome (s : State) (f : Flags) (c : Cause) : ViolationOutcome s (s.violate f c) f c := by
  refine ⟨s.violate_fatal f c, fun hpolicy => ?_⟩
  rw [s.violate_errorInterrupt f c hpolicy]
  exact ⟨s.retire_retired f .fail, s.retire_mem f .fail, s.retire_sb f .fail⟩

/-- Settles O48: the handler finds the zero modulus before its write. -/
theorem rsaZeroModulus : Obligations.RsaZeroModulus := fun size d s hwf hn =>
  ⟨_, runDescriptor_handlerViolation ((validateRsa_eq_none ..).mpr hwf) (rsaHandler_zero size d s hwf hn),
    s.violate_violationOutcome d.flags _⟩

/-! ## An RSA pair of exponents -/

/-- Fermat's little theorem for a positive exponent, which needs no coprimality. -/
theorem pow_modEq_self {p k : Nat} (hp : p.Prime) (hk : 0 < k) (h : k ≡ 1 [MOD p - 1]) (m : Nat) : m ^ k ≡ m [MOD p] := by
  have hint := Int.ModEq.pow_eq_pow hp ((Nat.modEq_iff_dvd' hk).mp h.symm) hk one_pos m
  exact_mod_cast pow_one (m : ℤ) ▸ hint

/-- 0 is 1 only modulo 1, and `(p - 1) * (q - 1)` is 1 only for `p = q = 2`. -/
theorem pos_of_modEq_one_of_primes {p q k : Nat} (hp : p.Prime) (hq : q.Prime) (hne : p ≠ q)
    (h : k ≡ 1 [MOD (p - 1) * (q - 1)]) : 0 < k := by
  refine Nat.pos_of_ne_zero fun hzero => hne ?_
  rw [hzero] at h
  have hone : (p - 1) * (q - 1) = 1 := Nat.dvd_one.mp (Nat.modEq_zero_iff_dvd.mp h.symm)
  have hp2 := hp.two_le
  have hq2 := hq.two_le
  have := Nat.eq_one_of_mul_eq_one_right hone
  have := Nat.eq_one_of_mul_eq_one_left hone
  omega

/-- Settles O49: the two powers are one power with the exponent `e * d`, which gives `m` back modulo each prime. -/
theorem rsaExponentsUndoEachOther : Obligations.RsaExponentsUndoEachOther := by
  intro p q e d m hp hq hne hed hm
  have hpair : e * d ≡ 1 [MOD (p - 1) * (q - 1)] := hed
  have hpos := pos_of_modEq_one_of_primes hp hq hne hpair
  have hback : m ^ (e * d) ≡ m [MOD p * q] :=
    (Nat.modEq_and_modEq_iff_modEq_mul ((Nat.coprime_primes hp hq).mpr hne)).mp
      ⟨pow_modEq_self hp hpos (hpair.of_mul_right _) m, pow_modEq_self hq hpos (hpair.of_mul_left _) m⟩
  calc modExp (modExp m e (p * q)) d (p * q) = m ^ (e * d) % (p * q) := by
        rw [modExp_eq, modExp_eq, ← Nat.pow_mod, ← pow_mul]
    _ = m % (p * q) := hback
    _ = m := Nat.mod_eq_of_lt hm

end Sys2Proof.Machine

/-! Passthrough: one store of the transformed source; the byteswap reverses each chunk, so two of them restore the bytes. -/

namespace Sys2Proof.Machine

/-! ## One operation -/

/-- The state after a Passthrough operation with transformation `f` stored its output, and retired (R263 to R265). -/
def afterPt (f : List Byte → List Byte) (d : GenDesc) (s : State) : State :=
  (writeBytes s d.dest.space d.dest.address.toNat (f (sourceBytes d s))).retire d.flags .ok

theorem afterPt_retired (f : List Byte → List Byte) (d : GenDesc) (s : State) : Retired s (afterPt f d s) d.flags .ok :=
  (State.retire_retired _ _ _).of_writeBytes

theorem readByte_afterPt {s : State} (hs : StoresWf s) (f : List Byte → List Byte) (d : GenDesc) (sp : MemSpace) (a : Nat) :
    readByte (afterPt f d s) sp a =
      afterStore d.dest.space d.dest.address.toNat (f (sourceBytes d s)) (readByte s) sp a := by
  rw [afterPt, readByte_retire, readByte_writeBytes hs]

theorem afterPt_storesWf {s : State} (hs : StoresWf s) (f : List Byte → List Byte) (d : GenDesc) :
    StoresWf (afterPt f d s) := (hs.writeBytes ..).retire ..

/-- The output read back from the destination, wherever the source lies. -/
theorem readBytes_afterPt_dest {s : State} (hs : StoresWf s) {f : List Byte → List Byte} {d : GenDesc}
    (hlen : (f (sourceBytes d s)).length = d.length.toNat) :
    readBytes (afterPt f d s) d.dest.space d.dest.address.toNat d.length.toNat = f (sourceBytes d s) := by
  rw [afterPt, readBytes_retire, ← hlen]
  exact readBytes_writeBytes_same hs _ _ _ _ (sameStore_refl _)

theorem wfPt_length_mod {d : GenDesc} (h : wfPt true d = true) : d.length.toNat % 32 = 0 := by
  simp only [wfPt, Bool.and_eq_true, Bool.or_eq_true, Bool.not_true, Bool.false_eq_true, false_or, beq_iff_eq] at h
  obtain ⟨⟨⟨-, hwhole⟩, -⟩, -⟩ := h
  exact hwhole

theorem exec_ptCopy {d : GenDesc} {s : State} (h : (Instr.ptCopy d).wf s.params = true) :
    exec (.ptCopy d) s = .next (afterPt id d s) :=
  runDescriptor_ok ((validatePt_eq_none false d).mpr h) (ptHandler_ok false id d s h fun _ hx => hx)

theorem exec_ptSwap256 {d : GenDesc} {s : State} (h : (Instr.ptSwap256 d).wf s.params = true) :
    exec (.ptSwap256 d) s = .next (afterPt swapChunks d s) :=
  runDescriptor_ok ((validatePt_eq_none true d).mpr h) (ptHandler_ok true swapChunks d s h fun x hx =>
    (swapChunks_length x (hx ▸ wfPt_length_mod h)).trans hx)

/-! ## Bytes read, by index -/

theorem readBytes_eq_map_range (s : State) (sp : MemSpace) (a n : Nat) :
    readBytes s sp a n = (List.range n).map fun i => readByte s sp (a + i) := by
  induction n generalizing a with
  | zero => cases sp <;> rfl
  | succ n ih =>
    rw [readBytes_succ, ih, List.range_succ_eq_map, List.map_cons, List.map_map, Nat.add_zero]
    exact congrArg _ (List.map_congr_left fun i _ => congrArg (readByte s sp) (by omega))

theorem reverse_readBytes (s : State) (sp : MemSpace) (a n : Nat) :
    (readBytes s sp a n).reverse = (List.range n).map fun i => readByte s sp (a + (n - 1 - i)) := by
  rw [readBytes_eq_map_range]
  exact List.ext_getElem (by simp) fun i _ _ => by simp

/-- Settles O50: the source is read whole before the one store. -/
theorem ptCopyCompletes : Obligations.PtCopyCompletes := by
  intro d s hs hwf out
  have hout : id (sourceBytes d s) = out := readBytes_eq_map_range ..
  exact ⟨_, exec_ptCopy hwf, afterPt_retired .., hout ▸ readByte_afterPt hs id d⟩

/-! ## The byteswap -/

theorem swapChunks_nil : swapChunks [] = [] := List.length_eq_zero_iff.mp (swapChunks_length [] rfl)

theorem swapChunks_chunk {x : List Byte} (h : x.length = 32) : swapChunks x = x.reverse := by
  have hone : blocks 32 [x].flatten = [x] := blocks_flatten_of_forall (by decide) (by simpa using h)
  rw [List.flatten_singleton] at hone
  rw [swapChunks, hone, List.map_singleton, List.flatten_singleton]

theorem swapChunks_append {x : List Byte} (y : List Byte) (h : x.length % 32 = 0) :
    swapChunks (x ++ y) = swapChunks x ++ swapChunks y := by
  rw [swapChunks, blocks_append 32 x y h (by decide), List.map_append, List.flatten_append, swapChunks, swapChunks]

/-- Byte `k` of chunk `j` of the swapped bytes, chunk by chunk (R264). -/
theorem swapChunks_readBytes (s : State) (sp : MemSpace) (a n : Nat) :
    swapChunks (readBytes s sp a (32 * n)) =
      (List.range (32 * n)).map fun i => readByte s sp (a + (32 * (i / 32) + (31 - i % 32))) := by
  induction n with
  | zero => rw [Nat.mul_zero, readBytes_eq_map_range, List.range_zero, List.map_nil, List.map_nil, swapChunks_nil]
  | succ n ih =>
    have hchunk : swapChunks (readBytes s sp (a + 32 * n) 32) =
        (List.range 32).map fun i => readByte s sp (a + 32 * n + (31 - i)) :=
      (swapChunks_chunk (readBytes_length ..)).trans (reverse_readBytes ..)
    rw [Nat.mul_succ, readBytes_append, swapChunks_append _ (by simp), ih, hchunk, List.range_add, List.map_append,
      List.map_map]
    refine congrArg _ (List.map_congr_left fun i hi => ?_)
    have hlt : i < 32 := List.mem_range.mp hi
    rw [Function.comp]
    congr 1
    omega

/-- Settles O51: the one store, of the bytes that `swapChunks_readBytes` names. -/
theorem ptSwap256Completes : Obligations.PtSwap256Completes := by
  intro d s hs hwf out
  have hwhole : 32 * (d.length.toNat / 32) = d.length.toNat :=
    Nat.mul_div_cancel' (Nat.dvd_of_mod_eq_zero (wfPt_length_mod hwf))
  have hout : swapChunks (sourceBytes d s) = out := by
    have hswap := swapChunks_readBytes s d.source.space d.source.address.toNat (d.length.toNat / 32)
    rwa [hwhole] at hswap
  exact ⟨_, exec_ptSwap256 hwf, afterPt_retired .., hout ▸ readByte_afterPt hs swapChunks d⟩

/-! ## Two byteswaps -/

/-- The chunks of the swapped bytes are the reversed chunks, and a chunk reversed twice is itself (R266). -/
theorem swapChunks_swapChunks {x : List Byte} (h : x.length % 32 = 0) : swapChunks (swapChunks x) = x := by
  have hlen : ∀ b ∈ (blocks 32 x).map List.reverse, b.length = 32 := by
    intro b hb
    obtain ⟨c, hc, rfl⟩ := List.mem_map.mp hb
    rw [List.length_reverse, blocks_mem_length 32 x c hc]
  calc swapChunks (swapChunks x)
      = (((blocks 32 x).map List.reverse).map List.reverse).flatten := by
        rw [swapChunks, swapChunks, blocks_flatten_of_forall (by decide) hlen]
    _ = (blocks 32 x).flatten := by rw [List.map_map, List.reverse_involutive.comp_self, List.map_id]
    _ = x := blocks_flatten 32 x h

/-- Settles O52: the second operation reads what the first stored, so it stores the bytes swapped twice. -/
theorem swapTwiceRestores : Obligations.SwapTwiceRestores := by
  intro d e s hs hwfd hwfe hlength hsource
  have hlen : (sourceBytes d s).length = d.length.toNat := readBytes_length ..
  have hwhole : (sourceBytes d s).length % 32 = 0 := hlen ▸ wfPt_length_mod hwfd
  have hread : sourceBytes e (afterPt swapChunks d s) = swapChunks (sourceBytes d s) := by
    rw [sourceBytes, hsource, hlength]
    exact readBytes_afterPt_dest hs ((swapChunks_length _ hwhole).trans hlen)
  have hback : swapChunks (sourceBytes e (afterPt swapChunks d s)) = sourceBytes d s := by
    rw [hread, swapChunks_swapChunks hwhole]
  have hdest := readBytes_afterPt_dest (f := swapChunks) (d := e) (afterPt_storesWf hs swapChunks d)
    (by rw [hback, hlen, hlength])
  rw [hback, hlength] at hdest
  exact ⟨_, _, exec_ptSwap256 hwfd, exec_ptSwap256 (by rwa [(afterPt_retired swapChunks d s).params]), hdest⟩

end Sys2Proof.Machine

/-! The decoder of compressed streams: what it reads from the bits of bytes, and that bits after the end of what it reads change
nothing. -/

namespace Sys2Proof.Machine

/-! ## Bits of bytes -/

@[simp] theorem bitsOfBytes_length (xs : List Byte) : (bitsOfBytes xs).length = 8 * xs.length := by
  induction xs with
  | nil => rfl
  | cons x xs ih => simp only [bitsOfBytes, List.length_cons, ih]; omega

theorem bitsOfBytes_append (xs ys : List Byte) : bitsOfBytes (xs ++ ys) = bitsOfBytes xs ++ bitsOfBytes ys := by
  induction xs with
  | nil => rfl
  | cons x xs ih => simp only [List.cons_append, bitsOfBytes, ih]

theorem takeBits_eight (b : Byte) (xs : List Byte) :
    takeBits 8 (bitsOfBytes (b :: xs)) = some (b.toNat, bitsOfBytes xs) := by
  have hlt := b.isLt
  simp only [bitsOfBytes, takeBits, toNat_getLsbD, Option.some.injEq, Prod.mk.injEq, and_true]
  omega

theorem takeBits_add {m n : Nat} {bs bs₁ bs₂ : List Bool} {v w : Nat} (hm : takeBits m bs = some (v, bs₁))
    (hn : takeBits n bs₁ = some (w, bs₂)) : takeBits (m + n) bs = some (v + 2 ^ m * w, bs₂) := by
  fun_induction takeBits m bs generalizing v with
  | case1 => cases hm; simpa using hn
  | case2 => cases hm
  | case3 => cases hm
  | case4 m b bs u rest hu ih =>
    cases hm
    rw [Nat.succ_add, takeBits, ih hu]
    simp only [Option.some.injEq, Prod.mk.injEq, and_true]
    rw [Nat.pow_succ]; ring

/-- Whole bytes are read as their little-endian integer. -/
theorem takeBits_bytes (xs ys : List Byte) :
    takeBits (8 * xs.length) (bitsOfBytes (xs ++ ys)) = some (leNat xs, bitsOfBytes ys) := by
  induction xs with
  | nil => rfl
  | cons x xs ih =>
    rw [List.length_cons, Nat.mul_succ, Nat.add_comm, List.cons_append, takeBits_add (takeBits_eight ..) ih]; rfl

theorem readStored_bytes (data rest out : List Byte) :
    readStored data.length (bitsOfBytes (data ++ rest)) out = some (bitsOfBytes rest, data.reverse ++ out) := by
  induction data generalizing out with
  | nil => rfl
  | cons x data ih =>
    rw [List.length_cons, List.cons_append, readStored, takeBits_eight]
    simp [ih]

/-! ## Bits added at the end

Each function of the decoder as a chain of reads (an equation by cases along its own branches); then a read that succeeds
gives the same value with bits `zs` added, which it leaves. Only a stored block looks at how many bits are left, and only
modulo 8. -/

section
variable {bs rest zs : List Bool}

theorem takeBits_append {n v : Nat} (h : takeBits n bs = some (v, rest)) :
    takeBits n (bs ++ zs) = some (v, rest ++ zs) := by
  fun_induction takeBits n bs generalizing v with
  | case1 bs => cases h; rfl
  | case2 => cases h
  | case3 => cases h
  | case4 n b bs u rest hu ih =>
    cases h
    rw [List.cons_append, takeBits, ih hu]

theorem readSymbol_append {c : HuffmanCode} {code first sym : Nat} (h : readSymbol c code first bs = some (sym, rest)) :
    readSymbol c code first (bs ++ zs) = some (sym, rest ++ zs) := by
  fun_induction readSymbol c code first bs with
  | case1 => cases h
  | case2 => cases h
  | case3 syms longer code first b bs c f hlt =>
    cases h
    rw [List.cons_append, readSymbol]
    exact if_pos hlt
  | case4 syms longer code first b bs c f hlt ih =>
    rw [List.cons_append, readSymbol]
    exact (if_neg hlt).trans (ih h)

theorem nextSymbol_append {c : HuffmanCode} {sym : Nat} (h : nextSymbol c bs = some (sym, rest)) :
    nextSymbol c (bs ++ zs) = some (sym, rest ++ zs) := readSymbol_append h

theorem readExtra_eq (table : List (Nat × Nat)) (i : Nat) (bs : List Bool) :
    readExtra table i bs =
      table[i]?.bind fun (base, extra) => (takeBits extra bs).bind fun (v, rest) => some (base + v, rest) := by
  fun_cases readExtra table i bs <;> grind

theorem readExtra_append {table : List (Nat × Nat)} {i v : Nat} (h : readExtra table i bs = some (v, rest)) :
    readExtra table i (bs ++ zs) = some (v, rest ++ zs) := by
  simp only [readExtra_eq, Option.bind_eq_some_iff, Prod.exists] at h ⊢
  obtain ⟨base, extra, hentry, u, bs₁, hu, h⟩ := h
  cases h
  exact ⟨base, extra, hentry, u, _, takeBits_append hu, rfl⟩

theorem readStored_append {n : Nat} {out out' : List Byte} (h : readStored n bs out = some (rest, out')) :
    readStored n (bs ++ zs) out = some (rest ++ zs, out') := by
  fun_induction readStored n bs out with
  | case1 => cases h; rfl
  | case2 => cases h
  | case3 out n bs v bs₁ hv ih =>
    rw [readStored, takeBits_append hv]
    exact ih h

theorem readCodeLengthCode_append {n : Nat} {order acc cl : List Nat}
    (h : readCodeLengthCode n order bs acc = some (cl, rest)) :
    readCodeLengthCode n order (bs ++ zs) acc = some (cl, rest ++ zs) := by
  fun_induction readCodeLengthCode n order bs acc with
  | case1 => cases h; rfl
  | case2 => cases h
  | case3 => cases h
  | case4 n sym order bs acc v bs₁ hv ih =>
    rw [readCodeLengthCode, takeBits_append hv]
    exact ih h

/-- The repetition of `value` in the code lengths of a dynamic block: the extra bits are read, and `next` reads on. -/
def repeatLength (next : List Bool → List Nat → Option (List Nat × List Bool)) (total : Nat) (rev : List Nat)
    (value bits base : Nat) (bs : List Bool) : Option (List Nat × List Bool) :=
  (takeBits bits bs).bind fun (v, bs₁) =>
  if rev.length + base + v ≤ total then next bs₁ (List.replicate (base + v) value ++ rev) else none

theorem readCodeLengths_succ (code : HuffmanCode) (total fuel : Nat) (bs : List Bool) (rev : List Nat) :
    readCodeLengths code total (fuel + 1) bs rev =
      if rev.length = total then some (rev.reverse, bs)
      else
        (nextSymbol code bs).bind fun (sym, bs₁) =>
        if sym < 16 then readCodeLengths code total fuel bs₁ (sym :: rev)
        else if sym = 16 then rev.head?.bind fun l => repeatLength (readCodeLengths code total fuel) total rev l 2 3 bs₁
        else if sym = 17 then repeatLength (readCodeLengths code total fuel) total rev 0 3 3 bs₁
        else repeatLength (readCodeLengths code total fuel) total rev 0 7 11 bs₁ := by
  rw [readCodeLengths]
  unfold repeatLength
  grind

theorem repeatLength_append {next : List Bool → List Nat → Option (List Nat × List Bool)} {total value bits base : Nat}
    {rev lengths : List Nat}
    (hnext : ∀ {bs rev}, next bs rev = some (lengths, rest) → next (bs ++ zs) rev = some (lengths, rest ++ zs))
    (h : repeatLength next total rev value bits base bs = some (lengths, rest)) :
    repeatLength next total rev value bits base (bs ++ zs) = some (lengths, rest ++ zs) := by
  simp only [repeatLength, Option.bind_eq_some_iff, Prod.exists, Option.ite_none_right_eq_some] at h ⊢
  obtain ⟨v, bs₁, hv, hfits, h⟩ := h
  exact ⟨v, _, takeBits_append hv, hfits, hnext h⟩

theorem readCodeLengths_append {code : HuffmanCode} {total fuel : Nat} {rev lengths : List Nat}
    (h : readCodeLengths code total fuel bs rev = some (lengths, rest)) :
    readCodeLengths code total fuel (bs ++ zs) rev = some (lengths, rest ++ zs) := by
  induction fuel generalizing bs rev with
  | zero =>
    rw [readCodeLengths] at h ⊢
    split_ifs at h ⊢
    cases h; rfl
  | succ fuel ih =>
    rw [readCodeLengths_succ] at h ⊢
    split_ifs at h ⊢
    case pos => cases h; rfl
    case neg =>
      simp only [Option.bind_eq_some_iff, Prod.exists] at h ⊢
      obtain ⟨sym, bs₁, hsym, h⟩ := h
      refine ⟨sym, _, nextSymbol_append hsym, ?_⟩
      split_ifs at h ⊢
      · exact ih h
      · obtain ⟨l, hl, h⟩ := Option.bind_eq_some_iff.mp h
        exact Option.bind_eq_some_iff.mpr ⟨l, hl, repeatLength_append ih h⟩
      · exact repeatLength_append ih h
      · exact repeatLength_append ih h

/-- One symbol of a compressed block. (The two tables are generalized because `rfl` would run into their entries.) -/
theorem inflateSymbols_succ (lits dists : HuffmanCode) (fuel : Nat) (bs : List Bool) (out : List Byte) :
    inflateSymbols lits dists (fuel + 1) bs out =
      match nextSymbol lits bs with
      | none => none
      | some (sym, bs₁) =>
        if sym < 256 then inflateSymbols lits dists fuel bs₁ (BitVec.ofNat 8 sym :: out)
        else if sym = 256 then some (bs₁, out)
        else
          match readExtra lengthTable (sym - 257) bs₁ with
          | none => none
          | some (len, bs₂) =>
            match nextSymbol dists bs₂ with
            | none => none
            | some (dsym, bs₃) =>
              match readExtra distanceTable dsym bs₃ with
              | none => none
              | some (dist, bs₄) =>
                if out.length < dist then none
                else inflateSymbols lits dists fuel bs₄ (copyBack dist len out) := by
  delta inflateSymbols inflateSymbols._f
  generalize lengthTable = lengths, distanceTable = distances
  rfl

theorem inflateSymbols_eq_some_iff {lits dists : HuffmanCode} {fuel : Nat} {out : List Byte} {r : List Bool × List Byte} :
    inflateSymbols lits dists (fuel + 1) bs out = some r ↔
      ∃ sym bs₁, nextSymbol lits bs = some (sym, bs₁) ∧
        if sym < 256 then inflateSymbols lits dists fuel bs₁ (BitVec.ofNat 8 sym :: out) = some r
        else if sym = 256 then (bs₁, out) = r
        else ∃ len bs₂ dsym bs₃ dist bs₄, readExtra lengthTable (sym - 257) bs₁ = some (len, bs₂) ∧
          nextSymbol dists bs₂ = some (dsym, bs₃) ∧ readExtra distanceTable dsym bs₃ = some (dist, bs₄) ∧
          dist ≤ out.length ∧ inflateSymbols lits dists fuel bs₄ (copyBack dist len out) = some r := by
  rw [inflateSymbols_succ]
  grind

/-- More fuel changes nothing once the end of the block is read. -/
theorem inflateSymbols_append {lits dists : HuffmanCode} {fuel fuel' : Nat} {out out' : List Byte}
    (h : inflateSymbols lits dists fuel bs out = some (rest, out')) (hfuel : fuel ≤ fuel') :
    inflateSymbols lits dists fuel' (bs ++ zs) out = some (rest ++ zs, out') := by
  induction fuel generalizing fuel' bs out with
  | zero => cases h
  | succ fuel ih =>
    obtain ⟨fuel', rfl⟩ := Nat.exists_eq_add_of_le' (Nat.zero_lt_of_lt hfuel)
    have hle : fuel ≤ fuel' := Nat.le_of_succ_le_succ hfuel
    obtain ⟨sym, bs₁, hsym, h⟩ := inflateSymbols_eq_some_iff.mp h
    refine inflateSymbols_eq_some_iff.mpr ⟨sym, _, nextSymbol_append hsym, ?_⟩
    split_ifs at h ⊢
    case pos => exact ih h hle
    case pos => cases h; rfl
    case neg =>
      obtain ⟨len, bs₂, dsym, bs₃, dist, bs₄, hlen, hdsym, hdist, hback, h⟩ := h
      exact ⟨len, _, dsym, _, dist, _, readExtra_append hlen, nextSymbol_append hdsym, readExtra_append hdist, hback,
        ih h hle⟩

theorem inflateDynamic_eq (fuel : Nat) (bs : List Bool) (out : List Byte) :
    inflateDynamic fuel bs out =
      (takeBits 5 bs).bind fun (hlit, bs₁) =>
      (takeBits 5 bs₁).bind fun (hdist, bs₂) =>
      (takeBits 4 bs₂).bind fun (hclen, bs₃) =>
      if 286 < hlit + 257 then none
      else
        (readCodeLengthCode (hclen + 4) codeLengthOrder bs₃ (List.replicate 19 0)).bind fun (cl, bs₄) =>
        if !completeCode (huffmanCode cl) then none
        else
          let total := hlit + 257 + (hdist + 1)
          (readCodeLengths (huffmanCode cl) total total bs₄ []).bind fun (lengths, bs₅) =>
          let lits := huffmanCode (lengths.take (hlit + 257))
          let dists := huffmanCode (lengths.drop (hlit + 257))
          if lengths.getD 256 0 = 0 ∨ !validCode lits ∨ !validCode dists then none
          else inflateSymbols lits dists fuel bs₅ out := by
  fun_cases inflateDynamic fuel bs out <;> grind

theorem inflateDynamic_append {fuel fuel' : Nat} {out out' : List Byte}
    (h : inflateDynamic fuel bs out = some (rest, out')) (hfuel : fuel ≤ fuel') :
    inflateDynamic fuel' (bs ++ zs) out = some (rest ++ zs, out') := by
  simp only [inflateDynamic_eq, Option.bind_eq_some_iff, Prod.exists, Option.ite_none_left_eq_some] at h ⊢
  obtain ⟨hlit, bs₁, hhlit, hdist, bs₂, hhdist, hclen, bs₃, hhclen, hcount, cl, bs₄, hcl, hcomplete, lengths, bs₅,
    hlengths, hvalid, h⟩ := h
  exact ⟨hlit, _, takeBits_append hhlit, hdist, _, takeBits_append hhdist, hclen, _, takeBits_append hhclen, hcount,
    cl, _, readCodeLengthCode_append hcl, hcomplete, lengths, _, readCodeLengths_append hlengths, hvalid,
    inflateSymbols_append h hfuel⟩

theorem inflateStored_eq (bs : List Bool) (out : List Byte) :
    inflateStored bs out =
      (takeBits 16 (bs.drop (bs.length % 8))).bind fun (len, bs₁) =>
      (takeBits 16 bs₁).bind fun (nlen, bs₂) =>
      if len + nlen = 65535 then readStored len bs₂ out else none := by
  fun_cases inflateStored bs out <;> grind

/-- Whole bytes added at the end leave the bits that are skipped before the length of the block as they are. -/
theorem drop_append_of_dvd (h : 8 ∣ zs.length) :
    (bs ++ zs).drop ((bs ++ zs).length % 8) = bs.drop (bs.length % 8) ++ zs := by
  rw [List.length_append, Nat.add_mod, Nat.mod_eq_zero_of_dvd h, Nat.add_zero, Nat.mod_mod,
    List.drop_append_of_le_length (Nat.mod_le ..)]

theorem inflateStored_append {out out' : List Byte} (hz : 8 ∣ zs.length) (h : inflateStored bs out = some (rest, out')) :
    inflateStored (bs ++ zs) out = some (rest ++ zs, out') := by
  simp only [inflateStored_eq, Option.bind_eq_some_iff, Prod.exists, Option.ite_none_right_eq_some] at h ⊢
  rw [drop_append_of_dvd hz]
  obtain ⟨len, bs₁, hlen, nlen, bs₂, hnlen, hsum, h⟩ := h
  exact ⟨len, _, takeBits_append hlen, nlen, _, takeBits_append hnlen, hsum, readStored_append h⟩

/-- One block of the given type. -/
def inflateBlock (type : Nat) (bs : List Bool) (out : List Byte) : Option (List Bool × List Byte) :=
  if type = 0 then inflateStored bs out
  else if type = 1 then
    inflateSymbols (huffmanCode fixedLitLengths) (huffmanCode fixedDistLengths) (bs.length + 1) bs out
  else if type = 2 then inflateDynamic (bs.length + 1) bs out
  else none

theorem inflateBlocks_succ (fuel : Nat) (bs : List Bool) (out : List Byte) :
    inflateBlocks (fuel + 1) bs out =
      (takeBits 1 bs).bind fun (final, bs₁) =>
      (takeBits 2 bs₁).bind fun (type, bs₂) =>
      (inflateBlock type bs₂ out).bind fun (bs₃, out') =>
      if final = 1 then some (bs₃, out') else inflateBlocks fuel bs₃ out' := by
  rw [inflateBlocks]
  unfold inflateBlock
  grind

theorem inflateBlock_append {type : Nat} {out out' : List Byte} (hz : 8 ∣ zs.length)
    (h : inflateBlock type bs out = some (rest, out')) : inflateBlock type (bs ++ zs) out = some (rest ++ zs, out') := by
  have hfuel : bs.length + 1 ≤ (bs ++ zs).length + 1 := by simp
  rw [inflateBlock] at h ⊢
  split_ifs at h ⊢
  · exact inflateStored_append hz h
  · exact inflateSymbols_append h hfuel
  · exact inflateDynamic_append h hfuel

theorem inflateBlocks_append {fuel fuel' : Nat} {out out' : List Byte} (hz : 8 ∣ zs.length)
    (h : inflateBlocks fuel bs out = some (rest, out')) (hfuel : fuel ≤ fuel') :
    inflateBlocks fuel' (bs ++ zs) out = some (rest ++ zs, out') := by
  induction fuel generalizing fuel' bs out with
  | zero => cases h
  | succ fuel ih =>
    obtain ⟨fuel', rfl⟩ := Nat.exists_eq_add_of_le' (Nat.zero_lt_of_lt hfuel)
    simp only [inflateBlocks_succ, Option.bind_eq_some_iff, Prod.exists] at h ⊢
    obtain ⟨final, bs₁, hfinal, type, bs₂, htype, bs₃, out₃, hblock, h⟩ := h
    refine ⟨final, _, takeBits_append hfinal, type, _, takeBits_append htype, _, _, inflateBlock_append hz hblock, ?_⟩
    split_ifs at h ⊢
    · cases h; rfl
    · exact ih h (Nat.le_of_succ_le_succ hfuel)

end

/-! ## Streams -/

theorem inflate_eq_some_iff {xs out : List Byte} {used : Nat} :
    inflate xs = some (out, used) ↔ ∃ rest rev, inflateBlocks (8 * xs.length + 1) (bitsOfBytes xs) [] = some (rest, rev) ∧
      rev.reverse = out ∧ (8 * xs.length - rest.length + 7) / 8 = used := by
  rw [inflate, bitsOfBytes_length]
  cases inflateBlocks (8 * xs.length + 1) (bitsOfBytes xs) [] <;> simp [Prod.ext_iff]

/-- No more bytes are used than there are. -/
theorem inflate_used_le {xs out : List Byte} {used : Nat} (h : inflate xs = some (out, used)) : used ≤ xs.length := by
  obtain ⟨rest, rev, -, -, hused⟩ := inflate_eq_some_iff.mp h
  omega

theorem inflate_append {xs out : List Byte} {used : Nat} (h : inflate xs = some (out, used)) (ys : List Byte) :
    inflate (xs ++ ys) = some (out, used) := by
  obtain ⟨rest, rev, hblocks, hout, hused⟩ := inflate_eq_some_iff.mp h
  have hz : 8 ∣ (bitsOfBytes ys).length := ⟨_, bitsOfBytes_length ys⟩
  refine inflate_eq_some_iff.mpr ⟨rest ++ bitsOfBytes ys, rev, ?_, hout, ?_⟩
  · rw [bitsOfBytes_append]
    exact inflateBlocks_append hz hblocks (by rw [List.length_append]; omega)
  · rw [List.length_append, List.length_append, bitsOfBytes_length]
    omega

/-- Settles O56: a cut stream that decoded would decode alike with the bytes after the cut put back, and so use them. -/
theorem inflateStopsAtTheEndOfStream : Obligations.InflateStopsAtTheEndOfStream := by
  intro xs out used h
  refine ⟨inflate_used_le h, inflate_append h, fun n hn => Option.eq_none_iff_forall_ne_some.mpr ?_⟩
  intro (out', used') hcut
  have hwhole : inflate xs = some (out', used') := by
    rw [← List.take_append_drop n xs]
    exact inflate_append hcut _
  obtain ⟨-, rfl⟩ := Prod.mk.inj (Option.some.inj (h.symm.trans hwhole))
  have hle : used ≤ (xs.take n).length := inflate_used_le hcut
  rw [List.length_take] at hle
  omega

/-! ## A stored block -/

theorem takeBits_toLe {n : Nat} (hn : n < 65536) (xs : List Byte) :
    takeBits 16 (bitsOfBytes (toLe n 2 ++ xs)) = some (n, bitsOfBytes xs) := by
  have h := takeBits_bytes (toLe n 2) xs
  rwa [toLe_length, leNat_toLe, Nat.mod_eq_of_lt (by omega)] at h

/-- The bits `pad` up to the next byte are skipped. -/
theorem inflateStored_bytes {data : List Byte} (rest out : List Byte) (pad : List Bool) (hpad : pad.length < 8)
    (hdata : data.length < 65536) :
    inflateStored (pad ++ bitsOfBytes (toLe data.length 2 ++ toLe (65535 - data.length) 2 ++ data ++ rest)) out =
      some (bitsOfBytes rest, data.reverse ++ out) := by
  rw [inflateStored_eq, List.length_append, bitsOfBytes_length, Nat.add_mul_mod_self_left, Nat.mod_eq_of_lt hpad,
    List.drop_left, List.append_assoc, List.append_assoc, takeBits_toLe hdata]
  simp only [Option.bind_some]
  rw [takeBits_toLe (by omega)]
  simp only [Option.bind_some, Nat.add_sub_of_le (Nat.le_of_lt_succ hdata), if_true]
  exact readStored_bytes ..

/-- Settles O55: the header byte is the bits of a final block of type 0 and five that are skipped. -/
theorem inflateStoredBlock : Obligations.InflateStoredBlock := by
  intro data rest hdata
  refine inflate_eq_some_iff.mpr ⟨bitsOfBytes rest, data.reverse ++ [], ?blocks, by simp, ?used⟩
  case blocks =>
    have hblock := inflateStored_bytes rest [] (List.replicate 5 false) (by decide) hdata
    rw [inflateBlocks_succ]
    change (inflateStored _ []).bind _ = _
    exact congrArg (Option.bind · _) hblock
  case used =>
    simp only [List.length_append, List.length_singleton, toLe_length, bitsOfBytes_length]
    omega

end Sys2Proof.Machine

/-! ZLIB: one store of the decoded bytes, or an end before it. -/

namespace Sys2Proof.Machine

theorem not_fits_iff_pastSb (o : Operand) (n : Nat) : o.fits n = false ↔ pastSb o n := by
  rw [← overrunsSb_iff, overrunsSb_eq_not_fits, Bool.not_eq_true']

/-- The flags of a well-formed ZLIB (spec/46_zlib.md R271). -/
theorem wfZlib_flags {d : GenDesc} (h : wfZlib d = true) : d.flags = ⟨true, false, true, true⟩ := by
  simp only [wfZlib, Bool.and_eq_true, Bool.not_eq_true'] at h
  obtain ⟨⟨⟨⟨hsoc, hinit⟩, heom⟩, hioc⟩, -⟩ := h
  calc d.flags = ⟨d.flags.soc, d.flags.ioc, d.flags.init, d.flags.eom⟩ := rfl
    _ = ⟨true, false, true, true⟩ := by rw [hsoc, hioc, hinit, heom]

theorem runDescriptor_handlerFatal {f : Flags} {check : Option Cause} {handler : State → Except Stop State} {s : State}
    {c : Cause} (hc : check = none) (hf : handler s = .error (.fatal c)) :
    runDescriptor f check handler s = .next (s.raiseFatal c) := by
  simp [runDescriptor, hc, hf]

section
variable {d : GenDesc} {s : State} {out : List Byte} {used : Nat}

theorem zlibHandler_ok (hwf : wfZlib d = true) (hx : inflate (sourceBytes d s) = some (out, used))
    (hfits : ¬ pastSb d.dest out.length) :
    zlibHandler d s = .ok (writeBytes s d.dest.space d.dest.address.toNat out) := by
  rw [← not_fits_iff_pastSb, Bool.not_eq_false] at hfits
  rw [zlibHandler_eq d s hwf, ← sourceBytes, hx]
  exact if_pos hfits

theorem zlibHandler_dataError (hwf : wfZlib d = true) (hx : inflate (sourceBytes d s) = none) :
    zlibHandler d s = .error (.fatal .zlibDataError) := by
  rw [zlibHandler_eq d s hwf, ← sourceBytes, hx]

theorem zlibHandler_pastSb (hwf : wfZlib d = true) (hx : inflate (sourceBytes d s) = some (out, used))
    (hpast : pastSb d.dest out.length) : zlibHandler d s = .error (.violation .sbOperandRange) := by
  rw [← not_fits_iff_pastSb, ← Bool.not_eq_true] at hpast
  rw [zlibHandler_eq d s hwf, ← sourceBytes, hx]
  exact if_neg hpast

end

/-- Settles O53: the decoded bytes are the operation's one store, and its flags are those of R271. -/
theorem zlibCompletes : Obligations.ZlibCompletes := by
  intro d s out used hs hwf hx hfits
  have hwf' : wfZlib d = true := hwf
  refine ⟨_, runDescriptor_ok ((validateZlib_eq_none d).mpr hwf') (zlibHandler_ok hwf' hx hfits), ?retired,
    fun sp x => ?bytes⟩
  case retired => exact wfZlib_flags hwf' ▸ (State.retire_retired _ _ _).of_writeBytes
  case bytes => rw [readByte_retire, readByte_writeBytes hs]

/-- Settles O54: both ends are found before the operation's one store. -/
theorem zlibStops : Obligations.ZlibStops := by
  intro d s hwf
  have hcheck : validateZlib d = none := (validateZlib_eq_none d).mpr hwf
  exact ⟨fun hx => runDescriptor_handlerFatal hcheck (zlibHandler_dataError hwf hx), fun out used hx hpast =>
    ⟨_, runDescriptor_handlerViolation hcheck (zlibHandler_pastSb hwf hx hpast), s.violate_violationOutcome d.flags _⟩⟩

end Sys2Proof.Machine

/-! The interrupt line: what an event and an acknowledge do to it, and that it is the OR of the pending bits. -/

namespace Sys2Proof.Machine

/-! ## Taking an event -/

/-- The place of an event's bit (R287). -/
theorem eventBit_eq_twoPow (r : Result) : eventBit r = BitVec.twoPow 2 (if r = .ok then 0 else 1) := by cases r <;> rfl

/-- The enable bit of an event decides whether it is taken or dropped (R288). -/
theorem interruptEnable_and_eventBit_eq_zero_iff (enable : BitVec 2) (r : Result) :
    enable &&& eventBit r = 0 ↔ enable.getLsbD (if r = .ok then 0 else 1) = false := by
  cases r <;> revert enable <;> decide

/-- Settles O24: the two branches of `signal`, told apart by the event's enable bit. -/
theorem eventIsMaskedAtTheSource : Obligations.EventIsMaskedAtTheSource := by
  intro s q r b
  have hmask := interruptEnable_and_eventBit_eq_zero_iff (s.queue q).interruptEnable r
  refine ⟨fun henabled => ?taken, fun hclear => if_pos (hmask.mpr hclear)⟩
  case taken =>
    have hevent : ¬ (s.queue q).interruptEnable &&& eventBit r = 0 := by rw [hmask, henabled]; decide
    rw [State.signal, if_neg hevent, eventBit_eq_twoPow]

/-! ## Acknowledging -/

/-- An acknowledge leaves the line up exactly when it was up and some queue is still pending (R289). -/
theorem State.acknowledge_irq_iff (s : State) (q : QueueId) (v : BitVec 2) :
    (s.acknowledge q v).irq = true ↔ s.irq = true ∧ ∃ p, ((s.acknowledge q v).queue p).interruptStatus ≠ 0 := by
  rw [← anyPending_iff, State.acknowledge_eq, Bool.and_eq_true]

/-- Settles O25: the offset names the register, whose write is an acknowledge: one update of the queue and of the line. -/
theorem acknowledgeClearsWrittenOnes : Obligations.AcknowledgeClearsWrittenOnes := by
  intro s q v rest hw
  refine ⟨_, step_queueWrite hw (by decide) rfl (registerAt_interruptStatus ..) rfl, State.acknowledge_queue_same _ q _,
    fun p hp => State.acknowledge_queue_other _ q p _ hp, State.acknowledge_irq_iff _ q _, ?rest⟩
  case rest => rw [writeRegister, State.acknowledge_eq]; rfl

/-! ## The line as the OR of the pending bits -/

/-- The line is up exactly when some queue has a pending interrupt (R290). -/
def LineIsOr (s : State) : Prop := s.irq = true ↔ ∃ q, (s.queue q).interruptStatus ≠ 0

section
variable {s t : State}

/-- The line and every pending bit kept. -/
theorem LineIsOr.of_kept (h : LineIsOr s) (hirq : t.irq = s.irq)
    (hpending : ∀ p, (t.queue p).interruptStatus = (s.queue p).interruptStatus) : LineIsOr t := by
  simp only [LineIsOr, hirq, hpending]
  exact h

/-- Pending bits `b` set in one queue, and the line raised when there is one. -/
theorem LineIsOr.of_raised (h : LineIsOr s) (q : QueueId) (b : BitVec 2) (hirq : t.irq = (s.irq || decide (b ≠ 0)))
    (hq : (t.queue q).interruptStatus = (s.queue q).interruptStatus ||| b)
    (hothers : ∀ p, p ≠ q → t.queue p = s.queue p) : LineIsOr t := by
  rw [LineIsOr, hirq, Bool.or_eq_true, decide_eq_true_eq, show s.irq = true ↔ _ from h]
  constructor
  · rintro (⟨p, hp⟩ | hb)
    · by_cases hpq : p = q
      · subst hpq; exact ⟨p, fun h0 => hp (BitVec.or_eq_zero_iff.mp (hq ▸ h0)).1⟩
      · exact ⟨p, by rwa [hothers p hpq]⟩
    · exact ⟨q, fun h0 => hb (BitVec.or_eq_zero_iff.mp (hq ▸ h0)).2⟩
  · rintro ⟨p, hp⟩
    by_cases hpq : p = q
    · subst hpq
      by_cases hb : b = 0
      · exact .inl ⟨p, by simpa [hq, hb] using hp⟩
      · exact .inr hb
    · exact .inl ⟨p, by rwa [hothers p hpq] at hp⟩

/-- A descriptor that retires raises the line with the pending bit it sets, if it sets one. -/
theorem LineIsOr.retired (h : LineIsOr s) {f : Flags} {r : Result} (ht : Retired s t f r) : LineIsOr t := by
  cases hioc : f.ioc with
  | false =>
    exact h.of_raised s.active 0 (by simp [ht.irq, hioc]) (by simp [ht.interruptStatus, hioc]) ht.others
  | true =>
    exact h.of_raised s.active ((s.queue s.active).interruptEnable &&& eventBit r) (by simp [ht.irq, hioc])
      (by simp [ht.interruptStatus, hioc]) ht.others

/-- An acknowledge sets no pending bit. -/
theorem State.pending_of_pending_acknowledge {s : State} {q p : QueueId} {v : BitVec 2}
    (h : ((s.acknowledge q v).queue p).interruptStatus ≠ 0) : (s.queue p).interruptStatus ≠ 0 := by
  by_cases hpq : p = q
  · subst hpq
    rw [State.acknowledge_queue_same] at h
    exact fun h0 => h (by simp [h0])
  · rwa [State.acknowledge_queue_other _ _ _ _ hpq] at h

theorem LineIsOr.acknowledge (h : LineIsOr s) (q : QueueId) (v : BitVec 2) : LineIsOr (s.acknowledge q v) := by
  rw [LineIsOr, State.acknowledge_irq_iff, and_iff_right_iff_imp]
  rintro ⟨p, hp⟩
  exact h.mpr ⟨p, State.pending_of_pending_acknowledge hp⟩

/-- A queue record replaced by one with the same pending bits. -/
theorem LineIsOr.setQueue (h : LineIsOr s) (q : QueueId) (v : Queue)
    (hv : v.interruptStatus = (s.queue q).interruptStatus) : LineIsOr (s.setQueue q v) := by
  refine h.of_kept rfl fun p => ?_
  by_cases hpq : p = q
  · subst hpq; rwa [State.setQueue_queue_same]
  · rw [State.setQueue_queue_other _ _ _ _ hpq]

theorem LineIsOr.writeRegister (h : LineIsOr s) (v : Word) (r : RegName) : LineIsOr (writeRegister s v r) := by
  cases r with
  | queueMask | queuePriority | trng | lsbMask | status | intStatus | misc | scratch | unimplemented => exact h
  | requestId =>
    simp only [Machine.writeRegister]
    split <;> exact h
  | control q =>
    exact h.setQueue q { s.queue q with run := v.getLsbD 0, halt := v.getLsbD 1, sizeCode := v.extractLsb' 3 5 } rfl
  | tail q => exact h.setQueue q { s.queue q with tail := v } rfl
  | head q => exact h.setQueue q { s.queue q with head := v, base := v } rfl
  | interruptEnable q => exact h.setQueue q _ rfl
  | interruptStatus q => exact h.acknowledge q _

theorem LineIsOr.drainStep (h : LineIsOr s) (hd : drainStep s = .next t) : LineIsOr t := by
  rcases drainStep_next_cases hd with rfl | ⟨c, rfl⟩ | ⟨f, r, u, hu, rfl⟩
  case inl | inr.inl => exact h
  case inr.inr => exact h.retired (hu.retired (u.retire_retired f r))

theorem LineIsOr.hostStep (h : LineIsOr s) (hs : hostStep s = .next t) : LineIsOr t := by
  rcases hostStep_cases hs with ⟨-, rfl⟩ | ⟨o, rest, -, -, rfl⟩ | ⟨o, v, rest, -, -, -, rfl⟩ |
    ⟨a, n, rest, -, -, rfl⟩ | ⟨a, bs, rest, -, -, rfl⟩
  case inr.inr.inl => exact LineIsOr.writeRegister (s := { s with host := rest }) h v _
  all_goals exact h

end

/-- Settles O26: reset sets no pending bit and leaves the line down, and the parts of a step each keep `LineIsOr`. -/
theorem irqIsTheOrOfPendingBits : Obligations.IrqIsTheOrOfPendingBits := by
  refine ⟨fun p halt sb mem => ?reset, fun s t h hstep => ?step⟩
  case reset =>
    simp only [State.resetWith_queue]
    simp [State.resetWith, Queue.resetWith]
  case step =>
    obtain ⟨-, ⟨-, hd⟩ | ⟨-, hs⟩⟩ := step_cases hstep
    · exact LineIsOr.drainStep h hd
    · exact LineIsOr.hostStep h hs

end Sys2Proof.Machine

/-! Violations and fatal ends: what each leaves behind, and which causes can be recorded. -/

namespace Sys2Proof.Machine

/-! ## A dead block, and a descriptor that fails its checks -/

theorem step_of_dead {s : State} {c : Cause} (h : s.fatal = some c) : step s = .fault (.dead c) := by rw [step, h]

/-- Settles O20: `step` looks at the fault record first. -/
theorem fatalIsTerminal : Obligations.FatalIsTerminal := fun _ _ => step_of_dead

/-- Settles O18: the step is a violation of the decoder's cause, with the flags of the raw word 0. -/
theorem undecodableDescriptorOutcome : Obligations.UndecodableDescriptorOutcome :=
  fun s c hexec hdecode => ⟨_, hexec.step_eq.trans (executeNext_error hdecode),
    s.violate_violationOutcome (fieldFlags (fetchWords s (s.queue s.active))) c⟩

/-- Settles O19: every operation makes its checks before it runs its handler. -/
theorem illegalInstructionOutcome : Obligations.IllegalInstructionOutcome :=
  fun i s c hcheck => ⟨_, exec_violation i s c hcheck, s.violate_violationOutcome i.flags c⟩

/-- Settles O21: of the three ends of an iteration only the fatal one records a cause. -/
theorem fatalChangesNothingElse : Obligations.FatalChangesNothingElse := by
  intro s t hdraining hstep hdead
  obtain ⟨halive, ⟨-, hd⟩ | ⟨hidle, -⟩⟩ := step_cases hstep
  case inr => rw [hdraining] at hidle; cases hidle
  rcases drainStep_next_cases hd with rfl | ⟨c, rfl⟩ | ⟨f, r, u, hu, rfl⟩
  · exact absurd halive hdead
  · exact ⟨c, rfl⟩
  · exact absurd ((hu.retired (u.retire_retired f r)).fatal.trans halive) hdead

/-! ## How a handler ends -/

theorem handlerOf_storedBy {i : Instr} {s u : State} (h : handlerOf i s = .ok u) : StoredBy s u := by
  have htwins := (Twins.refl (s₁ := s) rfl rfl).handlerOf i
  rw [h] at htwins
  cases htwins with
  | twins hu => exact hu.stored₁

/-- The stops of a handler whose instruction is well-formed: a violation of class `V`, or a malformed ZLIB stream (R282). -/
def Stop.OfWellFormed : Stop → Prop
  | .violation c => c.isViolation = true
  | .fatal c => c = .zlibDataError

/-- The handler of a well-formed instruction makes its stores or has one of these stops: the router's own last check never fails
it (R285). -/
theorem handlerOf_ends {i : Instr} {s : State} (h : i.wf s.params = true) :
    (∃ u, handlerOf i s = .ok u) ∨ ∃ e, handlerOf i s = .error e ∧ e.OfWellFormed := by
  cases i with
  | aesEcb enc k size d => exact .inl ⟨_, aesEcbHandler_ok _ enc k size d s h⟩
  | aesCbc enc k size d => exact .inl ⟨_, aesIvHandler_ok _ _ (cbcStep_keeps16 enc) k size d s h⟩
  | aesCfb enc k size d => exact .inl ⟨_, aesIvHandler_ok _ _ (cfbStep_keeps16 enc) k size d s h⟩
  | aesOfb enc k size d => exact .inl ⟨_, aesIvHandler_ok _ _ ofbStep_keeps16 k size d s h⟩
  | sha1 d => exact .inl ⟨_, shaHandler_ok .sha1 d s h⟩
  | sha224 d => exact .inl ⟨_, shaHandler_ok .sha224 d s h⟩
  | sha256 d => exact .inl ⟨_, shaHandler_ok .sha256 d s h⟩
  | sha384 d => exact .inl ⟨_, shaHandler_ok .sha384 d s h⟩
  | sha512 d => exact .inl ⟨_, shaHandler_ok .sha512 d s h⟩
  | rsa size d =>
    by_cases hn : leNat (readBytes s d.source.space d.source.address.toNat size.toNat) = 0
    · exact .inr ⟨_, rsaHandler_zero size d s h hn, rfl⟩
    · exact .inl ⟨_, rsaHandler_ok size d s h hn⟩
  | ptCopy d => exact .inl ⟨_, ptHandler_ok false id d s h fun _ hx => hx⟩
  | ptSwap256 d =>
    exact .inl ⟨_, ptHandler_ok true swapChunks d s h fun x hx => (swapChunks_length x (hx ▸ wfPt_length_mod h)).trans hx⟩
  | zlib d =>
    cases hx : inflate (sourceBytes d s) with
    | none => exact .inr ⟨_, zlibHandler_dataError h hx, rfl⟩
    | some p =>
      by_cases hpast : pastSb d.dest p.1.length
      · exact .inr ⟨_, zlibHandler_pastSb h hx hpast, rfl⟩
      · exact .inl ⟨_, zlibHandler_ok h hx hpast⟩

theorem handlerOf_stop {i : Instr} {s : State} {e : Stop} (hwf : i.wf s.params = true) (h : handlerOf i s = .error e) :
    e.OfWellFormed := by
  rcases handlerOf_ends hwf with ⟨u, hu⟩ | ⟨e', he', hof⟩
  · rw [h] at hu; cases hu
  · rw [h] at he'; cases he'; exact hof

/-! ## Which causes can be recorded -/

/-- The causes that a step can record under `p`: four whatever the policy, and class `V` under the fatal policy (R282, R283). -/
def Recordable (p : Params) (c : Cause) : Prop :=
  (c = .ringMisaligned ∨ c = .ringIndexRange ∨ c = .reqIdNonZero ∨ c = .zlibDataError) ∨
    (c.isViolation = true ∧ p.violationPolicy = .fatal)

theorem not_recordable_sbOutOfRange (p : Params) : ¬ Recordable p .sbOutOfRange := by
  simp [Recordable, Cause.isViolation, Cause.code]

theorem checkSanity_recordable {q : Queue} {c : Cause} (h : checkSanity q = some c) (p : Params) : Recordable p c := by
  rw [checkSanity_eq] at h
  split_ifs at h <;> cases h
  · exact .inl (.inl rfl)
  · exact .inl (.inr (.inl rfl))
  · exact .inl (.inl rfl)
  · exact .inl (.inr (.inl rfl))

section
variable {s t : State} {c : Cause}

theorem State.violate_recordable {f : Flags} {c' : Cause} (halive : s.fatal = none) (hc' : c'.isViolation = true)
    (h : (s.violate f c').fatal = some c) : Recordable s.params c := by
  cases hpolicy : s.params.violationPolicy with
  | fatal => rw [s.violate_fatal f c' hpolicy] at h; cases h; exact .inr ⟨hc', hpolicy⟩
  | errorInterrupt =>
    rw [s.violate_errorInterrupt f c' hpolicy, (s.retire_retired f .fail).fatal, halive] at h
    cases h

theorem exec_recordable {i : Instr} (halive : s.fatal = none) (hexec : exec i s = .next t) (h : t.fatal = some c) :
    Recordable s.params c := by
  rw [exec_eq_runDescriptor] at hexec
  rcases runDescriptor_cases hexec with ⟨c', hcheck, rfl⟩ | ⟨c', hcheck, hstop, rfl⟩ | ⟨c', hcheck, hstop, rfl⟩ |
    ⟨u, -, hu, rfl⟩
  · exact State.violate_recordable halive (validate_isViolation hcheck) h
  · exact State.violate_recordable halive (handlerOf_stop ((validate_eq_none ..).mp hcheck) hstop) h
  · have hc' : c' = .zlibDataError := handlerOf_stop ((validate_eq_none ..).mp hcheck) hstop
    cases h
    exact .inl (.inr (.inr (.inr hc')))
  · have ht := (handlerOf_storedBy hu).retired (u.retire_retired i.flags .ok)
    rw [ht.fatal, halive] at h
    cases h

theorem drainStep_recordable (halive : s.fatal = none) (hd : drainStep s = .next t) (h : t.fatal = some c) :
    Recordable s.params c := by
  rcases drainStep_cases s with ⟨-, hn⟩ | ⟨-, c', hsanity, hn⟩ | ⟨-, -, -, hn⟩ |
    ⟨-, -, -, ⟨c', hdecode, hn⟩ | ⟨i, -, hn⟩⟩ <;> rw [hn] at hd
  case inl | inr.inr.inl => cases hd; rw [State.endPass_fatal, halive] at h; cases h
  case inr.inl => cases hd; cases h; exact checkSanity_recordable hsanity s.params
  case inr.inr.inr.inl => cases hd; exact State.violate_recordable halive ((decodeIsSound _ _).2 _ hdecode) h
  case inr.inr.inr.inr => exact exec_recordable halive hd h

/-- Of the register writes only one of the request-id kills the block (R174). -/
theorem writeRegister_fatal {v : Word} {r : RegName} (halive : s.fatal = none)
    (h : (writeRegister s v r).fatal = some c) : c = .reqIdNonZero := by
  cases r
  case requestId =>
    simp only [writeRegister] at h
    split at h
    · rw [halive] at h; cases h
    · cases h; rfl
  all_goals simp [writeRegister, halive] at h

theorem hostStep_fatal (halive : s.fatal = none) (hs : hostStep s = .next t) (h : t.fatal = some c) :
    c = .reqIdNonZero := by
  rcases hostStep_cases hs with ⟨-, rfl⟩ | ⟨o, rest, -, -, rfl⟩ | ⟨o, v, rest, -, -, -, rfl⟩ |
    ⟨a, n, rest, -, -, rfl⟩ | ⟨a, bs, rest, -, -, rfl⟩
  case inr.inr.inl => exact writeRegister_fatal (s := { s with host := rest }) halive h
  all_goals exact absurd (halive.symm.trans h) (Option.some_ne_none c).symm

/-- Every cause that a step leaves recorded is one of those. -/
theorem step_recordable (hstep : step s = .next t) (h : t.fatal = some c) : Recordable s.params c := by
  obtain ⟨halive, ⟨-, hd⟩ | ⟨-, hs⟩⟩ := step_cases hstep
  · exact drainStep_recordable halive hd h
  · exact .inl (.inr (.inr (.inl (hostStep_fatal halive hs h))))

end

/-- Settles O22: the router's own error is not among the causes that a step can record. -/
theorem sbOutOfRangeCannotOccur : Obligations.SbOutOfRangeCannotOccur :=
  fun s _ hstep h => not_recordable_sbOutOfRange s.params (step_recordable hstep h)

/-- Settles O23: of the causes that a step can record, those of class `V` need the other policy. -/
theorem fatalCausesUnderErrorInterrupt : Obligations.FatalCausesUnderErrorInterrupt := by
  intro s t c hpolicy hstep h
  refine (step_recordable hstep h).resolve_right fun ⟨_, hfatal⟩ => ?_
  rw [hpolicy] at hfatal
  cases hfatal

end Sys2Proof.Machine
